-- ==== Sys2Proof/Word.lean ====
section
/-! DEFINITION. The words of the machine: the widths of `00_scope.md` rules R5 and R13. -/

namespace Sys2Proof

/-- A value of `XLEN` = 32 bits: an integer register, the program counter, an address (R5). -/
abbrev Word := BitVec 32

/-- One byte of memory (R35). -/
abbrev Byte := BitVec 8

/-- A 16-bit parcel: one instruction (R80). -/
abbrev Parcel := BitVec 16

/-- A 64-bit value: what `c.fld` and `c.fsd` move (R56). -/
abbrev DWord := BitVec 64

/-- An unprimed register field, register 0 to 31 (R13). -/
abbrev Reg := BitVec 5

/-- A primed register field, `rd'`, `rs1'` or `rs2'`: register `8 + field` (R13). -/
abbrev RegP := BitVec 3

end Sys2Proof
end

