-- ==== Sys2Proof/Config.lean ====
section
/-! DEFINITION. What is fixed for a whole run: the memory map's type (`20_memory.md` rule R58) and the values that
`State.reset` takes for the parameters the spec leaves OPEN (`92_eei_decisions.md` part 2).

The machine has no free value: no instruction of the spec leaves a result undefined (`INVENTORY.md`). The OPEN
parameters are arguments of `launch` (Machine/Launch.lean); the constants below serve `State.reset` only. -/

namespace Sys2Proof

/-- The permissions of a mapped byte, "drawn from R, W, X" (R58). -/
structure Perms where
  /-- `R`: a load may read the byte. -/
  r : Bool
  /-- `W`: a store may write the byte. -/
  w : Bool
  /-- `X`: the byte may be fetched. -/
  x : Bool
deriving DecidableEq, Repr

/-- `size` bytes from the address `base` on, all with the same permissions. -/
structure Region where
  base : Nat
  size : Nat
  perms : Perms
deriving DecidableEq, Repr

/-- `MemMap` (R58) as plain data: the first region that holds an address gives its permissions, and an address in no
region is unmapped (log 8). -/
abbrev MemMap := List Region

/-- `RESET_PC` of `State.reset`. DESIGN CHOICE, unsafe (log 1): the spec fixes no reset vector (R41). -/
def Config.resetPc : Word := 0x00001000#32

/-- Every integer register of `State.reset`. DESIGN CHOICE, unsafe (log 2): `INIT_X` is any value (R40). -/
def Config.resetX : Word := 0#32

/-- Every floating-point register of `State.reset`. DESIGN CHOICE, unsafe (log 3): `INIT_F` is any value (R40). -/
def Config.resetF : DWord := 0#64

/-- The `MemMap` of `State.reset`: every byte readable and writable, none executable: the most permissive map of a
machine into which no program has been loaded (R58). DESIGN CHOICE, unsafe (log 4). -/
def Config.resetMap : MemMap := [⟨0, 2 ^ 32, ⟨true, true, false⟩⟩]

/-- What a byte of memory that is not listed reads as. DESIGN CHOICE, unsafe (log 5): the spec gives an initialised
byte the image's value and leaves the others unspecified (R42). Any memory contents can be listed. -/
def Config.unlistedByte : Byte := 0#8

end Sys2Proof
end

