-- ==== Sys2Proof/Syntax.lean ====
section
/-! DEFINITION. The syntax: one constructor per row of spec/opcode_table.json, in the table's order.

An immediate is held ASSEMBLED (R14): at the width and with the zero low bits its rule R86 to R93 gives it, before it is
extended to 32 bits. A primed register is its 3-bit field (R13). A shift amount is 5 bits: the sixth bit "must be zero for
RV32C" (R5, R98). What an encoding demands beyond the widths is in WellFormed.lean. -/

namespace Sys2Proof

/-- The rows of spec/opcode_table.json: the 35 instructions of RV32C, the HINT, illegal and refused patterns that complete
the decoder (R95 to R98, R81), and the 7 entries that only RV64C has (R94). -/
inductive Instr where
  /-- `c.addi4spn` with `nzuimm = 0`; `rd = 0` is the all-zero parcel `0x0000` (R96, R99): illegal. -/
  | illegalCAddi4spnNzuimm0 (rd : RegP)
  /-- `x[8+rd'] <- x[2] + nzuimm` (R130); `nzuimm` is the assembled 10-bit value of R86. -/
  | cAddi4spn (rd : RegP) (nzuimm : BitVec 10)
  /-- Load 8 bytes into `f[8+rd']` (R131); `uimm` is the assembled 8-bit value of R88. -/
  | cFld (rd rs1 : RegP) (uimm : BitVec 8)
  /-- Load 4 bytes into `x[8+rd']` (R132); `uimm` is the assembled 7-bit value of R87. -/
  | cLw (rd rs1 : RegP) (uimm : BitVec 7)
  /-- Load 4 bytes into `f[8+rd']` (R133); `uimm` by R87. -/
  | cFlw (rd rs1 : RegP) (uimm : BitVec 7)
  /-- Quadrant 0 with funct3 100 (R139), reserved; `rest` is `inst[12:2]`. -/
  | illegalQ0Funct3x100 (rest : BitVec 11)
  /-- Store the 8 bytes of `f[8+rs2']` (R135); `uimm` by R88. -/
  | cFsd (rs2 rs1 : RegP) (uimm : BitVec 8)
  /-- Store the 4 bytes of `x[8+rs2']` (R136); `uimm` by R87. -/
  | cSw (rs2 rs1 : RegP) (uimm : BitVec 7)
  /-- Store the low 4 bytes of `f[8+rs2']` (R137); `uimm` by R87. -/
  | cFsw (rs2 rs1 : RegP) (uimm : BitVec 7)
  /-- No operation, exactly `0x0001` (R150). -/
  | cNop
  /-- The `c.nop` pattern with a non-zero immediate (R97): a HINT. -/
  | hintCNopImmNonzero (imm : BitVec 6)
  /-- `c.addi` with `nzimm = 0` (R97): a HINT. -/
  | hintCAddiImm0 (rd : Reg)
  /-- `x[rd] <- x[rd] + sext(nzimm)` (R151); `nzimm` is `imm6` of R89. -/
  | cAddi (rd : Reg) (nzimm : BitVec 6)
  /-- Jump pc-relative and link in `x[1]` (R152); `offset` is the assembled 12-bit value of R91. -/
  | cJal (offset : BitVec 12)
  /-- `c.li` with `rd = 0` (R97): a HINT. -/
  | hintCLiRd0 (imm : BitVec 6)
  /-- `x[rd] <- sext(imm)` (R154); `imm` is `imm6` of R89. -/
  | cLi (rd : Reg) (imm : BitVec 6)
  /-- `c.addi16sp` with `imm = 0`, `0x6101` (R96): illegal. -/
  | illegalCAddi16spImm0
  /-- `x[2] <- x[2] + sext(imm)` (R155); `imm` is the assembled 10-bit value of R90. -/
  | cAddi16sp (imm : BitVec 10)
  /-- `c.lui` with `imm = 0`, any `rd` but 2 (R96): illegal. -/
  | illegalCLuiImm0 (rd : Reg)
  /-- `c.lui` with `rd = 0` and `imm != 0` (R97): a HINT; `imm` is the 18-bit value of R89. -/
  | hintCLuiRd0 (imm : BitVec 18)
  /-- `x[rd] <- sext(imm)` (R156); `imm` is the 18-bit value `{imm6, 000000000000}` of R89. -/
  | cLui (rd : Reg) (imm : BitVec 18)
  /-- `c.srli` (`arith = 0`) or `c.srai` (`arith = 1`) with `shamt[5] = 1` (R98): illegal; `arith` is `inst[10]`. -/
  | illegalCSrliCSraiShamt5 (arith : BitVec 1) (rd : RegP) (shamtLow : BitVec 5)
  /-- `x[8+rd'] <- x[8+rd'] >>u shamt` (R157). -/
  | cSrli (rd : RegP) (shamt : BitVec 5)
  /-- `x[8+rd'] <- x[8+rd'] >>s shamt` (R158). -/
  | cSrai (rd : RegP) (shamt : BitVec 5)
  /-- `x[8+rd'] <- x[8+rd'] & sext(imm)` (R159); `imm` is `imm6` of R89. -/
  | cAndi (rd : RegP) (imm : BitVec 6)
  /-- `x[8+rd'] <- x[8+rd'] - x[8+rs2']` (R160). -/
  | cSub (rd rs2 : RegP)
  /-- `x[8+rd'] <- x[8+rd'] ^ x[8+rs2']` (R161). -/
  | cXor (rd rs2 : RegP)
  /-- `x[8+rd'] <- x[8+rd'] | x[8+rs2']` (R162). -/
  | cOr (rd rs2 : RegP)
  /-- `x[8+rd'] <- x[8+rd'] & x[8+rs2']` (R163). -/
  | cAnd (rd rs2 : RegP)
  /-- The `c.subw` pattern, reserved on RV32C (R96, R164): illegal. -/
  | illegalCSubw (rd rs2 : RegP)
  /-- The `c.addw` pattern, reserved on RV32C (R96, R165): illegal. -/
  | illegalCAddw (rd rs2 : RegP)
  /-- `100 1 11 hi 1 bit5 lo 01` (R171), reserved: illegal; the fields are `inst[9:7]`, `inst[5]`, `inst[4:2]`. -/
  | illegalQ1Reserved (hi : BitVec 3) (bit5 : BitVec 1) (lo : BitVec 3)
  /-- Jump pc-relative (R166); `offset` by R91. -/
  | cJ (offset : BitVec 12)
  /-- Branch when `x[8+rs1']` is zero (R167); `offset` is the assembled 9-bit value of R92. -/
  | cBeqz (rs1 : RegP) (offset : BitVec 9)
  /-- Branch when `x[8+rs1']` is not zero (R168); `offset` by R92. -/
  | cBnez (rs1 : RegP) (offset : BitVec 9)
  /-- `c.slli` with `shamt[5] = 1`, any `rd` (R98): illegal; `shamtLow` is `inst[6:2]`. -/
  | illegalCSlliShamt5 (rd : Reg) (shamtLow : BitVec 5)
  /-- `c.slli` with `rd = 0` (R97): a HINT. -/
  | hintCSlliRd0 (shamt : BitVec 5)
  /-- `x[rd] <- x[rd] << shamt` (R190). -/
  | cSlli (rd : Reg) (shamt : BitVec 5)
  /-- Load 8 bytes at `x[2] + uimm` into `f[rd]` (R191); `uimm` is the 9-bit value of R93. -/
  | cFldsp (rd : Reg) (uimm : BitVec 9)
  /-- `c.lwsp` with `rd = 0` (R96): illegal. -/
  | illegalCLwspRd0 (uimm : BitVec 8)
  /-- Load 4 bytes at `x[2] + uimm` into `x[rd]` (R192); `uimm` is the 8-bit value of R93. -/
  | cLwsp (rd : Reg) (uimm : BitVec 8)
  /-- Load 4 bytes at `x[2] + uimm` into `f[rd]` (R193); `uimm` by R93. -/
  | cFlwsp (rd : Reg) (uimm : BitVec 8)
  /-- `c.jr` with `rs1 = 0`, `0x8002` (R96): illegal. -/
  | illegalCJrRs1x0
  /-- `pc <- x[rs1]` with bit 0 cleared (R195). -/
  | cJr (rs1 : Reg)
  /-- `c.mv` with `rd = 0` (R97): a HINT. -/
  | hintCMvRd0 (rs2 : Reg)
  /-- `x[rd] <- x[rs2]` (R196). -/
  | cMv (rd rs2 : Reg)
  /-- `raise Breakpoint(pc)`, exactly `0x9002` (R197). -/
  | cEbreak
  /-- `pc <- x[rs1]` with bit 0 cleared, link in `x[1]` (R198). -/
  | cJalr (rs1 : Reg)
  /-- `c.add` with `rd = 0` (R97): a HINT. -/
  | hintCAddRd0 (rs2 : Reg)
  /-- `x[rd] <- x[rd] + x[rs2]` (R199). -/
  | cAdd (rd rs2 : Reg)
  /-- Store the 8 bytes of `f[rs2]` at `x[2] + uimm` (R200); `uimm` is the 9-bit value of R93. -/
  | cFsdsp (rs2 : Reg) (uimm : BitVec 9)
  /-- Store the 4 bytes of `x[rs2]` at `x[2] + uimm` (R201); `uimm` is the 8-bit value of R93. -/
  | cSwsp (rs2 : Reg) (uimm : BitVec 8)
  /-- Store the low 4 bytes of `f[rs2]` at `x[2] + uimm` (R202); `uimm` by R93. -/
  | cFswsp (rs2 : Reg) (uimm : BitVec 8)
  /-- `inst[1:0] = 11` (R81): a 32-bit instruction, outside this machine; `rest` is `inst[15:2]`. -/
  | refusedQ3 (rest : BitVec 14)
  /-- RV64C only: on RV32C its bits are `c.flw` (R134, R94); `uimm` by R88. -/
  | cLd (rd rs1 : RegP) (uimm : BitVec 8)
  /-- RV64C only: on RV32C its bits are `c.fsw` (R138, R94); `uimm` by R88. -/
  | cSd (rs2 rs1 : RegP) (uimm : BitVec 8)
  /-- RV64C only: on RV32C its bits are `c.jal` (R153, R94). -/
  | cAddiw (rd : Reg) (imm : BitVec 6)
  /-- RV64C only: on RV32C its bits are illegal (R164). -/
  | cSubw (rd rs2 : RegP)
  /-- RV64C only: on RV32C its bits are illegal (R165). -/
  | cAddw (rd rs2 : RegP)
  /-- RV64C only: on RV32C its bits are `c.flwsp` (R194, R94); `uimm` is the 9-bit value of R93. -/
  | cLdsp (rd : Reg) (uimm : BitVec 9)
  /-- RV64C only: on RV32C its bits are `c.fswsp` (R203, R94); `uimm` is the 9-bit value of R93. -/
  | cSdsp (rs2 : Reg) (uimm : BitVec 9)
deriving DecidableEq, Repr

end Sys2Proof
end

