-- ==== Sys2Proof/WellFormed.lean ====
section
/-! DEFINITION. Which terms of `Instr` are the meaning of a parcel on this machine: the conditions of the opcode map
(`30_encoding.md` rules R95 to R98) and the scaling of the immediates (R86 to R93). -/

namespace Sys2Proof

/-- The low `k` bits of an assembled immediate are 0: no instruction bit carries them (`30_encoding.md` section 3). -/
def scaledBy (k : Nat) {n : Nat} (imm : BitVec n) : Bool := imm.toNat % 2 ^ k == 0

/-- The conditions on the operands of each row. An RV64C-only entry is never the meaning of a parcel on RV32C (R94, R85),
so no term of it is well-formed. -/
def wellFormed : Instr → Bool
  | .illegalCAddi4spnNzuimm0 _ => true
  | .cAddi4spn _ nzuimm => scaledBy 2 nzuimm && nzuimm != 0
  | .cFld _ _ uimm => scaledBy 3 uimm
  | .cLw _ _ uimm => scaledBy 2 uimm
  | .cFlw _ _ uimm => scaledBy 2 uimm
  | .illegalQ0Funct3x100 _ => true
  | .cFsd _ _ uimm => scaledBy 3 uimm
  | .cSw _ _ uimm => scaledBy 2 uimm
  | .cFsw _ _ uimm => scaledBy 2 uimm
  | .cNop => true
  | .hintCNopImmNonzero imm => imm != 0
  | .hintCAddiImm0 rd => rd != 0
  | .cAddi rd nzimm => rd != 0 && nzimm != 0
  | .cJal offset => scaledBy 1 offset
  | .hintCLiRd0 _ => true
  | .cLi rd _ => rd != 0
  | .illegalCAddi16spImm0 => true
  | .cAddi16sp imm => scaledBy 4 imm && imm != 0
  | .illegalCLuiImm0 rd => rd != 2
  | .hintCLuiRd0 imm => scaledBy 12 imm && imm != 0
  | .cLui rd imm => rd != 0 && rd != 2 && scaledBy 12 imm && imm != 0
  | .illegalCSrliCSraiShamt5 _ _ _ => true
  | .cSrli _ _ => true
  | .cSrai _ _ => true
  | .cAndi _ _ => true
  | .cSub _ _ => true
  | .cXor _ _ => true
  | .cOr _ _ => true
  | .cAnd _ _ => true
  | .illegalCSubw _ _ => true
  | .illegalCAddw _ _ => true
  | .illegalQ1Reserved _ _ _ => true
  | .cJ offset => scaledBy 1 offset
  | .cBeqz _ offset => scaledBy 1 offset
  | .cBnez _ offset => scaledBy 1 offset
  | .illegalCSlliShamt5 _ _ => true
  | .hintCSlliRd0 _ => true
  | .cSlli rd _ => rd != 0
  | .cFldsp _ uimm => scaledBy 3 uimm
  | .illegalCLwspRd0 uimm => scaledBy 2 uimm
  | .cLwsp rd uimm => rd != 0 && scaledBy 2 uimm
  | .cFlwsp _ uimm => scaledBy 2 uimm
  | .illegalCJrRs1x0 => true
  | .cJr rs1 => rs1 != 0
  | .hintCMvRd0 rs2 => rs2 != 0
  | .cMv rd rs2 => rd != 0 && rs2 != 0
  | .cEbreak => true
  | .cJalr rs1 => rs1 != 0
  | .hintCAddRd0 rs2 => rs2 != 0
  | .cAdd rd rs2 => rd != 0 && rs2 != 0
  | .cFsdsp _ uimm => scaledBy 3 uimm
  | .cSwsp _ uimm => scaledBy 2 uimm
  | .cFswsp _ uimm => scaledBy 2 uimm
  | .refusedQ3 _ => true
  | .cLd _ _ _ => false
  | .cSd _ _ _ => false
  | .cAddiw _ _ => false
  | .cSubw _ _ => false
  | .cAddw _ _ => false
  | .cLdsp _ _ => false
  | .cSdsp _ _ => false

/-- `i` is what some parcel means on this machine. -/
abbrev WellFormed (i : Instr) : Prop := wellFormed i = true

end Sys2Proof
end

