-- ==== Sys2Proof/Decode.lean ====
section
/-! DEFINITION. The decoder and the encoder (`30_encoding.md`). `decodeParcel` is total: every one of the 65536 parcels
falls in exactly one row (R85, R105); an illegal, HINT or refused parcel is answered by the constructor of its row.
`{a, b}` of the spec is `a ++ b` and `inst[hi:lo]` is `w.extractLsb hi lo` (R8). -/

namespace Sys2Proof

/-! ## Immediates (`30_encoding.md` section 3) -/

/-- CIW, R86: `{inst[10:7], inst[12:11], inst[5], inst[6], 00}`. -/
def nzuimmCIW (w : Parcel) : BitVec 10 :=
  w.extractLsb 10 7 ++ w.extractLsb 12 11 ++ w.extractLsb 5 5 ++ w.extractLsb 6 6 ++ 0b00#2

/-- CL and CS, 4-byte accesses, R87: `{inst[5], inst[12:10], inst[6], 00}`. -/
def uimmCL4 (w : Parcel) : BitVec 7 :=
  w.extractLsb 5 5 ++ w.extractLsb 12 10 ++ w.extractLsb 6 6 ++ 0b00#2

/-- CL and CS, 8-byte accesses, R88: `{inst[6:5], inst[12:10], 000}`. -/
def uimmCL8 (w : Parcel) : BitVec 8 := w.extractLsb 6 5 ++ w.extractLsb 12 10 ++ 0b000#3

/-- CI and CB, R89: `imm6 = {inst[12], inst[6:2]}`. -/
def imm6 (w : Parcel) : BitVec 6 := w.extractLsb 12 12 ++ w.extractLsb 6 2

/-- `c.lui`, R89: `{imm6, 000000000000}`. -/
def immLui (w : Parcel) : BitVec 18 := imm6 w ++ 0b000000000000#12

/-- `c.addi16sp`, R90: `{inst[12], inst[4:3], inst[5], inst[2], inst[6], 0000}`. -/
def immAddi16sp (w : Parcel) : BitVec 10 :=
  w.extractLsb 12 12 ++ w.extractLsb 4 3 ++ w.extractLsb 5 5 ++ w.extractLsb 2 2 ++ w.extractLsb 6 6 ++ 0b0000#4

/-- CJ, R91: `{inst[12], inst[8], inst[10:9], inst[6], inst[7], inst[2], inst[11], inst[5:3], 0}`. -/
def offsetCJ (w : Parcel) : BitVec 12 :=
  w.extractLsb 12 12 ++ w.extractLsb 8 8 ++ w.extractLsb 10 9 ++ w.extractLsb 6 6 ++ w.extractLsb 7 7 ++
    w.extractLsb 2 2 ++ w.extractLsb 11 11 ++ w.extractLsb 5 3 ++ 0b0#1

/-- CB branches, R92: `{inst[12], inst[6:5], inst[2], inst[11:10], inst[4:3], 0}`. -/
def offsetCB (w : Parcel) : BitVec 9 :=
  w.extractLsb 12 12 ++ w.extractLsb 6 5 ++ w.extractLsb 2 2 ++ w.extractLsb 11 10 ++ w.extractLsb 4 3 ++ 0b0#1

/-- CI loads of 4 bytes, R93: `{inst[3:2], inst[12], inst[6:4], 00}`. -/
def uimmCI4 (w : Parcel) : BitVec 8 :=
  w.extractLsb 3 2 ++ w.extractLsb 12 12 ++ w.extractLsb 6 4 ++ 0b00#2

/-- CI loads of 8 bytes, R93: `{inst[4:2], inst[12], inst[6:5], 000}`. -/
def uimmCI8 (w : Parcel) : BitVec 9 :=
  w.extractLsb 4 2 ++ w.extractLsb 12 12 ++ w.extractLsb 6 5 ++ 0b000#3

/-- CSS stores of 4 bytes, R93: `{inst[8:7], inst[12:9], 00}`. -/
def uimmCSS4 (w : Parcel) : BitVec 8 := w.extractLsb 8 7 ++ w.extractLsb 12 9 ++ 0b00#2

/-- CSS stores of 8 bytes, R93: `{inst[9:7], inst[12:10], 000}`. -/
def uimmCSS8 (w : Parcel) : BitVec 9 := w.extractLsb 9 7 ++ w.extractLsb 12 10 ++ 0b000#3

/-! ## Register fields (R83) -/

/-- `rd` or `rs1`, the full field `inst[11:7]`. -/
def fieldRd (w : Parcel) : Reg := w.extractLsb 11 7

/-- `rs2`, the full field `inst[6:2]`. -/
def fieldRs2 (w : Parcel) : Reg := w.extractLsb 6 2

/-- `rd'` in CL and CIW, `rs2'` in CS and CA: `inst[4:2]`. -/
def fieldP42 (w : Parcel) : RegP := w.extractLsb 4 2

/-- `rs1'` in CL, CS and CB, `rd'` in CB and CA: `inst[9:7]`. -/
def fieldP97 (w : Parcel) : RegP := w.extractLsb 9 7

/-! ## The decoder (R85, R95 to R99) -/

/-- Quadrant 0 (R95): `inst[15:13]` selects the row; presence of the `f` registers (R100) is checked when the
instruction executes, before anything else it does. -/
def decodeQuadrant0 (w : Parcel) : Instr :=
  if w.extractLsb 15 13 = 0b000#3 then
    if nzuimmCIW w = 0 then .illegalCAddi4spnNzuimm0 (fieldP42 w) else .cAddi4spn (fieldP42 w) (nzuimmCIW w)
  else if w.extractLsb 15 13 = 0b001#3 then .cFld (fieldP42 w) (fieldP97 w) (uimmCL8 w)
  else if w.extractLsb 15 13 = 0b010#3 then .cLw (fieldP42 w) (fieldP97 w) (uimmCL4 w)
  else if w.extractLsb 15 13 = 0b011#3 then .cFlw (fieldP42 w) (fieldP97 w) (uimmCL4 w)
  else if w.extractLsb 15 13 = 0b100#3 then .illegalQ0Funct3x100 (w.extractLsb 12 2)
  else if w.extractLsb 15 13 = 0b101#3 then .cFsd (fieldP42 w) (fieldP97 w) (uimmCL8 w)
  else if w.extractLsb 15 13 = 0b110#3 then .cSw (fieldP42 w) (fieldP97 w) (uimmCL4 w)
  else .cFsw (fieldP42 w) (fieldP97 w) (uimmCL4 w)

/-- Quadrant 1, funct3 100 (R85 step 5): `inst[11:10]`, then for 11 `inst[12]` and `inst[6:5]`. -/
def decodeQuadrant1Arith (w : Parcel) : Instr :=
  if w.extractLsb 11 10 = 0b00#2 then
    if w.extractLsb 12 12 = 0b0#1 then .cSrli (fieldP97 w) (w.extractLsb 6 2)
    else .illegalCSrliCSraiShamt5 0b0#1 (fieldP97 w) (w.extractLsb 6 2)
  else if w.extractLsb 11 10 = 0b01#2 then
    if w.extractLsb 12 12 = 0b0#1 then .cSrai (fieldP97 w) (w.extractLsb 6 2)
    else .illegalCSrliCSraiShamt5 0b1#1 (fieldP97 w) (w.extractLsb 6 2)
  else if w.extractLsb 11 10 = 0b10#2 then .cAndi (fieldP97 w) (imm6 w)
  else if w.extractLsb 12 12 = 0b0#1 then
    if w.extractLsb 6 5 = 0b00#2 then .cSub (fieldP97 w) (fieldP42 w)
    else if w.extractLsb 6 5 = 0b01#2 then .cXor (fieldP97 w) (fieldP42 w)
    else if w.extractLsb 6 5 = 0b10#2 then .cOr (fieldP97 w) (fieldP42 w)
    else .cAnd (fieldP97 w) (fieldP42 w)
  else if w.extractLsb 6 5 = 0b00#2 then .illegalCSubw (fieldP97 w) (fieldP42 w)
  else if w.extractLsb 6 5 = 0b01#2 then .illegalCAddw (fieldP97 w) (fieldP42 w)
  else .illegalQ1Reserved (w.extractLsb 9 7) (w.extractLsb 5 5) (w.extractLsb 4 2)

/-- Quadrant 1 (R95), with R85 steps 3 and 4. -/
def decodeQuadrant1 (w : Parcel) : Instr :=
  if w.extractLsb 15 13 = 0b000#3 then
    if fieldRd w = 0 then
      if imm6 w = 0 then .cNop else .hintCNopImmNonzero (imm6 w)
    else if imm6 w = 0 then .hintCAddiImm0 (fieldRd w) else .cAddi (fieldRd w) (imm6 w)
  else if w.extractLsb 15 13 = 0b001#3 then .cJal (offsetCJ w)
  else if w.extractLsb 15 13 = 0b010#3 then
    if fieldRd w = 0 then .hintCLiRd0 (imm6 w) else .cLi (fieldRd w) (imm6 w)
  else if w.extractLsb 15 13 = 0b011#3 then
    if fieldRd w = 2 then
      if imm6 w = 0 then .illegalCAddi16spImm0 else .cAddi16sp (immAddi16sp w)
    else if imm6 w = 0 then .illegalCLuiImm0 (fieldRd w)
    else if fieldRd w = 0 then .hintCLuiRd0 (immLui w) else .cLui (fieldRd w) (immLui w)
  else if w.extractLsb 15 13 = 0b100#3 then decodeQuadrant1Arith w
  else if w.extractLsb 15 13 = 0b101#3 then .cJ (offsetCJ w)
  else if w.extractLsb 15 13 = 0b110#3 then .cBeqz (fieldP97 w) (offsetCB w)
  else .cBnez (fieldP97 w) (offsetCB w)

/-- Quadrant 2, funct3 100 (R85 step 6): `inst[12]`, then `rs2 = 0` or not, then `rd` = 0 or not. -/
def decodeQuadrant2Jump (w : Parcel) : Instr :=
  if w.extractLsb 12 12 = 0b0#1 then
    if fieldRs2 w = 0 then
      if fieldRd w = 0 then .illegalCJrRs1x0 else .cJr (fieldRd w)
    else if fieldRd w = 0 then .hintCMvRd0 (fieldRs2 w) else .cMv (fieldRd w) (fieldRs2 w)
  else if fieldRs2 w = 0 then
    if fieldRd w = 0 then .cEbreak else .cJalr (fieldRd w)
  else if fieldRd w = 0 then .hintCAddRd0 (fieldRs2 w) else .cAdd (fieldRd w) (fieldRs2 w)

/-- Quadrant 2 (R95); `c.slli` has funct3 000 (`90_conflicts.md` C1). -/
def decodeQuadrant2 (w : Parcel) : Instr :=
  if w.extractLsb 15 13 = 0b000#3 then
    if w.extractLsb 12 12 = 0b1#1 then .illegalCSlliShamt5 (fieldRd w) (w.extractLsb 6 2)
    else if fieldRd w = 0 then .hintCSlliRd0 (w.extractLsb 6 2) else .cSlli (fieldRd w) (w.extractLsb 6 2)
  else if w.extractLsb 15 13 = 0b001#3 then .cFldsp (fieldRd w) (uimmCI8 w)
  else if w.extractLsb 15 13 = 0b010#3 then
    if fieldRd w = 0 then .illegalCLwspRd0 (uimmCI4 w) else .cLwsp (fieldRd w) (uimmCI4 w)
  else if w.extractLsb 15 13 = 0b011#3 then .cFlwsp (fieldRd w) (uimmCI4 w)
  else if w.extractLsb 15 13 = 0b100#3 then decodeQuadrant2Jump w
  else if w.extractLsb 15 13 = 0b101#3 then .cFsdsp (fieldRs2 w) (uimmCSS8 w)
  else if w.extractLsb 15 13 = 0b110#3 then .cSwsp (fieldRs2 w) (uimmCSS4 w)
  else .cFswsp (fieldRs2 w) (uimmCSS4 w)

/-- The meaning of a parcel on RV32C (R85): the quadrant `inst[1:0]` first (R81). -/
def decodeParcel (w : Parcel) : Instr :=
  if w.extractLsb 1 0 = 0b00#2 then decodeQuadrant0 w
  else if w.extractLsb 1 0 = 0b01#2 then decodeQuadrant1 w
  else if w.extractLsb 1 0 = 0b10#2 then decodeQuadrant2 w
  else .refusedQ3 (w.extractLsb 15 2)

/-- The parcel of two bytes: "the byte at `pc` is `inst[7:0]`" (R63). -/
def parcelOfBytes (lo hi : Byte) : Parcel := hi ++ lo

/-- Why a list of bytes is no instruction: every parcel has a row, so only its bytes can be missing. -/
inductive DecodeRefusal where
  /-- Fewer than the two bytes of a parcel (R80). -/
  | truncated
deriving DecidableEq, Repr

/-- The instruction at the head of a list of bytes, low byte first (R51, R63), and the bytes after it. -/
def decode : List Byte → Except DecodeRefusal (Instr × List Byte)
  | lo :: hi :: rest => .ok (decodeParcel (parcelOfBytes lo hi), rest)
  | _ => .error .truncated

/-- The first two bytes of an instruction whose bits are `w`, numbered as spec/opcode_table.json numbers them and 0 above
`nbits`, in memory order: the low byte first. -/
def tableBytes (nbits w : Nat) : List Byte :=
  [BitVec.ofNat 8 (w % 2 ^ nbits), BitVec.ofNat 8 (w % 2 ^ nbits / 2 ^ 8)]

/-- The instruction the decoder reads from a word of the opcode table. -/
def decodeTableWord (nbits w : Nat) : Option Instr :=
  match decode (tableBytes nbits w) with
  | .ok (i, _) => some i
  | .error _ => none

/-! ## The encoder (R82, R86 to R93) -/

/-- CJ: the label `imm[11|4|9:8|10|6|7|3:1|5]` for bits 12-2 (R91). -/
def encodeCJ (offset : BitVec 12) : BitVec 11 :=
  offset.extractLsb 11 11 ++ offset.extractLsb 4 4 ++ offset.extractLsb 9 8 ++ offset.extractLsb 10 10 ++
    offset.extractLsb 6 6 ++ offset.extractLsb 7 7 ++ offset.extractLsb 3 1 ++ offset.extractLsb 5 5

/-- The parcel of an instruction: the fields of its row from bit 15 down, each immediate by its source label. -/
def encode : Instr → Parcel
  | .illegalCAddi4spnNzuimm0 rd => 0b000#3 ++ 0b00000000#8 ++ rd ++ 0b00#2
  | .cAddi4spn rd nzuimm =>
    0b000#3 ++ nzuimm.extractLsb 5 4 ++ nzuimm.extractLsb 9 6 ++ nzuimm.extractLsb 2 2 ++ nzuimm.extractLsb 3 3 ++ rd ++ 0b00#2
  | .cFld rd rs1 uimm =>
    0b001#3 ++ uimm.extractLsb 5 3 ++ rs1 ++ uimm.extractLsb 7 6 ++ rd ++ 0b00#2
  | .cLw rd rs1 uimm =>
    0b010#3 ++ uimm.extractLsb 5 3 ++ rs1 ++ uimm.extractLsb 2 2 ++ uimm.extractLsb 6 6 ++ rd ++ 0b00#2
  | .cFlw rd rs1 uimm =>
    0b011#3 ++ uimm.extractLsb 5 3 ++ rs1 ++ uimm.extractLsb 2 2 ++ uimm.extractLsb 6 6 ++ rd ++ 0b00#2
  | .illegalQ0Funct3x100 rest => 0b100#3 ++ rest ++ 0b00#2
  | .cFsd rs2 rs1 uimm =>
    0b101#3 ++ uimm.extractLsb 5 3 ++ rs1 ++ uimm.extractLsb 7 6 ++ rs2 ++ 0b00#2
  | .cSw rs2 rs1 uimm =>
    0b110#3 ++ uimm.extractLsb 5 3 ++ rs1 ++ uimm.extractLsb 2 2 ++ uimm.extractLsb 6 6 ++ rs2 ++ 0b00#2
  | .cFsw rs2 rs1 uimm =>
    0b111#3 ++ uimm.extractLsb 5 3 ++ rs1 ++ uimm.extractLsb 2 2 ++ uimm.extractLsb 6 6 ++ rs2 ++ 0b00#2
  | .cNop => 0b000#3 ++ 0b0#1 ++ 0b00000#5 ++ 0b00000#5 ++ 0b01#2
  | .hintCNopImmNonzero imm =>
    0b000#3 ++ imm.extractLsb 5 5 ++ 0b00000#5 ++ imm.extractLsb 4 0 ++ 0b01#2
  | .hintCAddiImm0 rd => 0b000#3 ++ 0b0#1 ++ rd ++ 0b00000#5 ++ 0b01#2
  | .cAddi rd nzimm =>
    0b000#3 ++ nzimm.extractLsb 5 5 ++ rd ++ nzimm.extractLsb 4 0 ++ 0b01#2
  | .cJal offset => 0b001#3 ++ encodeCJ offset ++ 0b01#2
  | .hintCLiRd0 imm =>
    0b010#3 ++ imm.extractLsb 5 5 ++ 0b00000#5 ++ imm.extractLsb 4 0 ++ 0b01#2
  | .cLi rd imm => 0b010#3 ++ imm.extractLsb 5 5 ++ rd ++ imm.extractLsb 4 0 ++ 0b01#2
  | .illegalCAddi16spImm0 => 0b011#3 ++ 0b0#1 ++ 0b00010#5 ++ 0b00000#5 ++ 0b01#2
  | .cAddi16sp imm =>
    0b011#3 ++ imm.extractLsb 9 9 ++ 0b00010#5 ++ imm.extractLsb 4 4 ++ imm.extractLsb 6 6 ++ imm.extractLsb 8 7 ++ imm.extractLsb 5 5 ++ 0b01#2
  | .illegalCLuiImm0 rd => 0b011#3 ++ 0b0#1 ++ rd ++ 0b00000#5 ++ 0b01#2
  | .hintCLuiRd0 imm =>
    0b011#3 ++ imm.extractLsb 17 17 ++ 0b00000#5 ++ imm.extractLsb 16 12 ++ 0b01#2
  | .cLui rd imm =>
    0b011#3 ++ imm.extractLsb 17 17 ++ rd ++ imm.extractLsb 16 12 ++ 0b01#2
  | .illegalCSrliCSraiShamt5 arith rd shamtLow => 0b100#3 ++ 0b1#1 ++ 0b0#1 ++ arith ++ rd ++ shamtLow ++ 0b01#2
  | .cSrli rd shamt => 0b100#3 ++ 0b0#1 ++ 0b00#2 ++ rd ++ shamt ++ 0b01#2
  | .cSrai rd shamt => 0b100#3 ++ 0b0#1 ++ 0b01#2 ++ rd ++ shamt ++ 0b01#2
  | .cAndi rd imm =>
    0b100#3 ++ imm.extractLsb 5 5 ++ 0b10#2 ++ rd ++ imm.extractLsb 4 0 ++ 0b01#2
  | .cSub rd rs2 => 0b100011#6 ++ rd ++ 0b00#2 ++ rs2 ++ 0b01#2
  | .cXor rd rs2 => 0b100011#6 ++ rd ++ 0b01#2 ++ rs2 ++ 0b01#2
  | .cOr rd rs2 => 0b100011#6 ++ rd ++ 0b10#2 ++ rs2 ++ 0b01#2
  | .cAnd rd rs2 => 0b100011#6 ++ rd ++ 0b11#2 ++ rs2 ++ 0b01#2
  | .illegalCSubw rd rs2 => 0b100111#6 ++ rd ++ 0b00#2 ++ rs2 ++ 0b01#2
  | .illegalCAddw rd rs2 => 0b100111#6 ++ rd ++ 0b01#2 ++ rs2 ++ 0b01#2
  | .illegalQ1Reserved hi bit5 lo => 0b100111#6 ++ hi ++ 0b1#1 ++ bit5 ++ lo ++ 0b01#2
  | .cJ offset => 0b101#3 ++ encodeCJ offset ++ 0b01#2
  | .cBeqz rs1 offset =>
    0b110#3 ++ offset.extractLsb 8 8 ++ offset.extractLsb 4 3 ++ rs1 ++ offset.extractLsb 7 6 ++ offset.extractLsb 2 1 ++ offset.extractLsb 5 5 ++ 0b01#2
  | .cBnez rs1 offset =>
    0b111#3 ++ offset.extractLsb 8 8 ++ offset.extractLsb 4 3 ++ rs1 ++ offset.extractLsb 7 6 ++ offset.extractLsb 2 1 ++ offset.extractLsb 5 5 ++ 0b01#2
  | .illegalCSlliShamt5 rd shamtLow => 0b000#3 ++ 0b1#1 ++ rd ++ shamtLow ++ 0b10#2
  | .hintCSlliRd0 shamt => 0b000#3 ++ 0b0#1 ++ 0b00000#5 ++ shamt ++ 0b10#2
  | .cSlli rd shamt => 0b000#3 ++ 0b0#1 ++ rd ++ shamt ++ 0b10#2
  | .cFldsp rd uimm =>
    0b001#3 ++ uimm.extractLsb 5 5 ++ rd ++ uimm.extractLsb 4 3 ++ uimm.extractLsb 8 6 ++ 0b10#2
  | .illegalCLwspRd0 uimm =>
    0b010#3 ++ uimm.extractLsb 5 5 ++ 0b00000#5 ++ uimm.extractLsb 4 2 ++ uimm.extractLsb 7 6 ++ 0b10#2
  | .cLwsp rd uimm =>
    0b010#3 ++ uimm.extractLsb 5 5 ++ rd ++ uimm.extractLsb 4 2 ++ uimm.extractLsb 7 6 ++ 0b10#2
  | .cFlwsp rd uimm =>
    0b011#3 ++ uimm.extractLsb 5 5 ++ rd ++ uimm.extractLsb 4 2 ++ uimm.extractLsb 7 6 ++ 0b10#2
  | .illegalCJrRs1x0 => 0b100#3 ++ 0b0#1 ++ 0b00000#5 ++ 0b00000#5 ++ 0b10#2
  | .cJr rs1 => 0b100#3 ++ 0b0#1 ++ rs1 ++ 0b00000#5 ++ 0b10#2
  | .hintCMvRd0 rs2 => 0b100#3 ++ 0b0#1 ++ 0b00000#5 ++ rs2 ++ 0b10#2
  | .cMv rd rs2 => 0b100#3 ++ 0b0#1 ++ rd ++ rs2 ++ 0b10#2
  | .cEbreak => 0b100#3 ++ 0b1#1 ++ 0b00000#5 ++ 0b00000#5 ++ 0b10#2
  | .cJalr rs1 => 0b100#3 ++ 0b1#1 ++ rs1 ++ 0b00000#5 ++ 0b10#2
  | .hintCAddRd0 rs2 => 0b100#3 ++ 0b1#1 ++ 0b00000#5 ++ rs2 ++ 0b10#2
  | .cAdd rd rs2 => 0b100#3 ++ 0b1#1 ++ rd ++ rs2 ++ 0b10#2
  | .cFsdsp rs2 uimm => 0b101#3 ++ uimm.extractLsb 5 3 ++ uimm.extractLsb 8 6 ++ rs2 ++ 0b10#2
  | .cSwsp rs2 uimm => 0b110#3 ++ uimm.extractLsb 5 2 ++ uimm.extractLsb 7 6 ++ rs2 ++ 0b10#2
  | .cFswsp rs2 uimm => 0b111#3 ++ uimm.extractLsb 5 2 ++ uimm.extractLsb 7 6 ++ rs2 ++ 0b10#2
  | .refusedQ3 rest => rest ++ 0b11#2
  | .cLd rd rs1 uimm =>
    0b011#3 ++ uimm.extractLsb 5 3 ++ rs1 ++ uimm.extractLsb 7 6 ++ rd ++ 0b00#2
  | .cSd rs2 rs1 uimm =>
    0b111#3 ++ uimm.extractLsb 5 3 ++ rs1 ++ uimm.extractLsb 7 6 ++ rs2 ++ 0b00#2
  | .cAddiw rd imm => 0b001#3 ++ imm.extractLsb 5 5 ++ rd ++ imm.extractLsb 4 0 ++ 0b01#2
  | .cSubw rd rs2 => 0b100111#6 ++ rd ++ 0b00#2 ++ rs2 ++ 0b01#2
  | .cAddw rd rs2 => 0b100111#6 ++ rd ++ 0b01#2 ++ rs2 ++ 0b01#2
  | .cLdsp rd uimm =>
    0b011#3 ++ uimm.extractLsb 5 5 ++ rd ++ uimm.extractLsb 4 3 ++ uimm.extractLsb 8 6 ++ 0b10#2
  | .cSdsp rs2 uimm => 0b111#3 ++ uimm.extractLsb 5 3 ++ uimm.extractLsb 8 6 ++ rs2 ++ 0b10#2

/-- The bytes of an instruction in memory order, low byte first (R51). -/
def encodeBytes (i : Instr) : List Byte := [(encode i).extractLsb 7 0, (encode i).extractLsb 15 8]

/-! ## The opcode table as data (R85) -/

/-- The fixed bits of a row: a parcel `w` matches when `w &&& mask = pattern`. -/
structure TableRow where
  mask : Parcel
  pattern : Parcel
deriving DecidableEq, Repr

/-- The rows of spec/opcode_table.json in its order: the first 54 decode, the last 7 are the RV64C-only entries. -/
def opcodeTable : List TableRow := [
  ⟨0xffe3#16, 0x0000#16⟩, ⟨0xe003#16, 0x0000#16⟩, ⟨0xe003#16, 0x2000#16⟩, ⟨0xe003#16, 0x4000#16⟩,
  ⟨0xe003#16, 0x6000#16⟩, ⟨0xe003#16, 0x8000#16⟩, ⟨0xe003#16, 0xa000#16⟩, ⟨0xe003#16, 0xc000#16⟩,
  ⟨0xe003#16, 0xe000#16⟩, ⟨0xffff#16, 0x0001#16⟩, ⟨0xef83#16, 0x0001#16⟩, ⟨0xf07f#16, 0x0001#16⟩,
  ⟨0xe003#16, 0x0001#16⟩, ⟨0xe003#16, 0x2001#16⟩, ⟨0xef83#16, 0x4001#16⟩, ⟨0xe003#16, 0x4001#16⟩,
  ⟨0xffff#16, 0x6101#16⟩, ⟨0xef83#16, 0x6101#16⟩, ⟨0xf07f#16, 0x6001#16⟩, ⟨0xef83#16, 0x6001#16⟩,
  ⟨0xe003#16, 0x6001#16⟩, ⟨0xf803#16, 0x9001#16⟩, ⟨0xfc03#16, 0x8001#16⟩, ⟨0xfc03#16, 0x8401#16⟩,
  ⟨0xec03#16, 0x8801#16⟩, ⟨0xfc63#16, 0x8c01#16⟩, ⟨0xfc63#16, 0x8c21#16⟩, ⟨0xfc63#16, 0x8c41#16⟩,
  ⟨0xfc63#16, 0x8c61#16⟩, ⟨0xfc63#16, 0x9c01#16⟩, ⟨0xfc63#16, 0x9c21#16⟩, ⟨0xfc43#16, 0x9c41#16⟩,
  ⟨0xe003#16, 0xa001#16⟩, ⟨0xe003#16, 0xc001#16⟩, ⟨0xe003#16, 0xe001#16⟩, ⟨0xf003#16, 0x1002#16⟩,
  ⟨0xff83#16, 0x0002#16⟩, ⟨0xf003#16, 0x0002#16⟩, ⟨0xe003#16, 0x2002#16⟩, ⟨0xef83#16, 0x4002#16⟩,
  ⟨0xe003#16, 0x4002#16⟩, ⟨0xe003#16, 0x6002#16⟩, ⟨0xffff#16, 0x8002#16⟩, ⟨0xf07f#16, 0x8002#16⟩,
  ⟨0xff83#16, 0x8002#16⟩, ⟨0xf003#16, 0x8002#16⟩, ⟨0xffff#16, 0x9002#16⟩, ⟨0xf07f#16, 0x9002#16⟩,
  ⟨0xff83#16, 0x9002#16⟩, ⟨0xf003#16, 0x9002#16⟩, ⟨0xe003#16, 0xa002#16⟩, ⟨0xe003#16, 0xc002#16⟩,
  ⟨0xe003#16, 0xe002#16⟩, ⟨0x0003#16, 0x0003#16⟩, ⟨0xe003#16, 0x6000#16⟩, ⟨0xe003#16, 0xe000#16⟩,
  ⟨0xe003#16, 0x2001#16⟩, ⟨0xfc63#16, 0x9c01#16⟩, ⟨0xfc63#16, 0x9c21#16⟩, ⟨0xe003#16, 0x6002#16⟩,
  ⟨0xe003#16, 0xe002#16⟩]

/-- The number of rows that take part in decoding (R85). -/
def decodingRows : Nat := 54

/-- The row of spec/opcode_table.json that an instruction stands for, counted from 0. -/
def tableRow : Instr → Nat
  | .illegalCAddi4spnNzuimm0 _ => 0
  | .cAddi4spn _ _ => 1
  | .cFld _ _ _ => 2
  | .cLw _ _ _ => 3
  | .cFlw _ _ _ => 4
  | .illegalQ0Funct3x100 _ => 5
  | .cFsd _ _ _ => 6
  | .cSw _ _ _ => 7
  | .cFsw _ _ _ => 8
  | .cNop => 9
  | .hintCNopImmNonzero _ => 10
  | .hintCAddiImm0 _ => 11
  | .cAddi _ _ => 12
  | .cJal _ => 13
  | .hintCLiRd0 _ => 14
  | .cLi _ _ => 15
  | .illegalCAddi16spImm0 => 16
  | .cAddi16sp _ => 17
  | .illegalCLuiImm0 _ => 18
  | .hintCLuiRd0 _ => 19
  | .cLui _ _ => 20
  | .illegalCSrliCSraiShamt5 _ _ _ => 21
  | .cSrli _ _ => 22
  | .cSrai _ _ => 23
  | .cAndi _ _ => 24
  | .cSub _ _ => 25
  | .cXor _ _ => 26
  | .cOr _ _ => 27
  | .cAnd _ _ => 28
  | .illegalCSubw _ _ => 29
  | .illegalCAddw _ _ => 30
  | .illegalQ1Reserved _ _ _ => 31
  | .cJ _ => 32
  | .cBeqz _ _ => 33
  | .cBnez _ _ => 34
  | .illegalCSlliShamt5 _ _ => 35
  | .hintCSlliRd0 _ => 36
  | .cSlli _ _ => 37
  | .cFldsp _ _ => 38
  | .illegalCLwspRd0 _ => 39
  | .cLwsp _ _ => 40
  | .cFlwsp _ _ => 41
  | .illegalCJrRs1x0 => 42
  | .cJr _ => 43
  | .hintCMvRd0 _ => 44
  | .cMv _ _ => 45
  | .cEbreak => 46
  | .cJalr _ => 47
  | .hintCAddRd0 _ => 48
  | .cAdd _ _ => 49
  | .cFsdsp _ _ => 50
  | .cSwsp _ _ => 51
  | .cFswsp _ _ => 52
  | .refusedQ3 _ => 53
  | .cLd _ _ _ => 54
  | .cSd _ _ _ => 55
  | .cAddiw _ _ => 56
  | .cSubw _ _ => 57
  | .cAddw _ _ => 58
  | .cLdsp _ _ => 59
  | .cSdsp _ _ => 60

end Sys2Proof
end

