-- ==== Sys2Proof/Machine/State.lean ====
section
/-! DEFINITION. The state of the machine (`10_state.md` rule R38), why a step stops, and the state after reset. -/

namespace Sys2Proof.Machine

/-- Memory `M` (R35): address and byte pairs with addresses strictly rising, listing no byte equal to what an unlisted
address reads as (`Memory.wf` in Ops.lean). -/
abbrev Memory := List Host.Cell

/-- The floating-point registers (R31, R6). The shape IS the pair `HAS_F`, `HAS_D` (log 7): there is no register file
without `HAS_F`, `FLEN` = 32 with `HAS_F` alone, and `FLEN` = 64 with `HAS_D`, which implies `HAS_F`. -/
inductive FpRegs where
  /-- `HAS_F` and `HAS_D` false: no `f` register exists. -/
  | absent
  /-- `HAS_F` only: `FLEN` = 32. -/
  | single (regs : Vector Word 32)
  /-- `HAS_F` and `HAS_D`: `FLEN` = 64. -/
  | double (regs : Vector DWord 32)
deriving DecidableEq, Repr

/-- The architectural state (R38) and the one argument of a run that a step consults, `MemMap` (R58). -/
structure State where
  /-- `x[0]` to `x[31]` (R20). Element 0 is never read: `x[0]` is hard-wired in `State.readX` and `State.writeX`
  (log 13). -/
  x : Vector Word 32
  /-- The program counter (R25). -/
  pc : Word
  /-- `f[0]` to `f[31]`, or none (R31). -/
  f : FpRegs
  /-- Memory `M` (R35). -/
  mem : Memory
  /-- `MemMap`, fixed for a whole run (R58). -/
  map : MemMap
deriving DecidableEq, Repr

/-- The exceptions of R220, by name; `Cause.code` (Ops.lean) gives the number. -/
inductive Cause where
  /-- Code 0. Listed by R220, which says that it cannot occur on this machine; nothing raises it. -/
  | instructionAddressMisaligned
  /-- Code 1: the fetch, when a byte of the parcel at `pc` is not mapped executable. -/
  | instructionAccessFault
  /-- Code 2: a reserved parcel, or a floating-point entry whose register file is absent. -/
  | illegalInstruction
  /-- Code 3: `c.ebreak`. -/
  | breakpoint
  /-- Code 4: a load whose address is not a multiple of the access size. -/
  | loadAddressMisaligned
  /-- Code 5: an aligned load with a byte that is not mapped readable. -/
  | loadAccessFault
  /-- Code 6: a store whose address is not a multiple of the access size. -/
  | storeAddressMisaligned
  /-- Code 7: an aligned store with a byte that is not mapped writable. -/
  | storeAccessFault
deriving DecidableEq, Repr

/-- The record `Trap(cause, epc, tval)` (R224). -/
structure Trap where
  cause : Cause
  /-- The address of the instruction that raised (R224). -/
  epc : Word
  /-- The information recorded with the exception (R222). -/
  tval : Word
deriving DecidableEq, Repr

/-- How the machine stops. -/
inductive Fault where
  /-- Raised by `raise` (Ops.lean) alone, for the fetch, an illegal parcel, `c.ebreak`, a load or a store: a trap is
  "a terminal outcome of `step`" (R224), which hands the record and the state to the environment. Safe: it is the
  spec's own outcome, and the state is handed over unchanged (R223). -/
  | trap (record : Trap) (state : State)
deriving DecidableEq, Repr

/-- What the model gives no meaning to. -/
inductive Refusal where
  /-- Raised by a refused arm of `exec` for an instruction without a meaning. No arm is refused. Safe: it claims
  nothing. -/
  | notModelled (mnemonic : String)
  /-- Raised by the row `refused.q3`: a parcel with `inst[1:0] = 11`, "32-bit instruction, outside this spec" (R81).
  Safe: a real hart goes on, and the model claims nothing about it. -/
  | thirtyTwoBitInstruction (parcel : Parcel)
  /-- Raised by the fetch when bit 0 of `pc` is 1, which "is not a state of this machine" (R260, R27). Safe: no run from
  a launched state meets it (log 9). -/
  | oddPc (pc : Word)
deriving DecidableEq, Repr

/-- The machine right after reset (R261): the launch (Machine/Launch.lean) with the values of logs 1 to 5 for the
parameters the spec leaves OPEN, and no program. -/
def State.reset : State where
  x := Vector.replicate 32 Config.resetX
  pc := Config.resetPc
  f := .double (Vector.replicate 32 Config.resetF)
  mem := []
  map := Config.resetMap

end Sys2Proof.Machine
end

