-- ==== Sys2Proof/Machine/Flags.lean ====
section
/-! DEFINITION. Conditions. The machine has no flags and no condition codes (`10_state.md` rule R29): no instruction sets
or reads a carry, zero, negative or overflow flag, and arithmetic records none (R10). Its only condition compares all 32
bits of a register with zero (R12). -/

namespace Sys2Proof.Machine

/-- `a == 0`: "true exactly when all 32 bits of `a` are 0" (R12). -/
def isZero (a : Word) : Bool := a == 0#32

end Sys2Proof.Machine
end

