-- ==== Sys2Proof/Machine/Ops.lean ====
section
/-! DEFINITION. The named operations: registers (`10_state.md`), memory (`20_memory.md`), taking an exception
(`60_exceptions.md`). There is no return from one: "there is no trap-return instruction" (R227). -/

namespace Sys2Proof.Machine

/-- What a step answers. -/
abbrev Result := Host.Outcome State Fault Refusal

/-! ## Integer registers and the program counter -/

/-- `x[i]`: "`x[0]` reads as 0" (R22). -/
def State.readX (s : State) (i : Reg) : Word := if i = 0#5 then 0#32 else s.x[i.toNat]'i.isLt

/-- `x[i] <- v`: "a write to `x[0]` has no effect" (R22). -/
def State.writeX (s : State) (i : Reg) (v : Word) : State :=
  if i = 0#5 then s else { s with x := s.x.set i.toNat v i.isLt }

/-- `pc <- t`: the address of the next instruction (R9). -/
def State.setPc (s : State) (t : Word) : State := { s with pc := t }

/-- The address after this instruction's own parcel, modulo 2^32 (R26, R80). -/
def State.nextPc (s : State) : Word := s.pc + 2#32

/-- `pc <- pc + 2` (R26). -/
def State.advance (s : State) : State := s.setPc s.nextPc

/-! ## Floating-point registers -/

/-- `HAS_F` (R6). -/
def State.hasF (s : State) : Bool :=
  match s.f with
  | .absent => false
  | .single _ => true
  | .double _ => true

/-- `HAS_D` (R6). -/
def State.hasD (s : State) : Bool :=
  match s.f with
  | .absent => false
  | .single _ => false
  | .double _ => true

/-- The low 32 bits of `f[i]`, "whatever bits 63:32 hold" (R32); none without `HAS_F`. -/
def State.readF32 (s : State) (i : Reg) : Option Word :=
  match s.f with
  | .absent => none
  | .single regs => some (regs[i.toNat]'i.isLt)
  | .double regs => some ((regs[i.toNat]'i.isLt).extractLsb 31 0)

/-- All 64 bits of `f[i]`; none without `HAS_D`. -/
def State.readF64 (s : State) (i : Reg) : Option DWord :=
  match s.f with
  | .absent => none
  | .single _ => none
  | .double regs => some (regs[i.toNat]'i.isLt)

/-- `box(v)` when `FLEN` = 64 (R32, R133): "the loaded word in bits 31:0 and ones in bits 63:32". -/
def nanBox (v : Word) : DWord := 0xFFFFFFFF#32 ++ v

/-- `f[i] <- box(v)` (R133): the word itself when `FLEN` = 32, NaN-boxed when `FLEN` = 64. Without `HAS_F` there is no
register, and no instruction comes here (R100). -/
def State.writeF32 (s : State) (i : Reg) (v : Word) : State :=
  match s.f with
  | .absent => s
  | .single regs => { s with f := .single (regs.set i.toNat v i.isLt) }
  | .double regs => { s with f := .double (regs.set i.toNat (nanBox v) i.isLt) }

/-- `f[i] <- v`, 64 bits. Without `HAS_D` there is no such register, and no instruction comes here (R100). -/
def State.writeF64 (s : State) (i : Reg) (v : DWord) : State :=
  match s.f with
  | .absent => s
  | .single _ => s
  | .double regs => { s with f := .double (regs.set i.toNat v i.isLt) }

/-! ## Taking an exception (R220 to R224) -/

/-- The codes of R220. -/
def Cause.code : Cause → Nat
  | .instructionAddressMisaligned => 0
  | .instructionAccessFault => 1
  | .illegalInstruction => 2
  | .breakpoint => 3
  | .loadAddressMisaligned => 4
  | .loadAccessFault => 5
  | .storeAddressMisaligned => 6
  | .storeAccessFault => 7

/-- Taking an exception, shared by all: "the machine produces the record `Trap(cause = code of E, epc = pc, tval)` and
hands it, with the unchanged state, to the execution environment. The machine executes nothing further" (R223, R224). -/
def raise (c : Cause) (tval : Word) (s : State) : Result := .fault (.trap ⟨c, s.pc, tval⟩ s)

/-- Illegal instruction: `tval` is "the 16-bit parcel, zero-extended to 32 bits" (R96, R222). -/
def raiseIllegal (w : Parcel) (s : State) : Result := raise .illegalInstruction (w.setWidth 32) s

/-! ## Memory: one byte -/

/-- The byte at an address: the listed one, or what an unlisted address reads as (log 5). -/
def Memory.read : Memory → Nat → Byte
  | [], _ => Config.unlistedByte
  | (k, b) :: m, a => if k = a then b else Memory.read m a

/-- Memory without an entry for an address. -/
def Memory.erase : Memory → Nat → Memory
  | [], _ => []
  | (k, c) :: m, a => if k = a then Memory.erase m a else (k, c) :: Memory.erase m a

/-- Memory with an entry for an address put in its place. -/
def Memory.insert : Memory → Nat → Byte → Memory
  | [], a, b => [(a, b)]
  | (k, c) :: m, a, b =>
    if a < k then (a, b) :: (k, c) :: m
    else if a = k then (a, b) :: m
    else (k, c) :: Memory.insert m a b

/-- `M[a] <- b`: a byte equal to what an unlisted address reads as is not listed, so the canonical form stays. -/
def Memory.write (m : Memory) (a : Nat) (b : Byte) : Memory :=
  if b = Config.unlistedByte then Memory.erase m a else Memory.insert m a b

/-- The canonical form of a memory whose addresses are `lo` or more: strictly rising, below 2^32, and no byte equal to
what an unlisted address reads as. -/
def Memory.wfFrom : Nat → Memory → Bool
  | _, [] => true
  | lo, (k, b) :: m => decide (lo ≤ k) && decide (k < 2 ^ 32) && b != Config.unlistedByte && Memory.wfFrom (k + 1) m

/-- The canonical form of memory: equal memories are equal lists. -/
def Memory.wf (m : Memory) : Bool := Memory.wfFrom 0 m

/-- `M[a]` (R35). -/
def State.byteAt (s : State) (a : Word) : Byte := Memory.read s.mem a.toNat

/-! ## Memory: little-endian values (R51) -/

/-- `{M[a+1], M[a]}`: a parcel (R63). -/
def State.parcelAt (s : State) (a : Word) : Parcel := s.byteAt (a + 1) ++ s.byteAt a

/-- `{M[a+3], ..., M[a]}`: a 4-byte value (R52). -/
def State.wordAt (s : State) (a : Word) : Word :=
  s.byteAt (a + 3) ++ s.byteAt (a + 2) ++ s.byteAt (a + 1) ++ s.byteAt a

/-- `{M[a+7], ..., M[a]}`: an 8-byte value (R52). -/
def State.dwordAt (s : State) (a : Word) : DWord := s.wordAt (a + 4) ++ s.wordAt a

/-- Memory with a list of bytes stored from the address `a` on. -/
def Memory.writeBytes : Memory → Word → List Byte → Memory
  | m, _, [] => m
  | m, a, b :: bs => Memory.writeBytes (Memory.write m a.toNat b) (a + 1) bs

/-- The bytes `v[8k+7:8k]` of a 4-byte value, least significant first (R53). -/
def bytesOfWord (v : Word) : List Byte := [v.extractLsb 7 0, v.extractLsb 15 8, v.extractLsb 23 16, v.extractLsb 31 24]

/-- The bytes of an 8-byte value, least significant first (R53). -/
def bytesOfDWord (v : DWord) : List Byte := bytesOfWord (v.extractLsb 31 0) ++ bytesOfWord (v.extractLsb 63 32)

/-! ## The memory map (R58) -/

/-- Whether a region holds an address. -/
def Region.holds (g : Region) (a : Word) : Bool := decide (g.base ≤ a.toNat) && decide (a.toNat < g.base + g.size)

/-- `MemMap` at an address: its permissions, or none when it is unmapped (R58). -/
def MemMap.perms : MemMap → Word → Option Perms
  | [], _ => none
  | g :: m, a => if Region.holds g a then some g.perms else MemMap.perms m a

/-- The byte at `a` is mapped readable. -/
def MemMap.readable (m : MemMap) (a : Word) : Bool :=
  match MemMap.perms m a with
  | some p => p.r
  | none => false

/-- The byte at `a` is mapped writable. -/
def MemMap.writable (m : MemMap) (a : Word) : Bool :=
  match MemMap.perms m a with
  | some p => p.w
  | none => false

/-- The byte at `a` is mapped executable. -/
def MemMap.executable (m : MemMap) (a : Word) : Bool :=
  match MemMap.perms m a with
  | some p => p.x
  | none => false

/-- The launch premise "no byte is both `W` and `X`" (R58, R68), asked of every region (log 12). -/
def MemMap.exclusive (m : MemMap) : Bool := m.all fun g => !(g.perms.w && g.perms.x)

/-- All of the `n` bytes from `a` on satisfy `ok`. -/
def allBytes (ok : Word → Bool) (a : Word) : Nat → Bool
  | 0 => true
  | n + 1 => ok a && allBytes ok (a + 1) n

/-- `a mod n = 0`: the address is a multiple of the access size (R54). -/
def aligned (n : Nat) (a : Word) : Bool := a.toNat % n == 0

/-! ## The three memory primitives (R52, R53, R63) -/

/-- The checks of a load of `n` bytes, in order: alignment, then permission (R52, R225). -/
def loadCheck (n : Nat) (a : Word) (s : State) : Option Cause :=
  if aligned n a = false then some .loadAddressMisaligned
  else if allBytes (MemMap.readable s.map) a n = false then some .loadAccessFault
  else none

/-- The checks of a store of `n` bytes, in order: alignment, then permission (R53, R225). -/
def storeCheck (n : Nat) (a : Word) (s : State) : Option Cause :=
  if aligned n a = false then some .storeAddressMisaligned
  else if allBytes (MemMap.writable s.map) a n = false then some .storeAccessFault
  else none

/-- `MemRead(a, 4)` (R52). -/
def memRead4 (a : Word) (s : State) : Except Cause Word :=
  match loadCheck 4 a s with
  | some c => .error c
  | none => .ok (s.wordAt a)

/-- `MemRead(a, 8)` (R52). -/
def memRead8 (a : Word) (s : State) : Except Cause DWord :=
  match loadCheck 8 a s with
  | some c => .error c
  | none => .ok (s.dwordAt a)

/-- `M[a..] <- bytes`, all of them. -/
def State.storeBytes (s : State) (a : Word) (bytes : List Byte) : State :=
  { s with mem := Memory.writeBytes s.mem a bytes }

/-- `MemWrite(a, 4, v)` (R53). -/
def memWrite4 (a : Word) (v : Word) (s : State) : Except Cause State :=
  match storeCheck 4 a s with
  | some c => .error c
  | none => .ok (s.storeBytes a (bytesOfWord v))

/-- `MemWrite(a, 8, v)` (R53). -/
def memWrite8 (a : Word) (v : DWord) (s : State) : Except Cause State :=
  match storeCheck 8 a s with
  | some c => .error c
  | none => .ok (s.storeBytes a (bytesOfDWord v))

/-- What a fetch answers. -/
inductive Fetched where
  /-- The parcel at `pc`. -/
  | parcel (w : Parcel)
  /-- Instruction access fault (R63). -/
  | accessFault
  /-- `pc` is odd: not a state of this machine (R260; log 9). -/
  | oddPc
deriving DecidableEq, Repr

/-- `MemFetch(pc)` (R63): "exactly 16 bits are fetched per step". -/
def memFetch (s : State) : Fetched :=
  if aligned 2 s.pc = false then .oddPc
  else if allBytes (MemMap.executable s.map) s.pc 2 = false then .accessFault
  else .parcel (s.parcelAt s.pc)

/-! ## How an instruction ends -/

/-- `x[rd] <- v; pc <- pc + 2`. -/
def finishX (rd : Reg) (v : Word) (s : State) : Result := .next (s.writeX rd v).advance

/-- `v <- MemRead(a, 4); x[rd] <- v; pc <- pc + 2` (R132, R192). -/
def loadX (rd : Reg) (a : Word) (s : State) : Result :=
  match memRead4 a s with
  | .error c => raise c a s
  | .ok v => finishX rd v s

/-- `MemWrite(a, 4, v); pc <- pc + 2` (R136, R201). -/
def store4 (a : Word) (v : Word) (s : State) : Result :=
  match memWrite4 a v s with
  | .error c => raise c a s
  | .ok t => .next t.advance

/-- `MemWrite(a, 8, v); pc <- pc + 2` (R135, R200). -/
def store8 (a : Word) (v : DWord) (s : State) : Result :=
  match memWrite8 a v s with
  | .error c => raise c a s
  | .ok t => .next t.advance

/-- `v <- MemRead(a, 4); f[rd] <- box(v); pc <- pc + 2` (R133, R193); the parcel `w` is illegal without `HAS_F` (R100). -/
def loadF4 (w : Parcel) (rd : Reg) (a : Word) (s : State) : Result :=
  if s.hasF = false then raiseIllegal w s
  else
    match memRead4 a s with
    | .error c => raise c a s
    | .ok v => .next (s.writeF32 rd v).advance

/-- `v <- MemRead(a, 8); f[rd] <- v; pc <- pc + 2` (R131, R191); the parcel `w` is illegal without `HAS_D` (R100). -/
def loadF8 (w : Parcel) (rd : Reg) (a : Word) (s : State) : Result :=
  if s.hasD = false then raiseIllegal w s
  else
    match memRead8 a s with
    | .error c => raise c a s
    | .ok v => .next (s.writeF64 rd v).advance

/-- `MemWrite(a, 4, f[rs2][31:0]); pc <- pc + 2` (R137, R202); the parcel `w` is illegal without `HAS_F` (R100). -/
def storeF4 (w : Parcel) (rs2 : Reg) (a : Word) (s : State) : Result :=
  match s.readF32 rs2 with
  | none => raiseIllegal w s
  | some v => store4 a v s

/-- `MemWrite(a, 8, f[rs2]); pc <- pc + 2` (R135, R200); the parcel `w` is illegal without `HAS_D` (R100). -/
def storeF8 (w : Parcel) (rs2 : Reg) (a : Word) (s : State) : Result :=
  match s.readF64 rs2 with
  | none => raiseIllegal w s
  | some v => store8 a v s

/-- `t <- pc + 2; pc <- target; x[1] <- t` (R152, R198): the target is computed before `x[1]` is written. -/
def jumpAndLink (target : Word) (s : State) : Result := .next ((s.writeX 1#5 s.nextPc).setPc target)

/-- `if taken then pc <- pc + offset else pc <- pc + 2` (R167, R168). -/
def branch (taken : Bool) (offset : Word) (s : State) : Result :=
  .next (if taken then s.setPc (s.pc + offset) else s.advance)

/-! ## Loading a parcel from outside -/

/-- The map with the byte at `a` made program text: executable, not writable, as readable as before (R68). -/
def MemMap.makeText (m : MemMap) (a : Word) : MemMap := ⟨a.toNat, 1, ⟨MemMap.readable m a, false, true⟩⟩ :: m

/-- The environment's load of one parcel's bytes at `pc` (R42, R262): the bytes are stored and mapped as text. -/
def State.loadText (s : State) (bytes : List Byte) : State :=
  { s with
    mem := Memory.writeBytes s.mem s.pc bytes
    map := MemMap.makeText (MemMap.makeText s.map s.pc) (s.pc + 1) }

end Sys2Proof.Machine
end

