-- ==== Sys2Proof/Machine/Operands.lean ====
section
/-! DEFINITION. The operand forms: which register a field names, how an immediate is extended, and the effective
addresses and jump targets computed from them. -/

namespace Sys2Proof.Machine

/-- A primed field names register number `8 + field` (R13). -/
def regP (r : RegP) : Reg := 8#5 + r.setWidth 5

/-- The link register `x1` (R21). -/
def linkReg : Reg := 1#5

/-- The stack pointer `x2` (R21). -/
def spReg : Reg := 2#5

/-- `zext_32(v)` (R9). -/
def zext {n : Nat} (v : BitVec n) : Word := v.setWidth 32

/-- `sext_32(v)` (R9). -/
def sext {n : Nat} (v : BitVec n) : Word := v.signExtend 32

/-- The effective address of a register-based form: `x[8+rs1'] + zext_32(uimm)` modulo 2^32 (R50). -/
def regAddr {n : Nat} (rs1 : RegP) (uimm : BitVec n) (s : State) : Word := s.readX (regP rs1) + zext uimm

/-- The effective address of a stack-pointer-based form: `x[2] + zext_32(uimm)` modulo 2^32 (R50). -/
def spAddr {n : Nat} (uimm : BitVec n) (s : State) : Word := s.readX spReg + zext uimm

/-- The target of a pc-relative transfer: `pc + sext_32(offset)`, from the address of the transfer itself (R169). -/
def relTarget {n : Nat} (offset : BitVec n) (s : State) : Word := s.pc + sext offset

/-- The target of a register jump: `x[rs1] & 0xFFFFFFFE`, bit 0 cleared (R195, R198). -/
def regTarget (rs1 : Reg) (s : State) : Word := s.readX rs1 &&& 0xFFFFFFFE#32

end Sys2Proof.Machine
end

