-- ==== Sys2Proof/Machine/Control.lean ====
section
/-! DEFINITION. Jumps, branches and the breakpoint (`41_quadrant1.md` R152, R166 to R169; `42_quadrant2.md` R195, R197,
R198). A transfer itself raises nothing (R169); `c.ebreak` always raises (R197). -/

namespace Sys2Proof.Machine

/-- R152: `t <- pc + 2; pc <- pc + offset; x[1] <- t`. -/
def execCJal (offset : BitVec 12) (s : State) : Result := jumpAndLink (relTarget offset s) s

/-- R166: `pc <- pc + offset`. -/
def execCJ (offset : BitVec 12) (s : State) : Result := .next (s.setPc (relTarget offset s))

/-- R167: `if x[8+rs1'] == 0 then pc <- pc + offset else pc <- pc + 2`. -/
def execCBeqz (rs1 : RegP) (offset : BitVec 9) (s : State) : Result :=
  branch (isZero (s.readX (regP rs1))) (sext offset) s

/-- R168: `if x[8+rs1'] != 0 then pc <- pc + offset else pc <- pc + 2`. -/
def execCBnez (rs1 : RegP) (offset : BitVec 9) (s : State) : Result :=
  branch (!isZero (s.readX (regP rs1))) (sext offset) s

/-- R195: `pc <- x[rs1] & 0xFFFFFFFE`. -/
def execCJr (rs1 : Reg) (s : State) : Result := .next (s.setPc (regTarget rs1 s))

/-- R198: `t <- pc + 2; pc <- x[rs1] & 0xFFFFFFFE; x[1] <- t`. -/
def execCJalr (rs1 : Reg) (s : State) : Result := jumpAndLink (regTarget rs1 s) s

/-- R197: `raise Breakpoint(pc)`. -/
def execCEbreak (s : State) : Result := raise .breakpoint s.pc s

end Sys2Proof.Machine
end

