-- ==== Sys2Proof/Machine/FloatLoadStore.lean ====
section
/-! DEFINITION. The eight floating-point loads and stores: they move bits between memory and `f` registers and touch no
floating-point status (`10_state.md` R33, R34). Without the register file their parcel is illegal (`30_encoding.md` R100);
the parcel is the instruction's own encoding, which `tval` records (R222). -/

namespace Sys2Proof.Machine

/-- R131: `f[8+rd'] <- MemRead(x[8+rs1'] + zext_32(uimm), 8)`. -/
def execCFld (rd rs1 : RegP) (uimm : BitVec 8) (s : State) : Result :=
  loadF8 (encode (.cFld rd rs1 uimm)) (regP rd) (regAddr rs1 uimm s) s

/-- R133: `f[8+rd'] <- box(MemRead(x[8+rs1'] + zext_32(uimm), 4))`. -/
def execCFlw (rd rs1 : RegP) (uimm : BitVec 7) (s : State) : Result :=
  loadF4 (encode (.cFlw rd rs1 uimm)) (regP rd) (regAddr rs1 uimm s) s

/-- R135: `MemWrite(x[8+rs1'] + zext_32(uimm), 8, f[8+rs2'])`. -/
def execCFsd (rs2 rs1 : RegP) (uimm : BitVec 8) (s : State) : Result :=
  storeF8 (encode (.cFsd rs2 rs1 uimm)) (regP rs2) (regAddr rs1 uimm s) s

/-- R137: `MemWrite(x[8+rs1'] + zext_32(uimm), 4, f[8+rs2'][31:0])`. -/
def execCFsw (rs2 rs1 : RegP) (uimm : BitVec 7) (s : State) : Result :=
  storeF4 (encode (.cFsw rs2 rs1 uimm)) (regP rs2) (regAddr rs1 uimm s) s

/-- R191: `f[rd] <- MemRead(x[2] + zext_32(uimm), 8)`. -/
def execCFldsp (rd : Reg) (uimm : BitVec 9) (s : State) : Result :=
  loadF8 (encode (.cFldsp rd uimm)) rd (spAddr uimm s) s

/-- R193: `f[rd] <- box(MemRead(x[2] + zext_32(uimm), 4))`. -/
def execCFlwsp (rd : Reg) (uimm : BitVec 8) (s : State) : Result :=
  loadF4 (encode (.cFlwsp rd uimm)) rd (spAddr uimm s) s

/-- R200: `MemWrite(x[2] + zext_32(uimm), 8, f[rs2])`. -/
def execCFsdsp (rs2 : Reg) (uimm : BitVec 9) (s : State) : Result :=
  storeF8 (encode (.cFsdsp rs2 uimm)) rs2 (spAddr uimm s) s

/-- R202: `MemWrite(x[2] + zext_32(uimm), 4, f[rs2][31:0])`. -/
def execCFswsp (rs2 : Reg) (uimm : BitVec 8) (s : State) : Result :=
  storeF4 (encode (.cFswsp rs2 uimm)) rs2 (spAddr uimm s) s

end Sys2Proof.Machine
end

