-- ==== Sys2Proof/Machine/Hints.lean ====
section
/-! DEFINITION. The HINT rows: "HINT encodings execute as no-operations: `pc <- pc + 2` and nothing else changes; they
raise nothing" (`30_encoding.md` R97). -/

namespace Sys2Proof.Machine

/-- R97: `c.nop` with a non-zero immediate. -/
def execHintCNopImmNonzero (_imm : BitVec 6) (s : State) : Result := .next s.advance

/-- R97: `c.addi` with `nzimm = 0`. -/
def execHintCAddiImm0 (_rd : Reg) (s : State) : Result := .next s.advance

/-- R97: `c.li` with `rd = 0`. -/
def execHintCLiRd0 (_imm : BitVec 6) (s : State) : Result := .next s.advance

/-- R97: `c.lui` with `rd = 0`, `imm != 0`. -/
def execHintCLuiRd0 (_imm : BitVec 18) (s : State) : Result := .next s.advance

/-- R97: `c.slli` with `rd = 0`. -/
def execHintCSlliRd0 (_shamt : BitVec 5) (s : State) : Result := .next s.advance

/-- R97: `c.mv` with `rd = 0`. -/
def execHintCMvRd0 (_rs2 : Reg) (s : State) : Result := .next s.advance

/-- R97: `c.add` with `rd = 0`. -/
def execHintCAddRd0 (_rs2 : Reg) (s : State) : Result := .next s.advance

end Sys2Proof.Machine
end

