-- ==== Sys2Proof/Machine/Integer.lean ====
section
/-! DEFINITION. The integer instructions that stay in line: constants, immediate and register arithmetic, logic, shifts
(`40_quadrant0.md` R130, `41_quadrant1.md` R150 to R163, `42_quadrant2.md` R190, R196, R199). None raises (R221). -/

namespace Sys2Proof.Machine

/-- R130: `x[8+rd'] <- x[2] + zext_32(nzuimm)`. -/
def execCAddi4spn (rd : RegP) (nzuimm : BitVec 10) (s : State) : Result :=
  finishX (regP rd) (s.readX spReg + zext nzuimm) s

/-- R150: "does not change any user-visible state, except for advancing the pc". -/
def execCNop (s : State) : Result := .next s.advance

/-- R151: `x[rd] <- x[rd] + nzimm`. -/
def execCAddi (rd : Reg) (nzimm : BitVec 6) (s : State) : Result := finishX rd (s.readX rd + sext nzimm) s

/-- R154: `x[rd] <- imm`. -/
def execCLi (rd : Reg) (imm : BitVec 6) (s : State) : Result := finishX rd (sext imm) s

/-- R155: `x[2] <- x[2] + imm`. -/
def execCAddi16sp (imm : BitVec 10) (s : State) : Result := finishX spReg (s.readX spReg + sext imm) s

/-- R156: `x[rd] <- imm`, the 18-bit value sign-extended (`90_conflicts.md` C14). -/
def execCLui (rd : Reg) (imm : BitVec 18) (s : State) : Result := finishX rd (sext imm) s

/-- R157: `x[8+rd'] <- x[8+rd'] >>u shamt`. -/
def execCSrli (rd : RegP) (shamt : BitVec 5) (s : State) : Result :=
  finishX (regP rd) (s.readX (regP rd) >>> shamt.toNat) s

/-- R158: `x[8+rd'] <- x[8+rd'] >>s shamt`. -/
def execCSrai (rd : RegP) (shamt : BitVec 5) (s : State) : Result :=
  finishX (regP rd) ((s.readX (regP rd)).sshiftRight shamt.toNat) s

/-- R159: `x[8+rd'] <- x[8+rd'] & imm`. -/
def execCAndi (rd : RegP) (imm : BitVec 6) (s : State) : Result :=
  finishX (regP rd) (s.readX (regP rd) &&& sext imm) s

/-- R160: `x[8+rd'] <- x[8+rd'] - x[8+rs2']`. -/
def execCSub (rd rs2 : RegP) (s : State) : Result :=
  finishX (regP rd) (s.readX (regP rd) - s.readX (regP rs2)) s

/-- R161: `x[8+rd'] <- x[8+rd'] ^ x[8+rs2']`. -/
def execCXor (rd rs2 : RegP) (s : State) : Result :=
  finishX (regP rd) (s.readX (regP rd) ^^^ s.readX (regP rs2)) s

/-- R162: `x[8+rd'] <- x[8+rd'] | x[8+rs2']`. -/
def execCOr (rd rs2 : RegP) (s : State) : Result :=
  finishX (regP rd) (s.readX (regP rd) ||| s.readX (regP rs2)) s

/-- R163: `x[8+rd'] <- x[8+rd'] & x[8+rs2']`. -/
def execCAnd (rd rs2 : RegP) (s : State) : Result :=
  finishX (regP rd) (s.readX (regP rd) &&& s.readX (regP rs2)) s

/-- R190: `x[rd] <- x[rd] << shamt`. -/
def execCSlli (rd : Reg) (shamt : BitVec 5) (s : State) : Result := finishX rd (s.readX rd <<< shamt.toNat) s

/-- R196: `x[rd] <- x[rs2]`. -/
def execCMv (rd rs2 : Reg) (s : State) : Result := finishX rd (s.readX rs2) s

/-- R199: `x[rd] <- x[rd] + x[rs2]`. -/
def execCAdd (rd rs2 : Reg) (s : State) : Result := finishX rd (s.readX rd + s.readX rs2) s

end Sys2Proof.Machine
end

