-- ==== Sys2Proof/Machine/LoadStore.lean ====
section
/-! DEFINITION. The integer loads and stores (`40_quadrant0.md` R132, R136; `42_quadrant2.md` R192, R201). -/

namespace Sys2Proof.Machine

/-- R132: `a <- x[8+rs1'] + zext_32(uimm); x[8+rd'] <- MemRead(a, 4)`. -/
def execCLw (rd rs1 : RegP) (uimm : BitVec 7) (s : State) : Result := loadX (regP rd) (regAddr rs1 uimm s) s

/-- R136: `a <- x[8+rs1'] + zext_32(uimm); MemWrite(a, 4, x[8+rs2'])`. -/
def execCSw (rs2 rs1 : RegP) (uimm : BitVec 7) (s : State) : Result :=
  store4 (regAddr rs1 uimm s) (s.readX (regP rs2)) s

/-- R192: `a <- x[2] + zext_32(uimm); x[rd] <- MemRead(a, 4)`. -/
def execCLwsp (rd : Reg) (uimm : BitVec 8) (s : State) : Result := loadX rd (spAddr uimm s) s

/-- R201: `a <- x[2] + zext_32(uimm); MemWrite(a, 4, x[rs2])`; `rs2 = 0` stores 0. -/
def execCSwsp (rs2 : Reg) (uimm : BitVec 8) (s : State) : Result := store4 (spAddr uimm s) (s.readX rs2) s

end Sys2Proof.Machine
end

