-- ==== Sys2Proof/Machine/Reserved.lean ====
section
/-! DEFINITION. The reserved rows, which "raise Illegal instruction" with the parcel as `tval` (`30_encoding.md` R96, R98,
R99; `40_quadrant0.md` R139; `41_quadrant1.md` R164, R165, R171), and quadrant 3, which the model refuses (R81). -/

namespace Sys2Proof.Machine

/-- R96, R99: `c.addi4spn` with `nzuimm = 0`, the all-zero parcel among them. -/
def execIllegalCAddi4spnNzuimm0 (rd : RegP) (s : State) : Result := raiseIllegal (encode (.illegalCAddi4spnNzuimm0 rd)) s

/-- R139: quadrant 0, funct3 100. -/
def execIllegalQ0Funct3x100 (rest : BitVec 11) (s : State) : Result :=
  raiseIllegal (encode (.illegalQ0Funct3x100 rest)) s

/-- R96: `c.addi16sp` with `imm = 0`. -/
def execIllegalCAddi16spImm0 (s : State) : Result := raiseIllegal (encode .illegalCAddi16spImm0) s

/-- R96: `c.lui` with `imm = 0`. -/
def execIllegalCLuiImm0 (rd : Reg) (s : State) : Result := raiseIllegal (encode (.illegalCLuiImm0 rd)) s

/-- R98: `c.srli` or `c.srai` with `shamt[5] = 1`. -/
def execIllegalCSrliCSraiShamt5 (arith : BitVec 1) (rd : RegP) (shamtLow : BitVec 5) (s : State) : Result :=
  raiseIllegal (encode (.illegalCSrliCSraiShamt5 arith rd shamtLow)) s

/-- R164, R96: the `c.subw` pattern. -/
def execIllegalCSubw (rd rs2 : RegP) (s : State) : Result := raiseIllegal (encode (.illegalCSubw rd rs2)) s

/-- R165, R96: the `c.addw` pattern. -/
def execIllegalCAddw (rd rs2 : RegP) (s : State) : Result := raiseIllegal (encode (.illegalCAddw rd rs2)) s

/-- R171: quadrant 1, `100 1 11 xxx 1x xxx 01`. -/
def execIllegalQ1Reserved (hi : BitVec 3) (bit5 : BitVec 1) (lo : BitVec 3) (s : State) : Result :=
  raiseIllegal (encode (.illegalQ1Reserved hi bit5 lo)) s

/-- R98: `c.slli` with `shamt[5] = 1`. -/
def execIllegalCSlliShamt5 (rd : Reg) (shamtLow : BitVec 5) (s : State) : Result :=
  raiseIllegal (encode (.illegalCSlliShamt5 rd shamtLow)) s

/-- R96: `c.lwsp` with `rd = 0`; "no memory access is made" (R192). -/
def execIllegalCLwspRd0 (uimm : BitVec 8) (s : State) : Result := raiseIllegal (encode (.illegalCLwspRd0 uimm)) s

/-- R96: `c.jr` with `rs1 = 0`. -/
def execIllegalCJrRs1x0 (s : State) : Result := raiseIllegal (encode .illegalCJrRs1x0) s

/-- R81: "on fetching a parcel with `inst[1:0] = 11` the model refuses". -/
def execRefusedQ3 (rest : BitVec 14) (_s : State) : Result :=
  .refused (.thirtyTwoBitInstruction (encode (.refusedQ3 rest)))

end Sys2Proof.Machine
end

