-- ==== Sys2Proof/Machine/Rv64Only.lean ====
section
/-! DEFINITION. The seven entries that only RV64C has (`30_encoding.md` R94). They are no instructions of this machine and
the decoder never answers one; a term of one stands for its bits, and its meaning is what those bits do on RV32C: the
fields are read again by the rule of the RV32C entry with the same pattern (log 10). -/

namespace Sys2Proof.Machine

/-- R134: "on RV32C those bits are `c.flw` when `HAS_F`, else illegal, and the immediate is assembled by R87, not R88". -/
def execCLd (rd rs1 : RegP) (uimm : BitVec 8) (s : State) : Result :=
  loadF4 (encode (.cLd rd rs1 uimm)) (regP rd) (regAddr rs1 (uimmCL4 (encode (.cLd rd rs1 uimm))) s) s

/-- R138: "on RV32C those bits are `c.fsw` when `HAS_F`, else illegal, and the immediate is assembled by R87, not R88". -/
def execCSd (rs2 rs1 : RegP) (uimm : BitVec 8) (s : State) : Result :=
  storeF4 (encode (.cSd rs2 rs1 uimm)) (regP rs2) (regAddr rs1 (uimmCL4 (encode (.cSd rs2 rs1 uimm))) s) s

/-- R153: "on RV32C those bits are `c.jal` with the eleven bits 12:2 read as a jump offset". -/
def execCAddiw (rd : Reg) (imm : BitVec 6) (s : State) : Result :=
  jumpAndLink (relTarget (offsetCJ (encode (.cAddiw rd imm))) s) s

/-- R164: "all 64 values are reserved and raise Illegal instruction". -/
def execCSubw (rd rs2 : RegP) (s : State) : Result := raiseIllegal (encode (.cSubw rd rs2)) s

/-- R165: "all 64 values are reserved and raise Illegal instruction". -/
def execCAddw (rd rs2 : RegP) (s : State) : Result := raiseIllegal (encode (.cAddw rd rs2)) s

/-- R194: "those bits are `c.flwsp` when `HAS_F`, else illegal, and the immediate is assembled as for a 4-byte access". -/
def execCLdsp (rd : Reg) (uimm : BitVec 9) (s : State) : Result :=
  loadF4 (encode (.cLdsp rd uimm)) rd (spAddr (uimmCI4 (encode (.cLdsp rd uimm))) s) s

/-- R203: "those bits are `c.fswsp` when `HAS_F`, else illegal, and the immediate is assembled as for a 4-byte access". -/
def execCSdsp (rs2 : Reg) (uimm : BitVec 9) (s : State) : Result :=
  storeF4 (encode (.cSdsp rs2 uimm)) rs2 (spAddr (uimmCSS4 (encode (.cSdsp rs2 uimm))) s) s

end Sys2Proof.Machine
end

