-- ==== Sys2Proof/Machine/Dispatch.lean ====
section
/-! DEFINITION. The meaning of each row of the opcode table: one arm per constructor, each one call. -/

namespace Sys2Proof.Machine

def exec (i : Instr) (s : State) : Host.Outcome State Fault Refusal :=
  match i with
  | .illegalCAddi4spnNzuimm0 rd => Sys2Proof.Machine.execIllegalCAddi4spnNzuimm0 rd s
  | .cAddi4spn rd nzuimm => Sys2Proof.Machine.execCAddi4spn rd nzuimm s
  | .cFld rd rs1 uimm => Sys2Proof.Machine.execCFld rd rs1 uimm s
  | .cLw rd rs1 uimm => Sys2Proof.Machine.execCLw rd rs1 uimm s
  | .cFlw rd rs1 uimm => Sys2Proof.Machine.execCFlw rd rs1 uimm s
  | .illegalQ0Funct3x100 rest => Sys2Proof.Machine.execIllegalQ0Funct3x100 rest s
  | .cFsd rs2 rs1 uimm => Sys2Proof.Machine.execCFsd rs2 rs1 uimm s
  | .cSw rs2 rs1 uimm => Sys2Proof.Machine.execCSw rs2 rs1 uimm s
  | .cFsw rs2 rs1 uimm => Sys2Proof.Machine.execCFsw rs2 rs1 uimm s
  | .cNop => Sys2Proof.Machine.execCNop s
  | .hintCNopImmNonzero imm => Sys2Proof.Machine.execHintCNopImmNonzero imm s
  | .hintCAddiImm0 rd => Sys2Proof.Machine.execHintCAddiImm0 rd s
  | .cAddi rd nzimm => Sys2Proof.Machine.execCAddi rd nzimm s
  | .cJal offset => Sys2Proof.Machine.execCJal offset s
  | .hintCLiRd0 imm => Sys2Proof.Machine.execHintCLiRd0 imm s
  | .cLi rd imm => Sys2Proof.Machine.execCLi rd imm s
  | .illegalCAddi16spImm0 => Sys2Proof.Machine.execIllegalCAddi16spImm0 s
  | .cAddi16sp imm => Sys2Proof.Machine.execCAddi16sp imm s
  | .illegalCLuiImm0 rd => Sys2Proof.Machine.execIllegalCLuiImm0 rd s
  | .hintCLuiRd0 imm => Sys2Proof.Machine.execHintCLuiRd0 imm s
  | .cLui rd imm => Sys2Proof.Machine.execCLui rd imm s
  | .illegalCSrliCSraiShamt5 arith rd shamtLow => Sys2Proof.Machine.execIllegalCSrliCSraiShamt5 arith rd shamtLow s
  | .cSrli rd shamt => Sys2Proof.Machine.execCSrli rd shamt s
  | .cSrai rd shamt => Sys2Proof.Machine.execCSrai rd shamt s
  | .cAndi rd imm => Sys2Proof.Machine.execCAndi rd imm s
  | .cSub rd rs2 => Sys2Proof.Machine.execCSub rd rs2 s
  | .cXor rd rs2 => Sys2Proof.Machine.execCXor rd rs2 s
  | .cOr rd rs2 => Sys2Proof.Machine.execCOr rd rs2 s
  | .cAnd rd rs2 => Sys2Proof.Machine.execCAnd rd rs2 s
  | .illegalCSubw rd rs2 => Sys2Proof.Machine.execIllegalCSubw rd rs2 s
  | .illegalCAddw rd rs2 => Sys2Proof.Machine.execIllegalCAddw rd rs2 s
  | .illegalQ1Reserved hi bit5 lo => Sys2Proof.Machine.execIllegalQ1Reserved hi bit5 lo s
  | .cJ offset => Sys2Proof.Machine.execCJ offset s
  | .cBeqz rs1 offset => Sys2Proof.Machine.execCBeqz rs1 offset s
  | .cBnez rs1 offset => Sys2Proof.Machine.execCBnez rs1 offset s
  | .illegalCSlliShamt5 rd shamtLow => Sys2Proof.Machine.execIllegalCSlliShamt5 rd shamtLow s
  | .hintCSlliRd0 shamt => Sys2Proof.Machine.execHintCSlliRd0 shamt s
  | .cSlli rd shamt => Sys2Proof.Machine.execCSlli rd shamt s
  | .cFldsp rd uimm => Sys2Proof.Machine.execCFldsp rd uimm s
  | .illegalCLwspRd0 uimm => Sys2Proof.Machine.execIllegalCLwspRd0 uimm s
  | .cLwsp rd uimm => Sys2Proof.Machine.execCLwsp rd uimm s
  | .cFlwsp rd uimm => Sys2Proof.Machine.execCFlwsp rd uimm s
  | .illegalCJrRs1x0 => Sys2Proof.Machine.execIllegalCJrRs1x0 s
  | .cJr rs1 => Sys2Proof.Machine.execCJr rs1 s
  | .hintCMvRd0 rs2 => Sys2Proof.Machine.execHintCMvRd0 rs2 s
  | .cMv rd rs2 => Sys2Proof.Machine.execCMv rd rs2 s
  | .cEbreak => Sys2Proof.Machine.execCEbreak s
  | .cJalr rs1 => Sys2Proof.Machine.execCJalr rs1 s
  | .hintCAddRd0 rs2 => Sys2Proof.Machine.execHintCAddRd0 rs2 s
  | .cAdd rd rs2 => Sys2Proof.Machine.execCAdd rd rs2 s
  | .cFsdsp rs2 uimm => Sys2Proof.Machine.execCFsdsp rs2 uimm s
  | .cSwsp rs2 uimm => Sys2Proof.Machine.execCSwsp rs2 uimm s
  | .cFswsp rs2 uimm => Sys2Proof.Machine.execCFswsp rs2 uimm s
  | .refusedQ3 rest => Sys2Proof.Machine.execRefusedQ3 rest s
  | .cLd rd rs1 uimm => Sys2Proof.Machine.execCLd rd rs1 uimm s
  | .cSd rs2 rs1 uimm => Sys2Proof.Machine.execCSd rs2 rs1 uimm s
  | .cAddiw rd imm => Sys2Proof.Machine.execCAddiw rd imm s
  | .cSubw rd rs2 => Sys2Proof.Machine.execCSubw rd rs2 s
  | .cAddw rd rs2 => Sys2Proof.Machine.execCAddw rd rs2 s
  | .cLdsp rd uimm => Sys2Proof.Machine.execCLdsp rd uimm s
  | .cSdsp rs2 uimm => Sys2Proof.Machine.execCSdsp rs2 uimm s

end Sys2Proof.Machine
end

