-- ==== Sys2Proof/Machine/Step.lean ====
section
/-! DEFINITION. One step of the machine (`10_state.md` R28): fetch, decode, execute. A step completes with all its writes
done or raises with none done (R223). -/

namespace Sys2Proof.Machine

/-- R28: `inst <- MemFetch(pc)`, which may raise Instruction access fault with `tval` = `pc` (R63, R222); decode; execute. -/
def step (s : State) : Host.Outcome State Fault Refusal :=
  match memFetch s with
  | .parcel w => exec (decodeParcel w) s
  | .accessFault => raise .instructionAccessFault s.pc s
  | .oddPc => .refused (.oddPc s.pc)

/-- `s` with the instruction whose bits are `w` stored and mapped as text at `pc`: the environment's load of a program
(R42, R262; log 6), so that the next step runs it. -/
def State.withFetchWord (s : State) (nbits w : Nat) : State := s.loadText (tableBytes nbits w)

end Sys2Proof.Machine
end

