-- ==== Sys2Proof/Machine/Launch.lean ====
section
/-! DEFINITION. Reset and launch (`70_reset_and_hazards.md` R260, R261): the state an environment starts the machine in, as
a function of the arguments the spec leaves OPEN (`92_eei_decisions.md` part 2). `State.reset` is one such launch. -/

namespace Sys2Proof.Machine

/-- The launch arguments (R7, R38). -/
structure LaunchArgs where
  /-- `HAS_F`, `HAS_D` and `INIT_F` (R6, R40). -/
  f : FpRegs
  /-- `RESET_PC` (R260). -/
  resetPc : Word
  /-- `INIT_X`: "31 values", those of `x[1]` to `x[31]` (R40). -/
  initX : Vector Word 31
  /-- `MemMap` (R58). -/
  map : MemMap
  /-- The launch image (R42), in loading order: a later pair for an address wins. -/
  image : List (Word × Byte)
deriving DecidableEq, Repr

/-- Why a launch is rejected. -/
inductive LaunchRefusal where
  /-- "A `RESET_PC` with bit 0 set is not a state of this machine; the model rejects it at launch" (R260). -/
  | oddResetPc
  /-- The premise "no byte is both `W` and `X`" fails (R58, R68); "the model forbids the situation" (D22). -/
  | writableText
deriving DecidableEq, Repr

/-- Memory after loading an image. -/
def imageMemory (image : List (Word × Byte)) : Memory :=
  image.foldl (fun m p => Memory.write m p.1.toNat p.2) []

/-- The state after reset (R261), or why there is none. -/
def launch (args : LaunchArgs) : Except LaunchRefusal State :=
  if aligned 2 args.resetPc = false then .error .oddResetPc
  else if MemMap.exclusive args.map = false then .error .writableText
  else .ok
    { x := #v[(0 : Word)] ++ args.initX
      pc := args.resetPc
      f := args.f
      mem := imageMemory args.image
      map := args.map }

/-- The launch arguments of `State.reset`: the values of logs 1 to 4 and no image (log 5). -/
def resetArgs : LaunchArgs where
  f := .double (Vector.replicate 32 Config.resetF)
  resetPc := Config.resetPc
  initX := Vector.replicate 31 Config.resetX
  map := Config.resetMap
  image := []

end Sys2Proof.Machine
end

