-- ==== Sys2Proof/Safety.lean ====
section
/-! DEFINITION. What counts as a state of this machine, how a run ends (`70_reset_and_hazards.md` R265), the terms in which
the statements say what an instruction changes and what it leaves unchanged, and the spec's tables of what each instruction
reads, writes, raises and jumps to (`10_state.md` R23, R26, R33; `20_memory.md` R56; `60_exceptions.md` R221) as data. -/

namespace Sys2Proof.Machine

/-- A state of this machine: `pc` is even (R27), the stored element of `x[0]` is 0 (R22), memory is in its canonical form,
and no byte is both writable and executable (R68). -/
abbrev State.Inv (s : State) : Prop :=
  aligned 2 s.pc = true ∧ s.x[0] = 0#32 ∧ Memory.wf s.mem = true ∧ MemMap.exclusive s.map = true

/-- How a bounded run ends (R265). The addresses at which the program, or the environment that catches its return, placed
a `c.ebreak` as its end are an argument `ends` of the run: nothing in State holds them (DESIGN CHOICE, safe, log 14). -/
inductive RunOutcome where
  /-- (1): "a step raises Breakpoint at the `c.ebreak` the program placed as its end"; the result is the state at that
  point. -/
  | finished (record : Trap) (state : State)
  /-- (2): "a step raises any other exception", a Breakpoint at another `c.ebreak` among them: "any other trap is a failed
  run" (D27; DEDUCED, unsafe, log 15). -/
  | faulted (record : Trap) (state : State)
  /-- (3): the model gives the run no meaning from that point. -/
  | refused (reason : Refusal)
  /-- (4): "still running after n steps", which is not a result. -/
  | stillRunning (state : State)
deriving DecidableEq, Repr

/-- The record of a finished program: cause Breakpoint, and `epc` the address of a `c.ebreak` placed as the end (R230). -/
abbrev Trap.EndsAt (r : Trap) (ends : List Word) : Prop := r.cause = .breakpoint ∧ r.epc ∈ ends

/-- The outcome of a run of at most `n` steps of a program that is to end at one of `ends` (R265, R230). -/
def runOutcome (ends : List Word) (n : Nat) (s : State) : RunOutcome :=
  match Host.Core.run Sys2Proof.core n s with
  | .next t => .stillRunning t
  | .fault (.trap r t) => if r.EndsAt ends then .finished r t else .faulted r t
  | .refused r => .refused r

/-- A bounded run is safe when it has met no refusal and no exception but Breakpoint at one of its ends (R230, D27: "any
other trap is a failed run"). -/
def SafeRun (ends : List Word) (n : Nat) (s : State) : Prop :=
  (∃ t, runOutcome ends n s = .stillRunning t) ∨ ∃ r t, runOutcome ends n s = .finished r t

/-! ## Frames -/

/-- Register number `8 + field` (R13). -/
def primed (r : RegP) : Reg := BitVec.ofNat 5 (8 + r.toNat)

/-- Every byte of memory reads as before. -/
def SameMemory (s t : State) : Prop := ∀ a : Word, t.byteAt a = s.byteAt a

/-- Every integer register reads as before. -/
def SameX (s t : State) : Prop := ∀ r : Reg, t.readX r = s.readX r

/-- `t` is `s` after `pc <- target` alone. -/
def OnlyPc (s t : State) (target : Word) : Prop :=
  t.pc = target ∧ SameX s t ∧ t.f = s.f ∧ SameMemory s t ∧ t.map = s.map

/-- `t` is `s` after `x[rd] <- v; pc <- target` alone; a write to `x[0]` is discarded (R22). -/
def OnlyX (s t : State) (rd : Reg) (v target : Word) : Prop :=
  t.readX rd = (if rd = 0#5 then 0#32 else v) ∧ (∀ r : Reg, r ≠ rd → t.readX r = s.readX r) ∧
    t.pc = target ∧ t.f = s.f ∧ SameMemory s t ∧ t.map = s.map

/-- `t` is `s` after a write of `f[rd]` alone and `pc <- target`; what `f[rd]` holds is said beside it. -/
def OnlyF (s t : State) (rd : Reg) (target : Word) : Prop :=
  (∀ r : Reg, r ≠ rd → t.readF32 r = s.readF32 r ∧ t.readF64 r = s.readF64 r) ∧
    t.hasF = s.hasF ∧ t.hasD = s.hasD ∧ t.pc = target ∧ SameX s t ∧ SameMemory s t ∧ t.map = s.map

/-- `t` is `s` after `pc <- target` and a store of the low `n` bytes of the number `v` from the address `a` on, least
significant byte first: the byte at distance `k` from `a` (modulo 2^32) is byte `k` of `v`, and a byte at distance `n` or
more reads as before. -/
def OnlyStored (s t : State) (a : Word) (n v : Nat) (target : Word) : Prop :=
  (∀ b : Word, (b - a).toNat < n → t.byteAt b = BitVec.ofNat 8 (v / 2 ^ (8 * (b - a).toNat))) ∧
    (∀ b : Word, n ≤ (b - a).toNat → t.byteAt b = s.byteAt b) ∧
    t.pc = target ∧ SameX s t ∧ t.f = s.f ∧ t.map = s.map

/-- The `n` bytes from `a` on as a number, least significant byte first (R51, R52). -/
def bytesValue (s : State) (a : Word) : Nat → Nat
  | 0 => 0
  | n + 1 => (s.byteAt a).toNat + 2 ^ 8 * bytesValue s (a + 1) n

/-- Each of the `n` bytes from `a` on is mapped readable. -/
abbrev Readable (s : State) (a : Word) (n : Nat) : Prop :=
  ∀ k : Nat, k < n → MemMap.readable s.map (a + BitVec.ofNat 32 k) = true

/-- Each of the `n` bytes from `a` on is mapped writable. -/
abbrev Writable (s : State) (a : Word) (n : Nat) : Prop :=
  ∀ k : Nat, k < n → MemMap.writable s.map (a + BitVec.ofNat 32 k) = true

/-- `exec` or `step` raised: the outcome is `Trap(cause, pc, tval)` with the state as it was (R223, R224). -/
def Raises (o : Result) (s : State) (c : Cause) (tval : Word) : Prop :=
  o = .fault (.trap ⟨c, s.pc, tval⟩ s)

/-- The address or sum `base + n` modulo 2^32 (R50, R10). -/
def plus (base : Word) (n : Nat) : Word := BitVec.ofNat 32 (base.toNat + n)

/-- The fetch finds both bytes of the parcel executable (R58, R63). -/
abbrev Fetchable (s : State) : Prop :=
  MemMap.executable s.map s.pc = true ∧ MemMap.executable s.map (s.pc + 1) = true

/-- The parcel raises Illegal instruction in every state, with itself as `tval` (R96, R222). -/
def IllegalParcel (w : Parcel) : Prop :=
  ∀ s : State, Raises (exec (decodeParcel w) s) s .illegalInstruction (BitVec.ofNat 32 w.toNat)

/-- The parcel only advances `pc`, in every state (R97, R150). -/
def NoOpParcel (w : Parcel) : Prop :=
  ∀ s : State, ∃ t, exec (decodeParcel w) s = .next t ∧ OnlyPc s t (plus s.pc 2)

/-- The two ways a load or store of `n` bytes at `a` stops, in their order: misaligned, then not permitted (R52, R53). -/
def LoadStops (o : Result) (s : State) (a : Word) (n : Nat) : Prop :=
  (a.toNat % n ≠ 0 → Raises o s .loadAddressMisaligned a) ∧
    (a.toNat % n = 0 → ¬ Readable s a n → Raises o s .loadAccessFault a)

/-- As `LoadStops`, for a store. -/
def StoreStops (o : Result) (s : State) (a : Word) (n : Nat) : Prop :=
  (a.toNat % n ≠ 0 → Raises o s .storeAddressMisaligned a) ∧
    (a.toNat % n = 0 → ¬ Writable s a n → Raises o s .storeAccessFault a)

/-! ## The spec's tables as data -/

/-- What kind of row an instruction is (R85, R94, R96, R97, R81). -/
inductive Role where
  /-- One of the 35 instructions but `c.ebreak`, or a HINT. -/
  | runs
  /-- `c.ebreak`. -/
  | breakpoint
  /-- A reserved row. -/
  | illegal
  /-- Quadrant 3. -/
  | refused
  /-- An RV64C-only entry: the meaning of no parcel here. -/
  | rv64Only
deriving DecidableEq, Repr

/-- Which register file an instruction needs (R6). -/
inductive FpNeed where
  | nothing
  | single
  | double
deriving DecidableEq, Repr

/-- Whether the file that is needed is there. -/
def FpNeed.met (n : FpNeed) (s : State) : Bool :=
  match n with
  | .nothing => true
  | .single => s.hasF
  | .double => s.hasD

/-- The one data access of an instruction (R56). -/
structure Access where
  /-- A store; else a load. -/
  store : Bool
  /-- The width in bytes. -/
  size : Nat
  base : Reg
  /-- The scaled byte offset. -/
  offset : Nat
deriving DecidableEq, Repr

/-- The effective address: `x[base] + zext_32(uimm)` modulo 2^32 (R50). -/
def Access.address (k : Access) (s : State) : Word := plus (s.readX k.base) k.offset

/-- Where an instruction goes next (R26). -/
inductive NextPc where
  /-- `pc + 2`. -/
  | sequential
  /-- `pc + sext_32(offset)`. -/
  | relative (offset : Int)
  /-- `pc + sext_32(offset)` when `x[rs1]` is 0, else `pc + 2`. -/
  | relativeIfZero (rs1 : Reg) (offset : Int)
  /-- `pc + sext_32(offset)` when `x[rs1]` is not 0, else `pc + 2`. -/
  | relativeIfNonzero (rs1 : Reg) (offset : Int)
  /-- `x[rs1]` with bit 0 cleared. -/
  | register (rs1 : Reg)
deriving DecidableEq, Repr

/-- `pc + n` modulo 2^32 (R26, R10). -/
def pcPlus (s : State) (n : Int) : Word := BitVec.ofInt 32 ((s.pc.toNat : Int) + n)

/-- A value with bit 0 cleared. -/
def clearBit0 (v : Word) : Word := BitVec.ofNat 32 (2 * (v.toNat / 2))

/-- The address the table of R26 names. -/
def NextPc.target (n : NextPc) (s : State) : Word :=
  match n with
  | .sequential => plus s.pc 2
  | .relative offset => pcPlus s offset
  | .relativeIfZero rs1 offset => if s.readX rs1 = 0#32 then pcPlus s offset else plus s.pc 2
  | .relativeIfNonzero rs1 offset => if s.readX rs1 = 0#32 then plus s.pc 2 else pcPlus s offset
  | .register rs1 => clearBit0 (s.readX rs1)

/-- The rows of the tables of R23, R26, R33, R56 and R221 for one instruction. -/
structure Profile where
  role : Role
  /-- The integer registers read (R23). -/
  readsX : List Reg := []
  /-- The integer register written, if any (R23). -/
  destX : Option Reg := none
  /-- The floating-point register written, if any (R33). -/
  destF : Option Reg := none
  needs : FpNeed := .nothing
  access : Option Access := none
  next : NextPc := .sequential
deriving DecidableEq, Repr

/-- The profile of each row of the opcode table. -/
def profile : Instr → Profile
  | .illegalCAddi4spnNzuimm0 _ => { role := .illegal }
  | .cAddi4spn rd _ => { role := .runs, readsX := [2#5], destX := some (primed rd) }
  | .cFld rd rs1 uimm =>
    { role := .runs, readsX := [primed rs1], destF := some (primed rd), needs := .double, access := some ⟨false, 8, primed rs1, uimm.toNat⟩ }
  | .cLw rd rs1 uimm =>
    { role := .runs, readsX := [primed rs1], destX := some (primed rd), access := some ⟨false, 4, primed rs1, uimm.toNat⟩ }
  | .cFlw rd rs1 uimm =>
    { role := .runs, readsX := [primed rs1], destF := some (primed rd), needs := .single, access := some ⟨false, 4, primed rs1, uimm.toNat⟩ }
  | .illegalQ0Funct3x100 _ => { role := .illegal }
  | .cFsd _ rs1 uimm =>
    { role := .runs, readsX := [primed rs1], needs := .double, access := some ⟨true, 8, primed rs1, uimm.toNat⟩ }
  | .cSw rs2 rs1 uimm =>
    { role := .runs, readsX := [primed rs1, primed rs2], access := some ⟨true, 4, primed rs1, uimm.toNat⟩ }
  | .cFsw _ rs1 uimm =>
    { role := .runs, readsX := [primed rs1], needs := .single, access := some ⟨true, 4, primed rs1, uimm.toNat⟩ }
  | .cNop => { role := .runs }
  | .hintCNopImmNonzero _ => { role := .runs }
  | .hintCAddiImm0 _ => { role := .runs }
  | .cAddi rd _ => { role := .runs, readsX := [rd], destX := some rd }
  | .cJal offset => { role := .runs, destX := some 1#5, next := .relative offset.toInt }
  | .hintCLiRd0 _ => { role := .runs }
  | .cLi rd _ => { role := .runs, destX := some rd }
  | .illegalCAddi16spImm0 => { role := .illegal }
  | .cAddi16sp _ => { role := .runs, readsX := [2#5], destX := some 2#5 }
  | .illegalCLuiImm0 _ => { role := .illegal }
  | .hintCLuiRd0 _ => { role := .runs }
  | .cLui rd _ => { role := .runs, destX := some rd }
  | .illegalCSrliCSraiShamt5 _ _ _ => { role := .illegal }
  | .cSrli rd _ => { role := .runs, readsX := [primed rd], destX := some (primed rd) }
  | .cSrai rd _ => { role := .runs, readsX := [primed rd], destX := some (primed rd) }
  | .cAndi rd _ => { role := .runs, readsX := [primed rd], destX := some (primed rd) }
  | .cSub rd rs2 => { role := .runs, readsX := [primed rd, primed rs2], destX := some (primed rd) }
  | .cXor rd rs2 => { role := .runs, readsX := [primed rd, primed rs2], destX := some (primed rd) }
  | .cOr rd rs2 => { role := .runs, readsX := [primed rd, primed rs2], destX := some (primed rd) }
  | .cAnd rd rs2 => { role := .runs, readsX := [primed rd, primed rs2], destX := some (primed rd) }
  | .illegalCSubw _ _ => { role := .illegal }
  | .illegalCAddw _ _ => { role := .illegal }
  | .illegalQ1Reserved _ _ _ => { role := .illegal }
  | .cJ offset => { role := .runs, next := .relative offset.toInt }
  | .cBeqz rs1 offset => { role := .runs, readsX := [primed rs1], next := .relativeIfZero (primed rs1) offset.toInt }
  | .cBnez rs1 offset => { role := .runs, readsX := [primed rs1], next := .relativeIfNonzero (primed rs1) offset.toInt }
  | .illegalCSlliShamt5 _ _ => { role := .illegal }
  | .hintCSlliRd0 _ => { role := .runs }
  | .cSlli rd _ => { role := .runs, readsX := [rd], destX := some rd }
  | .cFldsp rd uimm =>
    { role := .runs, readsX := [2#5], destF := some rd, needs := .double, access := some ⟨false, 8, 2#5, uimm.toNat⟩ }
  | .illegalCLwspRd0 _ => { role := .illegal }
  | .cLwsp rd uimm => { role := .runs, readsX := [2#5], destX := some rd, access := some ⟨false, 4, 2#5, uimm.toNat⟩ }
  | .cFlwsp rd uimm =>
    { role := .runs, readsX := [2#5], destF := some rd, needs := .single, access := some ⟨false, 4, 2#5, uimm.toNat⟩ }
  | .illegalCJrRs1x0 => { role := .illegal }
  | .cJr rs1 => { role := .runs, readsX := [rs1], next := .register rs1 }
  | .hintCMvRd0 _ => { role := .runs }
  | .cMv rd rs2 => { role := .runs, readsX := [rs2], destX := some rd }
  | .cEbreak => { role := .breakpoint }
  | .cJalr rs1 => { role := .runs, readsX := [rs1], destX := some 1#5, next := .register rs1 }
  | .hintCAddRd0 _ => { role := .runs }
  | .cAdd rd rs2 => { role := .runs, readsX := [rd, rs2], destX := some rd }
  | .cFsdsp _ uimm => { role := .runs, readsX := [2#5], needs := .double, access := some ⟨true, 8, 2#5, uimm.toNat⟩ }
  | .cSwsp rs2 uimm => { role := .runs, readsX := [2#5, rs2], access := some ⟨true, 4, 2#5, uimm.toNat⟩ }
  | .cFswsp _ uimm => { role := .runs, readsX := [2#5], needs := .single, access := some ⟨true, 4, 2#5, uimm.toNat⟩ }
  | .refusedQ3 _ => { role := .refused }
  | .cLd _ _ _ => { role := .rv64Only }
  | .cSd _ _ _ => { role := .rv64Only }
  | .cAddiw _ _ => { role := .rv64Only }
  | .cSubw _ _ => { role := .rv64Only }
  | .cAddw _ _ => { role := .rv64Only }
  | .cLdsp _ _ => { role := .rv64Only }
  | .cSdsp _ _ => { role := .rv64Only }

/-- The parcel is illegal here: a reserved row, or a floating-point entry without its registers (R96, R98, R100). -/
def IllegalHere (i : Instr) (s : State) : Prop := (profile i).role = .illegal ∨ (profile i).needs.met s = false

end Sys2Proof.Machine
end

