-- ==== Sys2Proof/Certificates/Slice0/Obligations.lean ====
section
/-! DEFINITION. The statements for the provers, one proposition each; OBLIGATIONS.json says which rule of the spec each
one formalises. The terms they use are those of Safety.lean. -/

section

open Sys2Proof Sys2Proof.Machine

/-- O1, derived from 30_encoding.md R82, 30_encoding.md R85, 30_encoding.md R86, 30_encoding.md R93. Decoding the
encoding of a well-formed instruction gives it back. -/
def Obligations.DecodeEncode : Prop :=
  ∀ i : Instr, WellFormed i → decodeParcel (encode i) = i ∧ decode (encodeBytes i) = .ok (i, [])

/-- O2, derived from 30_encoding.md R85, 30_encoding.md R105. Encoding what any parcel decodes to gives the parcel back. -/
def Obligations.EncodeDecode : Prop :=
  ∀ w : Parcel, encode (decodeParcel w) = w

/-- O3, derived from 30_encoding.md R85, 30_encoding.md R94. Every parcel decodes to a well-formed instruction, never to
an RV64C-only entry. -/
def Obligations.EveryParcelDecodesWellFormed : Prop :=
  ∀ w : Parcel, WellFormed (decodeParcel w) ∧ tableRow (decodeParcel w) < decodingRows

/-- O4, derived from 30_encoding.md R85. The decoder answers the first row of the opcode table whose fixed bits match. -/
def Obligations.FirstMatchingRow : Prop :=
  ∀ w : Parcel, (opcodeTable.take decodingRows).findIdx? (fun row => w &&& row.mask == row.pattern) =
    some (tableRow (decodeParcel w))

/-- O5, derived from 40_quadrant0.md R130, 41_quadrant1.md R151, 42_quadrant2.md R190, 30_encoding.md R99. Words printed
in the spec decode to the instructions they are printed for. -/
def Obligations.SampleWordsDecode : Prop :=
  decodeParcel 0x0028#16 = .cAddi4spn 2#3 8#10 ∧ decodeParcel 0x4044#16 = .cLw 1#3 0#3 4#7 ∧
    decodeParcel 0xA404#16 = .cFsd 1#3 0#3 8#8 ∧ decodeParcel 0x15FD#16 = .cAddi 11#5 (-1) ∧
    decodeParcel 0x7501#16 = .cLui 10#5 0x20000#18 ∧ decodeParcel 0x8541#16 = .cSrai 2#3 16#5 ∧
    decodeParcel 0xBFED#16 = .cJ (-6) ∧ decodeParcel 0xC401#16 = .cBeqz 0#3 8#9 ∧
    decodeParcel 0x050A#16 = .cSlli 10#5 2#5 ∧ decodeParcel 0x2FC2#16 = .cFldsp 31#5 16#9 ∧
    decodeParcel 0x9002#16 = .cEbreak ∧ decodeParcel 0x9282#16 = .cJalr 5#5 ∧
    decodeParcel 0xCE06#16 = .cSwsp 1#5 28#8 ∧ decodeParcel 0x0000#16 = .illegalCAddi4spnNzuimm0 0#3

/-- O6, derived from 10_state.md R28, 20_memory.md R63. A step runs the instruction that the two bytes at pc decode to. -/
def Obligations.StepRunsDecodedInstruction : Prop :=
  ∀ (s : State) (i : Instr), s.pc.toNat % 2 = 0 → Fetchable s →
    decode [s.byteAt s.pc, s.byteAt (s.pc + 1)] = .ok (i, []) → WellFormed i → step s = exec i s

/-- O7, stated: R63. The fetch takes the two bytes at pc, low byte first, or raises Instruction access fault. -/
def Obligations.FetchTakesTwoBytes : Prop :=
  ∀ s : State, s.pc.toNat % 2 = 0 →
    (¬ Fetchable s → Raises (step s) s .instructionAccessFault s.pc) ∧
    (Fetchable s → step s = exec (decodeParcel (s.byteAt (s.pc + 1) ++ s.byteAt s.pc)) s)

/-- O8, derived from 10_state.md R27, 70_reset_and_hazards.md R260. A state with an odd pc is refused by name (the
model's choice, log 9). -/
def Obligations.OddPcIsRefused : Prop :=
  ∀ s : State, s.pc.toNat % 2 = 1 → step s = .refused (.oddPc s.pc)

/-- O9, derived from 10_state.md R42, 70_reset_and_hazards.md R262. withFetchWord makes the next step run exactly the
word placed, and changes only its two bytes (log 6). -/
def Obligations.PlacedWordRuns : Prop :=
  ∀ (s t : State) (w : Nat), s.pc.toNat % 2 = 0 → t = s.withFetchWord 16 w →
    decodeTableWord 16 w = some (decodeParcel (BitVec.ofNat 16 w)) ∧
    step t = exec (decodeParcel (BitVec.ofNat 16 w)) t ∧ t.pc = s.pc ∧ t.x = s.x ∧ t.f = s.f ∧
    ∀ a : Word, a ≠ s.pc → a ≠ s.pc + 1 → t.byteAt a = s.byteAt a ∧ MemMap.perms t.map a = MemMap.perms s.map a

/-- O10, derived from 10_state.md R27, 10_state.md R22, 20_memory.md R68, 10_state.md R35. Every step that completes
keeps the invariant of the machine (its form is the model's, logs 5 and 13). -/
def Obligations.StepKeepsInvariant : Prop :=
  ∀ s t : State, s.Inv → step s = .next t → t.Inv

/-- O11, derived from 70_reset_and_hazards.md R261, 10_state.md R40. The reset state satisfies the invariant (its values
are the model's, logs 1 to 5). -/
def Obligations.ResetHasInvariant : Prop :=
  State.reset.Inv

/-- O12, derived from 70_reset_and_hazards.md R260, 20_memory.md R58, 20_memory.md R68. Every accepted launch, with any
image and any register values, satisfies the invariant (logs 5 and 12). -/
def Obligations.LaunchGivesInvariant : Prop :=
  ∀ (args : LaunchArgs) (t : State), launch args = .ok t → t.Inv

/-- O13, stated: R260. A launch sets pc to RESET_PC and rejects an odd one. -/
def Obligations.LaunchRejectsOddPc : Prop :=
  (∀ args : LaunchArgs, args.resetPc.toNat % 2 = 1 → launch args = .error .oddResetPc) ∧
    ∀ (args : LaunchArgs) (t : State), launch args = .ok t → t.pc = args.resetPc

/-- O14, derived from 70_reset_and_hazards.md R261, 10_state.md R40, 10_state.md R42. The launch state holds every
argument: registers, map and image (a byte no image lists: the model's, log 5). -/
def Obligations.LaunchStateHoldsTheArguments : Prop :=
  ∀ args : LaunchArgs, args.resetPc.toNat % 2 = 0 → MemMap.exclusive args.map = true →
    ∃ t, launch args = .ok t ∧ t.readX 0#5 = 0#32 ∧
      (∀ k : Fin 31, t.readX (BitVec.ofNat 5 (k.val + 1)) = args.initX[k]) ∧ t.f = args.f ∧ t.map = args.map ∧
      (∀ (before after : List (Word × Byte)) (a : Word) (b : Byte), args.image = before ++ (a, b) :: after →
        (∀ c : Byte, (a, c) ∉ after) → t.byteAt a = b) ∧
      ∀ a : Word, (∀ c : Byte, (a, c) ∉ args.image) → t.byteAt a = Config.unlistedByte

/-- O15, derived from 70_reset_and_hazards.md R260, 70_reset_and_hazards.md R261. State.reset is the launch with the
model's values for the OPEN parameters (logs 1 to 5). -/
def Obligations.ResetIsALaunch : Prop :=
  launch resetArgs = .ok State.reset

/-- O16, derived from 10_state.md R27. pc starts even and stays even, and Instruction address misaligned is never raised
(the spec's inference R27). -/
def Obligations.PcStaysEven : Prop :=
  (∀ (args : LaunchArgs) (t : State), launch args = .ok t → t.pc.toNat % 2 = 0) ∧
    (∀ s t : State, s.pc.toNat % 2 = 0 → step s = .next t → t.pc.toNat % 2 = 0) ∧
    ∀ (s t : State) (r : Trap), step s = .fault (.trap r t) → r.cause ≠ .instructionAddressMisaligned

/-- O17, derived from 20_memory.md R68, 20_memory.md R58. Under the launch premise no step changes a byte that can be
fetched, and a store to one faults. -/
def Obligations.TextIsImmutable : Prop :=
  ∀ s : State, MemMap.exclusive s.map = true →
    (∀ (t : State) (a : Word), step s = .next t → MemMap.executable s.map a = true →
      t.byteAt a = s.byteAt a ∧ MemMap.executable t.map a = true) ∧
    ∀ (i : Instr) (k : Access) (n : Nat), (profile i).access = some k → k.store = true →
      (profile i).needs.met s = true →
      (k.address s).toNat % k.size = 0 → n < k.size →
      MemMap.executable s.map (k.address s + BitVec.ofNat 32 n) = true →
      Raises (exec i s) s .storeAccessFault (k.address s)

/-- O18, stated: R223. A step that raises hands out the state unchanged, with epc = pc, and the run ends there. -/
def Obligations.TrapHandsOutUnchangedState : Prop :=
  ∀ (s t : State) (r : Trap), step s = .fault (.trap r t) →
    t = s ∧ r.epc = s.pc ∧ ∀ n : Nat, Host.Core.run Sys2Proof.core (n + 1) s = .fault (Fault.trap r s)

/-- O19, stated: R222. tval is pc, the parcel, or the effective address, by the cause. -/
def Obligations.TrapValue : Prop :=
  ∀ (s t : State) (r : Trap) (w : Parcel), w = s.byteAt (s.pc + 1) ++ s.byteAt s.pc →
    step s = .fault (.trap r t) →
    (r.cause = .instructionAccessFault → r.tval = s.pc) ∧
    (r.cause = .illegalInstruction → r.tval = BitVec.ofNat 32 w.toNat) ∧
    (r.cause = .breakpoint → r.tval = s.pc) ∧
    (r.cause = .loadAddressMisaligned ∨ r.cause = .loadAccessFault ∨ r.cause = .storeAddressMisaligned ∨
        r.cause = .storeAccessFault →
      ∃ k, (profile (decodeParcel w)).access = some k ∧ r.tval = k.address s)

/-- O20, derived from 60_exceptions.md R221. Which instruction raises what: loads, stores, c.ebreak, and nothing else of
its own (the spec's inference R221). -/
def Obligations.WhoRaisesWhat : Prop :=
  (∀ (i : Instr) (s t : State) (r : Trap), WellFormed i → exec i s = .fault (.trap r t) →
      (r.cause = .loadAddressMisaligned ∨ r.cause = .loadAccessFault → ∃ k, (profile i).access = some k ∧
        k.store = false) ∧
      (r.cause = .storeAddressMisaligned ∨ r.cause = .storeAccessFault → ∃ k, (profile i).access = some k ∧
        k.store = true) ∧
      (r.cause = .breakpoint ↔ i = .cEbreak) ∧ (r.cause = .illegalInstruction → IllegalHere i s) ∧
      r.cause ≠ .instructionAddressMisaligned ∧ r.cause ≠ .instructionAccessFault) ∧
    (∀ (i : Instr) (s : State), (profile i).role = .runs → (profile i).access = none → ∃ t, exec i s = .next t) ∧
    ∀ s : State, s.pc.toNat % 2 = 0 → ¬ Fetchable s → Raises (step s) s .instructionAccessFault s.pc

/-- O21, derived from 10_state.md R28, 60_exceptions.md R221, 60_exceptions.md R222, 60_exceptions.md R225. When a step
stops and why: the first failing check in the order of R225, and otherwise it completes (R28, R221). -/
def Obligations.StepStopsInTheSpecifiedOrder : Prop :=
  ∀ (s : State) (w : Parcel) (i : Instr), s.pc.toNat % 2 = 0 → w = s.byteAt (s.pc + 1) ++ s.byteAt s.pc →
    i = decodeParcel w →
    (¬ Fetchable s → Raises (step s) s .instructionAccessFault s.pc) ∧
    (Fetchable s → w.toNat % 4 = 3 → step s = .refused (.thirtyTwoBitInstruction w)) ∧
    (Fetchable s → IllegalHere i s → Raises (step s) s .illegalInstruction (BitVec.ofNat 32 w.toNat)) ∧
    (Fetchable s → i = .cEbreak → Raises (step s) s .breakpoint s.pc) ∧
    (Fetchable s → ¬ IllegalHere i s → ∀ k : Access, (profile i).access = some k → k.store = false →
      LoadStops (step s) s (k.address s) k.size ∧
      ((k.address s).toNat % k.size = 0 → Readable s (k.address s) k.size → ∃ t, step s = .next t)) ∧
    (Fetchable s → ¬ IllegalHere i s → ∀ k : Access, (profile i).access = some k → k.store = true →
      StoreStops (step s) s (k.address s) k.size ∧
      ((k.address s).toNat % k.size = 0 → Writable s (k.address s) k.size → ∃ t, step s = .next t)) ∧
    (Fetchable s → (profile i).role = .runs → (profile i).access = none → ∃ t, step s = .next t)

/-- O22, derived from 70_reset_and_hazards.md R265, 60_exceptions.md R224, 60_exceptions.md R230. A bounded run has
exactly the outcome of R265: finished, faulted, refused or still running (logs 14 and 15). -/
def Obligations.RunStopsAtTheFirstTrap : Prop :=
  ∀ (ends : List Word) (n : Nat) (s t : State), Host.Core.run Sys2Proof.core n s = .next t →
    runOutcome ends n s = .stillRunning t ∧
    (∀ (m : Nat) (r : Trap) (u : State), step t = .fault (.trap r u) →
      runOutcome ends (n + m + 1) s = if r.cause = .breakpoint ∧ r.epc ∈ ends then .finished r t else .faulted r t) ∧
    ∀ (m : Nat) (q : Refusal), step t = .refused q → runOutcome ends (n + m + 1) s = .refused q

/-- O23, stated: R26. How pc advances: the table of R26 for every instruction, and unchanged when it raises. -/
def Obligations.NextPcTable : Prop :=
  ∀ (i : Instr) (s : State), WellFormed i →
    (∀ t : State, exec i s = .next t → t.pc = (profile i).next.target s) ∧
    ∀ (r : Trap) (t : State), exec i s = .fault (.trap r t) → t.pc = s.pc

/-- O24, stated: R23. Each instruction reads and writes only the integer registers that R23 lists for it. -/
def Obligations.RegistersReadAndWritten : Prop :=
  ∀ (i : Instr) (s t : State), WellFormed i → exec i s = .next t →
    (∀ r : Reg, (profile i).destX ≠ some r → t.readX r = s.readX r) ∧
    (∀ (r : Reg) (v : Word), r ∉ (profile i).readsX →
      ∃ u, exec i (s.writeX r v) = .next u ∧ u.pc = t.pc ∧ u.f = t.f ∧ u.mem = t.mem ∧ u.map = t.map ∧
        (∀ q : Reg, q ≠ r → u.readX q = t.readX q) ∧ ((profile i).destX = some r → u.readX r = t.readX r)) ∧
    ∀ rs1 : Reg, i = .cJalr rs1 → t.readX 1#5 = plus s.pc 2 ∧ t.pc = clearBit0 (s.readX rs1)

/-- O25, derived from 10_state.md R23, 10_state.md R33, 20_memory.md R56, 20_memory.md R58. What every instruction
leaves unchanged: all but its destination register, the bytes it stores and pc. -/
def Obligations.EveryInstructionFrame : Prop :=
  ∀ (i : Instr) (s t : State), WellFormed i → exec i s = .next t →
    (∀ r : Reg, (profile i).destX ≠ some r → t.readX r = s.readX r) ∧
    (∀ r : Reg, (profile i).destF ≠ some r → t.readF32 r = s.readF32 r ∧ t.readF64 r = s.readF64 r) ∧
    t.hasF = s.hasF ∧ t.hasD = s.hasD ∧ t.map = s.map ∧
    ∀ b : Word, (∀ k : Access, (profile i).access = some k → k.store = true → k.size ≤ (b - k.address s).toNat) →
      t.byteAt b = s.byteAt b

/-- O26, derived from 10_state.md R22, 10_state.md R24. x[0] reads as 0 and a write to it has no effect; any other
register reads what was last written. -/
def Obligations.XZeroIsHardWired : Prop :=
  ∀ (s : State) (v : Word), s.readX 0#5 = 0#32 ∧ s.writeX 0#5 v = s ∧
    ∀ i j : Reg, i ≠ 0#5 → (s.writeX i v).readX j = if j = i then v else s.readX j

/-- O27, stated: R52. MemRead: misaligned, then unreadable, then the bytes as one little-endian number. -/
def Obligations.MemReadIsLittleEndian : Prop :=
  ∀ (s : State) (a : Word),
    (a.toNat % 4 ≠ 0 → memRead4 a s = .error .loadAddressMisaligned) ∧
    (a.toNat % 4 = 0 → ¬ Readable s a 4 → memRead4 a s = .error .loadAccessFault) ∧
    (a.toNat % 4 = 0 → Readable s a 4 →
      a.toNat + 4 ≤ 2 ^ 32 ∧ ∃ v, memRead4 a s = .ok v ∧ v.toNat = bytesValue s a 4) ∧
    (a.toNat % 8 ≠ 0 → memRead8 a s = .error .loadAddressMisaligned) ∧
    (a.toNat % 8 = 0 → ¬ Readable s a 8 → memRead8 a s = .error .loadAccessFault) ∧
    (a.toNat % 8 = 0 → Readable s a 8 →
      a.toNat + 8 ≤ 2 ^ 32 ∧ ∃ v, memRead8 a s = .ok v ∧ v.toNat = bytesValue s a 8)

/-- O28, stated: R53. MemWrite: misaligned, then unwritable, then every byte of the value at its place and no other. -/
def Obligations.MemWriteIsLittleEndian : Prop :=
  (∀ (s : State) (a : Word) (v : Word),
    (a.toNat % 4 ≠ 0 → memWrite4 a v s = .error .storeAddressMisaligned) ∧
    (a.toNat % 4 = 0 → ¬ Writable s a 4 → memWrite4 a v s = .error .storeAccessFault) ∧
    (a.toNat % 4 = 0 → Writable s a 4 → ∃ t, memWrite4 a v s = .ok t ∧ OnlyStored s t a 4 v.toNat s.pc)) ∧
  ∀ (s : State) (a : Word) (v : DWord),
    (a.toNat % 8 ≠ 0 → memWrite8 a v s = .error .storeAddressMisaligned) ∧
    (a.toNat % 8 = 0 → ¬ Writable s a 8 → memWrite8 a v s = .error .storeAccessFault) ∧
    (a.toNat % 8 = 0 → Writable s a 8 → ∃ t, memWrite8 a v s = .ok t ∧ OnlyStored s t a 8 v.toNat s.pc)

/-- O29, derived from 20_memory.md R70. What a 4-byte read sees of an 8-byte write, and the bytes and parcels of a
4-byte write (the spec's inference R70). -/
def Obligations.MixedWidthAccesses : Prop :=
  (∀ (s t : State) (a : Word) (v : DWord), memWrite8 a v s = .ok t → Readable t a 8 →
      memRead4 a t = .ok (v.extractLsb 31 0) ∧ memRead4 (a + 4) t = .ok (v.extractLsb 63 32)) ∧
    ∀ (s t : State) (a : Word) (w : Word), memWrite4 a w s = .ok t →
      t.byteAt a = w.extractLsb 7 0 ∧ t.byteAt (a + 1) = w.extractLsb 15 8 ∧
      t.byteAt (a + 2) = w.extractLsb 23 16 ∧ t.byteAt (a + 3) = w.extractLsb 31 24 ∧
      t.parcelAt a = w.extractLsb 15 0 ∧ t.parcelAt (a + 2) = w.extractLsb 31 16

/-- O30, derived from 20_memory.md R65, 70_reset_and_hazards.md R263. A c.lw right after a c.sw to the same address
loads the word stored. -/
def Obligations.LoadReadsTheLatestStore : Prop :=
  ∀ (rs2 rs1 rd base : RegP) (uimm off : BitVec 7) (s t : State), exec (.cSw rs2 rs1 uimm) s = .next t →
    plus (t.readX (primed base)) off.toNat = plus (s.readX (primed rs1)) uimm.toNat →
    Readable t (plus (s.readX (primed rs1)) uimm.toNat) 4 →
    ∃ u, exec (.cLw rd base off) t = .next u ∧ u.readX (primed rd) = s.readX (primed rs2)

/-- O31, derived from 10_state.md R35. Two memories in canonical form that read alike at every address are equal (the
model's form, log 5). -/
def Obligations.CanonicalMemoryIsDetermined : Prop :=
  ∀ m n : Memory, Memory.wf m = true → Memory.wf n = true →
    (∀ a : Word, Memory.read m a.toNat = Memory.read n a.toNat) → m = n

/-- O32, stated: R97, R150. c.nop, every HINT and every shift by 0 complete and change nothing but pc, which becomes pc
+ 2. -/
def Obligations.NopAndHintsOnlyAdvance : Prop :=
  decodeParcel 0x0001#16 = .cNop ∧ (∀ s : State, ∃ t, exec .cNop s = .next t ∧ OnlyPc s t (plus s.pc 2)) ∧
    (∀ (imm : BitVec 6), imm ≠ 0 → decodeParcel (0b000#3 ++ imm.extractLsb 5 5 ++ 0b00000#5 ++ imm.extractLsb 4 0 ++
      0b01#2) = .hintCNopImmNonzero imm) ∧
    (∀ (imm : BitVec 6) (s : State), ∃ t, exec (.hintCNopImmNonzero imm) s = .next t ∧ OnlyPc s t (plus s.pc 2)) ∧
    (∀ (rd : Reg), rd ≠ 0 → decodeParcel (0b000#3 ++ 0b0#1 ++ rd ++ 0b00000#5 ++ 0b01#2) = .hintCAddiImm0 rd) ∧
    (∀ (rd : Reg) (s : State), ∃ t, exec (.hintCAddiImm0 rd) s = .next t ∧ OnlyPc s t (plus s.pc 2)) ∧
    (∀ (imm : BitVec 6), decodeParcel (0b010#3 ++ imm.extractLsb 5 5 ++ 0b00000#5 ++ imm.extractLsb 4 0 ++
      0b01#2) = .hintCLiRd0 imm) ∧
    (∀ (imm : BitVec 6) (s : State), ∃ t, exec (.hintCLiRd0 imm) s = .next t ∧ OnlyPc s t (plus s.pc 2)) ∧
    (∀ (imm : BitVec 18), imm.toNat % 2 ^ 12 = 0 → imm ≠ 0 → decodeParcel (0b011#3 ++ imm.extractLsb 17 17 ++
      0b00000#5 ++ imm.extractLsb 16 12 ++ 0b01#2) = .hintCLuiRd0 imm) ∧
    (∀ (imm : BitVec 18) (s : State), ∃ t, exec (.hintCLuiRd0 imm) s = .next t ∧ OnlyPc s t (plus s.pc 2)) ∧
    (∀ (shamt : BitVec 5), decodeParcel (0b000#3 ++ 0b0#1 ++ 0b00000#5 ++ shamt ++ 0b10#2) = .hintCSlliRd0 shamt) ∧
    (∀ (shamt : BitVec 5) (s : State), ∃ t, exec (.hintCSlliRd0 shamt) s = .next t ∧ OnlyPc s t (plus s.pc 2)) ∧
    (∀ (rs2 : Reg), rs2 ≠ 0 → decodeParcel (0b100#3 ++ 0b0#1 ++ 0b00000#5 ++ rs2 ++ 0b10#2) = .hintCMvRd0 rs2) ∧
    (∀ (rs2 : Reg) (s : State), ∃ t, exec (.hintCMvRd0 rs2) s = .next t ∧ OnlyPc s t (plus s.pc 2)) ∧
    (∀ (rs2 : Reg), rs2 ≠ 0 → decodeParcel (0b100#3 ++ 0b1#1 ++ 0b00000#5 ++ rs2 ++ 0b10#2) = .hintCAddRd0 rs2) ∧
    (∀ (rs2 : Reg) (s : State), ∃ t, exec (.hintCAddRd0 rs2) s = .next t ∧ OnlyPc s t (plus s.pc 2)) ∧
    (∀ rd : Reg, rd ≠ 0 → NoOpParcel (0b000#3 ++ 0b0#1 ++ rd ++ 0b00000#5 ++ 0b10#2)) ∧
    (∀ rd : RegP, NoOpParcel (0b100#3 ++ 0b0#1 ++ 0b00#2 ++ rd ++ 0b00000#5 ++ 0b01#2)) ∧
    ∀ rd : RegP, NoOpParcel (0b100#3 ++ 0b0#1 ++ 0b01#2 ++ rd ++ 0b00000#5 ++ 0b01#2)

/-- O33, stated: R130. c.addi4spn: x[8+rd'] becomes x[2] + nzuimm modulo 2^32; nzuimm = 0 is illegal. -/
def Obligations.CAddi4spnResult : Prop :=
  (∀ (rd : RegP) (nzuimm : BitVec 10), nzuimm.toNat % 4 = 0 → nzuimm ≠ 0 →
      decodeParcel (0b000#3 ++ nzuimm.extractLsb 5 4 ++ nzuimm.extractLsb 9 6 ++ nzuimm.extractLsb 2 2 ++
        nzuimm.extractLsb 3 3 ++ rd ++ 0b00#2) = .cAddi4spn rd nzuimm) ∧
    (∀ rd : RegP, IllegalParcel (0b000#3 ++ 0b00000000#8 ++ rd ++ 0b00#2)) ∧
    ∀ (rd : RegP) (nzuimm : BitVec 10) (s : State), ∃ t, exec (.cAddi4spn rd nzuimm) s = .next t ∧
      OnlyX s t (primed rd) (plus (s.readX 2#5) nzuimm.toNat) (plus s.pc 2)

/-- O34, stated: R151. c.addi: x[rd] becomes x[rd] + sext(nzimm) modulo 2^32. -/
def Obligations.CAddiResult : Prop :=
  (∀ (rd : Reg) (nzimm : BitVec 6), rd ≠ 0 → nzimm ≠ 0 →
      decodeParcel (0b000#3 ++ nzimm.extractLsb 5 5 ++ rd ++ nzimm.extractLsb 4 0 ++ 0b01#2) = .cAddi rd nzimm) ∧
    (∀ (rd : Reg) (nzimm : BitVec 6), rd = 0 ∨ nzimm = 0 →
      NoOpParcel (0b000#3 ++ nzimm.extractLsb 5 5 ++ rd ++ nzimm.extractLsb 4 0 ++ 0b01#2)) ∧
    ∀ (rd : Reg) (nzimm : BitVec 6) (s : State), ∃ t, exec (.cAddi rd nzimm) s = .next t ∧
      OnlyX s t rd (BitVec.ofInt 32 ((s.readX rd).toNat + nzimm.toInt)) (plus s.pc 2)

/-- O35, stated: R154. c.li: x[rd] becomes sext(imm), whatever it held. -/
def Obligations.CLiResult : Prop :=
  (∀ (rd : Reg) (imm : BitVec 6), rd ≠ 0 →
      decodeParcel (0b010#3 ++ imm.extractLsb 5 5 ++ rd ++ imm.extractLsb 4 0 ++ 0b01#2) = .cLi rd imm) ∧
    (∀ imm : BitVec 6, NoOpParcel (0b010#3 ++ imm.extractLsb 5 5 ++ 0b00000#5 ++ imm.extractLsb 4 0 ++ 0b01#2)) ∧
    ∀ (rd : Reg) (imm : BitVec 6) (s : State), ∃ t, exec (.cLi rd imm) s = .next t ∧
      OnlyX s t rd (BitVec.ofInt 32 imm.toInt) (plus s.pc 2)

/-- O36, stated: R155. c.addi16sp: x[2] becomes x[2] + sext(imm) modulo 2^32; 0x6101 is illegal. -/
def Obligations.CAddi16spResult : Prop :=
  (∀ imm : BitVec 10, imm.toNat % 16 = 0 → imm ≠ 0 →
      decodeParcel (0b011#3 ++ imm.extractLsb 9 9 ++ 0b00010#5 ++ imm.extractLsb 4 4 ++ imm.extractLsb 6 6 ++
        imm.extractLsb 8 7 ++ imm.extractLsb 5 5 ++ 0b01#2) = .cAddi16sp imm) ∧
    IllegalParcel 0x6101#16 ∧
    ∀ (imm : BitVec 10) (s : State), ∃ t, exec (.cAddi16sp imm) s = .next t ∧
      OnlyX s t 2#5 (BitVec.ofInt 32 ((s.readX 2#5).toNat + imm.toInt)) (plus s.pc 2)

/-- O37, stated: R156. c.lui: x[rd] becomes the 18-bit immediate sign-extended; the other values of its pattern. -/
def Obligations.CLuiResult : Prop :=
  (∀ (rd : Reg) (imm : BitVec 18), rd ≠ 0 → rd ≠ 2 → imm.toNat % 2 ^ 12 = 0 → imm ≠ 0 →
      decodeParcel (0b011#3 ++ imm.extractLsb 17 17 ++ rd ++ imm.extractLsb 16 12 ++ 0b01#2) = .cLui rd imm) ∧
    (∀ (rd : Reg) (imm : BitVec 18), rd = 0 → imm.toNat % 2 ^ 12 = 0 → imm ≠ 0 → NoOpParcel (0b011#3 ++
      imm.extractLsb 17 17 ++ rd ++ imm.extractLsb 16 12 ++ 0b01#2)) ∧
    (∀ (rd : Reg) (imm : BitVec 18), rd = 2 → imm.toNat % 2 ^ 12 = 0 → imm ≠ 0 →
      ∃ n, decodeParcel (0b011#3 ++ imm.extractLsb 17 17 ++ rd ++ imm.extractLsb 16 12 ++ 0b01#2) = .cAddi16sp n) ∧
    (∀ rd : Reg, rd ≠ 2 → IllegalParcel (0b011#3 ++ 0b0#1 ++ rd ++ 0b00000#5 ++ 0b01#2)) ∧
    ∀ (rd : Reg) (imm : BitVec 18) (s : State), ∃ t, exec (.cLui rd imm) s = .next t ∧
      OnlyX s t rd (BitVec.ofInt 32 imm.toInt) (plus s.pc 2)

/-- O38, stated: R157, R158. c.srli divides by 2^shamt unsigned, c.srai divides the signed value rounding down; shamt[5]
= 1 is illegal. -/
def Obligations.RightShiftResults : Prop :=
  (∀ (rd : RegP) (shamt : BitVec 5),
      decodeParcel (0b100#3 ++ 0b0#1 ++ 0b00#2 ++ rd ++ shamt ++ 0b01#2) = .cSrli rd shamt ∧
      decodeParcel (0b100#3 ++ 0b0#1 ++ 0b01#2 ++ rd ++ shamt ++ 0b01#2) = .cSrai rd shamt ∧
      IllegalParcel (0b100#3 ++ 0b1#1 ++ 0b00#2 ++ rd ++ shamt ++ 0b01#2) ∧
      IllegalParcel (0b100#3 ++ 0b1#1 ++ 0b01#2 ++ rd ++ shamt ++ 0b01#2)) ∧
    (∀ (rd : RegP) (shamt : BitVec 5) (s : State), ∃ t, exec (.cSrli rd shamt) s = .next t ∧
      OnlyX s t (primed rd) (BitVec.ofNat 32 ((s.readX (primed rd)).toNat / 2 ^ shamt.toNat)) (plus s.pc 2)) ∧
    ∀ (rd : RegP) (shamt : BitVec 5) (s : State), ∃ t, exec (.cSrai rd shamt) s = .next t ∧
      OnlyX s t (primed rd) (BitVec.ofInt 32 ((s.readX (primed rd)).toInt / 2 ^ shamt.toNat)) (plus s.pc 2)

/-- O39, stated: R159. c.andi: x[8+rd'] becomes x[8+rd'] & sext(imm). -/
def Obligations.CAndiResult : Prop :=
  (∀ (rd : RegP) (imm : BitVec 6),
      decodeParcel (0b100#3 ++ imm.extractLsb 5 5 ++ 0b10#2 ++ rd ++ imm.extractLsb 4 0 ++ 0b01#2) = .cAndi rd imm) ∧
    ∀ (rd : RegP) (imm : BitVec 6) (s : State), ∃ t, exec (.cAndi rd imm) s = .next t ∧
      OnlyX s t (primed rd) (s.readX (primed rd) &&& BitVec.ofInt 32 imm.toInt) (plus s.pc 2)

/-- O40, stated: R160. c.sub: x[8+rd'] becomes x[8+rd'] - x[8+rs2'] modulo 2^32. -/
def Obligations.CSubResult : Prop :=
  (∀ rd rs2 : RegP, decodeParcel (0b100011#6 ++ rd ++ 0b00#2 ++ rs2 ++ 0b01#2) = .cSub rd rs2) ∧
    ∀ (rd rs2 : RegP) (s : State), ∃ t, exec (.cSub rd rs2) s = .next t ∧
      OnlyX s t (primed rd) (BitVec.ofInt 32 ((s.readX (primed rd)).toNat - (s.readX (primed rs2)).toNat : Int)) (plus s.pc 2)

/-- O41, stated: R161, R162, R163. c.xor, c.or and c.and: the bitwise result of x[8+rd'] and x[8+rs2'] in x[8+rd']. -/
def Obligations.BitwiseResults : Prop :=
  (∀ rd rs2 : RegP, decodeParcel (0b100011#6 ++ rd ++ 0b01#2 ++ rs2 ++ 0b01#2) = .cXor rd rs2) ∧
    (∀ (rd rs2 : RegP) (s : State), ∃ t, exec (.cXor rd rs2) s = .next t ∧
      OnlyX s t (primed rd) (s.readX (primed rd) ^^^ s.readX (primed rs2)) (plus s.pc 2)) ∧
    (∀ rd rs2 : RegP, decodeParcel (0b100011#6 ++ rd ++ 0b10#2 ++ rs2 ++ 0b01#2) = .cOr rd rs2) ∧
    (∀ (rd rs2 : RegP) (s : State), ∃ t, exec (.cOr rd rs2) s = .next t ∧
      OnlyX s t (primed rd) (s.readX (primed rd) ||| s.readX (primed rs2)) (plus s.pc 2)) ∧
    (∀ rd rs2 : RegP, decodeParcel (0b100011#6 ++ rd ++ 0b11#2 ++ rs2 ++ 0b01#2) = .cAnd rd rs2) ∧
    (∀ (rd rs2 : RegP) (s : State), ∃ t, exec (.cAnd rd rs2) s = .next t ∧
      OnlyX s t (primed rd) (s.readX (primed rd) &&& s.readX (primed rs2)) (plus s.pc 2))

/-- O42, stated: R190. c.slli: x[rd] becomes x[rd] * 2^shamt modulo 2^32; shamt[5] = 1 is illegal, rd = 0 a HINT. -/
def Obligations.CSlliResult : Prop :=
  (∀ (rd : Reg) (shamt : BitVec 5), rd ≠ 0 →
      decodeParcel (0b000#3 ++ 0b0#1 ++ rd ++ shamt ++ 0b10#2) = .cSlli rd shamt) ∧
    (∀ (rd : Reg) (shamt : BitVec 5), IllegalParcel (0b000#3 ++ 0b1#1 ++ rd ++ shamt ++ 0b10#2)) ∧
    (∀ shamt : BitVec 5, NoOpParcel (0b000#3 ++ 0b0#1 ++ 0b00000#5 ++ shamt ++ 0b10#2)) ∧
    ∀ (rd : Reg) (shamt : BitVec 5) (s : State), ∃ t, exec (.cSlli rd shamt) s = .next t ∧
      OnlyX s t rd (BitVec.ofNat 32 ((s.readX rd).toNat * 2 ^ shamt.toNat)) (plus s.pc 2)

/-- O43, stated: R196. c.mv: x[rd] becomes x[rs2]; with rs2 = 0 the parcel is c.jr, with rd = 0 a HINT. -/
def Obligations.CMvResult : Prop :=
  (∀ rd rs2 : Reg, rd ≠ 0 → rs2 ≠ 0 →
      decodeParcel (0b100#3 ++ 0b0#1 ++ rd ++ rs2 ++ 0b10#2) = .cMv rd rs2) ∧
    (∀ rd : Reg, rd ≠ 0 → decodeParcel (0b100#3 ++ 0b0#1 ++ rd ++ 0b00000#5 ++ 0b10#2) = .cJr rd) ∧
    (∀ rs2 : Reg, rs2 ≠ 0 → NoOpParcel (0b100#3 ++ 0b0#1 ++ 0b00000#5 ++ rs2 ++ 0b10#2)) ∧
    ∀ (rd rs2 : Reg) (s : State), ∃ t, exec (.cMv rd rs2) s = .next t ∧
      OnlyX s t rd (s.readX rs2) (plus s.pc 2)

/-- O44, stated: R199. c.add: x[rd] becomes x[rd] + x[rs2] modulo 2^32; the other values of its pattern. -/
def Obligations.CAddResult : Prop :=
  (∀ rd rs2 : Reg, rd ≠ 0 → rs2 ≠ 0 →
      decodeParcel (0b100#3 ++ 0b1#1 ++ rd ++ rs2 ++ 0b10#2) = .cAdd rd rs2) ∧
    (∀ rd : Reg, decodeParcel (0b100#3 ++ 0b1#1 ++ rd ++ 0b00000#5 ++ 0b10#2) =
      if rd = 0 then .cEbreak else .cJalr rd) ∧
    (∀ rs2 : Reg, rs2 ≠ 0 → NoOpParcel (0b100#3 ++ 0b1#1 ++ 0b00000#5 ++ rs2 ++ 0b10#2)) ∧
    ∀ (rd rs2 : Reg) (s : State), ∃ t, exec (.cAdd rd rs2) s = .next t ∧
      OnlyX s t rd (plus (s.readX rd) (s.readX rs2).toNat) (plus s.pc 2)

/-- O45, stated: R152, R166. c.j and c.jal go to pc + sext(offset) modulo 2^32; c.jal also writes pc + 2 to x[1]. -/
def Obligations.PcRelativeJumpResults : Prop :=
  (∀ offset : BitVec 12, offset.toNat % 2 = 0 →
      decodeParcel (0b101#3 ++ offset.extractLsb 11 11 ++ offset.extractLsb 4 4 ++ offset.extractLsb 9 8 ++
        offset.extractLsb 10 10 ++ offset.extractLsb 6 6 ++ offset.extractLsb 7 7 ++ offset.extractLsb 3 1 ++
        offset.extractLsb 5 5 ++ 0b01#2) = .cJ offset ∧
      decodeParcel (0b001#3 ++ offset.extractLsb 11 11 ++ offset.extractLsb 4 4 ++ offset.extractLsb 9 8 ++
        offset.extractLsb 10 10 ++ offset.extractLsb 6 6 ++ offset.extractLsb 7 7 ++ offset.extractLsb 3 1 ++
        offset.extractLsb 5 5 ++ 0b01#2) = .cJal offset) ∧
    (∀ (offset : BitVec 12) (s : State), ∃ t, exec (.cJ offset) s = .next t ∧ OnlyPc s t (pcPlus s offset.toInt)) ∧
    ∀ (offset : BitVec 12) (s : State), ∃ t, exec (.cJal offset) s = .next t ∧
      OnlyX s t 1#5 (plus s.pc 2) (pcPlus s offset.toInt)

/-- O46, stated: R167, R168. c.beqz and c.bnez: pc + sext(offset) when x[8+rs1'] is zero, not zero; else pc + 2. -/
def Obligations.BranchResults : Prop :=
  (∀ (rs1 : RegP) (offset : BitVec 9), offset.toNat % 2 = 0 →
      decodeParcel (0b110#3 ++ offset.extractLsb 8 8 ++ offset.extractLsb 4 3 ++ rs1 ++ offset.extractLsb 7 6 ++
        offset.extractLsb 2 1 ++ offset.extractLsb 5 5 ++ 0b01#2) = .cBeqz rs1 offset ∧
      decodeParcel (0b111#3 ++ offset.extractLsb 8 8 ++ offset.extractLsb 4 3 ++ rs1 ++ offset.extractLsb 7 6 ++
        offset.extractLsb 2 1 ++ offset.extractLsb 5 5 ++ 0b01#2) = .cBnez rs1 offset) ∧
    (∀ (rs1 : RegP) (offset : BitVec 9) (s : State), ∃ t, exec (.cBeqz rs1 offset) s = .next t ∧
      OnlyPc s t (if (s.readX (primed rs1)).toNat = 0 then pcPlus s offset.toInt else plus s.pc 2)) ∧
    ∀ (rs1 : RegP) (offset : BitVec 9) (s : State), ∃ t, exec (.cBnez rs1 offset) s = .next t ∧
      OnlyPc s t (if (s.readX (primed rs1)).toNat = 0 then plus s.pc 2 else pcPlus s offset.toInt)

/-- O47, stated: R195, R198. c.jr and c.jalr go to the old x[rs1] with bit 0 cleared; c.jalr also writes pc + 2 to x[1]. -/
def Obligations.RegisterJumpResults : Prop :=
  (∀ rs1 : Reg, rs1 ≠ 0 →
      decodeParcel (0b100#3 ++ 0b0#1 ++ rs1 ++ 0b00000#5 ++ 0b10#2) = .cJr rs1 ∧
      decodeParcel (0b100#3 ++ 0b1#1 ++ rs1 ++ 0b00000#5 ++ 0b10#2) = .cJalr rs1) ∧
    IllegalParcel 0x8002#16 ∧ decodeParcel 0x9002#16 = .cEbreak ∧
    (∀ (rs1 : Reg) (s : State), ∃ t, exec (.cJr rs1) s = .next t ∧ OnlyPc s t (clearBit0 (s.readX rs1))) ∧
    ∀ (rs1 : Reg) (s : State), ∃ t, exec (.cJalr rs1) s = .next t ∧
      OnlyX s t 1#5 (plus s.pc 2) (clearBit0 (s.readX rs1))

/-- O48, stated: R197. c.ebreak always raises Breakpoint with epc = tval = pc and changes nothing. -/
def Obligations.CEbreakStops : Prop :=
  decodeParcel 0x9002#16 = .cEbreak ∧ Cause.breakpoint.code = 3 ∧
    ∀ s : State, exec .cEbreak s = .fault (.trap ⟨.breakpoint, s.pc, s.pc⟩ s)

/-- O49, stated: R132. c.lw: the little-endian word at x[8+rs1'] + uimm goes to x[8+rd'], or it raises and changes
nothing. -/
def Obligations.CLwResult : Prop :=
  (∀ (rd rs1 : RegP) (uimm : BitVec 7), uimm.toNat % 4 = 0 →
      decodeParcel (0b010#3 ++ uimm.extractLsb 5 3 ++ rs1 ++ uimm.extractLsb 2 2 ++ uimm.extractLsb 6 6 ++ rd ++
        0b00#2) = .cLw rd rs1 uimm) ∧
    ∀ (rd rs1 : RegP) (uimm : BitVec 7) (s : State) (a : Word), a = plus (s.readX (primed rs1)) uimm.toNat →
      (a.toNat % 4 = 0 → Readable s a 4 → ∃ t, exec (.cLw rd rs1 uimm) s = .next t ∧
        OnlyX s t (primed rd) (BitVec.ofNat 32 (bytesValue s a 4)) (plus s.pc 2)) ∧
      LoadStops (exec (.cLw rd rs1 uimm) s) s a 4

/-- O50, stated: R192. c.lwsp: the little-endian word at x[2] + uimm goes to x[rd], or it raises; rd = 0 is illegal. -/
def Obligations.CLwspResult : Prop :=
  (∀ uimm : BitVec 8, IllegalParcel (0b010#3 ++ uimm.extractLsb 5 5 ++ 0b00000#5 ++ uimm.extractLsb 4 2 ++
      uimm.extractLsb 7 6 ++ 0b10#2)) ∧
    (∀ (rd : Reg) (uimm : BitVec 8), rd ≠ 0 → uimm.toNat % 4 = 0 →
      decodeParcel (0b010#3 ++ uimm.extractLsb 5 5 ++ rd ++ uimm.extractLsb 4 2 ++ uimm.extractLsb 7 6 ++
        0b10#2) = .cLwsp rd uimm) ∧
    ∀ (rd : Reg) (uimm : BitVec 8) (s : State) (a : Word), a = plus (s.readX 2#5) uimm.toNat →
      (a.toNat % 4 = 0 → Readable s a 4 → ∃ t, exec (.cLwsp rd uimm) s = .next t ∧
        OnlyX s t rd (BitVec.ofNat 32 (bytesValue s a 4)) (plus s.pc 2)) ∧
      LoadStops (exec (.cLwsp rd uimm) s) s a 4

/-- O51, stated: R136. c.sw: the four bytes at x[8+rs1'] + uimm become x[8+rs2'], or it raises and no byte changes. -/
def Obligations.CSwResult : Prop :=
  (∀ (rs2 rs1 : RegP) (uimm : BitVec 7), uimm.toNat % 4 = 0 →
      decodeParcel (0b110#3 ++ uimm.extractLsb 5 3 ++ rs1 ++ uimm.extractLsb 2 2 ++ uimm.extractLsb 6 6 ++ rs2 ++
        0b00#2) = .cSw rs2 rs1 uimm) ∧
    ∀ (rs2 rs1 : RegP) (uimm : BitVec 7) (s : State) (a : Word), a = plus (s.readX (primed rs1)) uimm.toNat →
      (a.toNat % 4 = 0 → Writable s a 4 → ∃ t, exec (.cSw rs2 rs1 uimm) s = .next t ∧
        OnlyStored s t a 4 (s.readX (primed rs2)).toNat (plus s.pc 2)) ∧
      StoreStops (exec (.cSw rs2 rs1 uimm) s) s a 4

/-- O52, stated: R201. c.swsp: the four bytes at x[2] + uimm become x[rs2], any register, or it raises and no byte
changes. -/
def Obligations.CSwspResult : Prop :=
  (∀ (rs2 : Reg) (uimm : BitVec 8), uimm.toNat % 4 = 0 →
      decodeParcel (0b110#3 ++ uimm.extractLsb 5 2 ++ uimm.extractLsb 7 6 ++ rs2 ++ 0b10#2) = .cSwsp rs2 uimm) ∧
    ∀ (rs2 : Reg) (uimm : BitVec 8) (s : State) (a : Word), a = plus (s.readX 2#5) uimm.toNat →
      (a.toNat % 4 = 0 → Writable s a 4 → ∃ t, exec (.cSwsp rs2 uimm) s = .next t ∧
        OnlyStored s t a 4 (s.readX rs2).toNat (plus s.pc 2)) ∧
      StoreStops (exec (.cSwsp rs2 uimm) s) s a 4

/-- O53, stated: R131, R191. c.fld and c.fldsp: the 8 bytes at the effective address go unchanged to f, or they raise;
illegal without HAS_D. -/
def Obligations.FloatDoubleLoadResults : Prop :=
  (∀ (rd rs1 : RegP) (uimm : BitVec 8), uimm.toNat % 8 = 0 →
      decodeParcel (0b001#3 ++ uimm.extractLsb 5 3 ++ rs1 ++ uimm.extractLsb 7 6 ++ rd ++ 0b00#2) = .cFld rd rs1 uimm) ∧
    (∀ (rd rs1 : RegP) (uimm : BitVec 8) (s : State) (a : Word), a = plus (s.readX (primed rs1)) uimm.toNat →
      (s.hasD = false →
        Raises (exec (.cFld rd rs1 uimm) s) s .illegalInstruction (BitVec.ofNat 32 (encode (.cFld rd rs1 uimm)).toNat)) ∧
      (s.hasD = true → a.toNat % 8 = 0 → Readable s a 8 → ∃ t, exec (.cFld rd rs1 uimm) s = .next t ∧
        OnlyF s t (primed rd) (plus s.pc 2) ∧ t.readF64 (primed rd) = some (BitVec.ofNat 64 (bytesValue s a 8))) ∧
      (s.hasD = true → LoadStops (exec (.cFld rd rs1 uimm) s) s a 8)) ∧
    (∀ (rd : Reg) (uimm : BitVec 9), uimm.toNat % 8 = 0 →
      decodeParcel (0b001#3 ++ uimm.extractLsb 5 5 ++ rd ++ uimm.extractLsb 4 3 ++ uimm.extractLsb 8 6 ++
        0b10#2) = .cFldsp rd uimm) ∧
    (∀ (rd : Reg) (uimm : BitVec 9) (s : State) (a : Word), a = plus (s.readX 2#5) uimm.toNat →
      (s.hasD = false →
        Raises (exec (.cFldsp rd uimm) s) s .illegalInstruction (BitVec.ofNat 32 (encode (.cFldsp rd uimm)).toNat)) ∧
      (s.hasD = true → a.toNat % 8 = 0 → Readable s a 8 → ∃ t, exec (.cFldsp rd uimm) s = .next t ∧
        OnlyF s t rd (plus s.pc 2) ∧ t.readF64 rd = some (BitVec.ofNat 64 (bytesValue s a 8))) ∧
      (s.hasD = true → LoadStops (exec (.cFldsp rd uimm) s) s a 8))

/-- O54, stated: R133, R193. c.flw and c.flwsp: the word goes to f, NaN-boxed when FLEN = 64, or they raise; illegal
without HAS_F. -/
def Obligations.FloatSingleLoadResults : Prop :=
  (∀ (rd rs1 : RegP) (uimm : BitVec 7), uimm.toNat % 4 = 0 →
      decodeParcel (0b011#3 ++ uimm.extractLsb 5 3 ++ rs1 ++ uimm.extractLsb 2 2 ++ uimm.extractLsb 6 6 ++ rd ++
        0b00#2) = .cFlw rd rs1 uimm) ∧
    (∀ (rd rs1 : RegP) (uimm : BitVec 7) (s : State) (a : Word), a = plus (s.readX (primed rs1)) uimm.toNat →
      (s.hasF = false →
        Raises (exec (.cFlw rd rs1 uimm) s) s .illegalInstruction (BitVec.ofNat 32 (encode (.cFlw rd rs1 uimm)).toNat)) ∧
      (s.hasF = true → a.toNat % 4 = 0 → Readable s a 4 → ∃ t, exec (.cFlw rd rs1 uimm) s = .next t ∧
        OnlyF s t (primed rd) (plus s.pc 2) ∧ t.readF32 (primed rd) = some (BitVec.ofNat 32 (bytesValue s a 4)) ∧
        (s.hasD = true → t.readF64 (primed rd) = some (0xFFFFFFFF#32 ++ BitVec.ofNat 32 (bytesValue s a 4)))) ∧
      (s.hasF = true → LoadStops (exec (.cFlw rd rs1 uimm) s) s a 4)) ∧
    (∀ (rd : Reg) (uimm : BitVec 8), uimm.toNat % 4 = 0 →
      decodeParcel (0b011#3 ++ uimm.extractLsb 5 5 ++ rd ++ uimm.extractLsb 4 2 ++ uimm.extractLsb 7 6 ++
        0b10#2) = .cFlwsp rd uimm) ∧
    (∀ (rd : Reg) (uimm : BitVec 8) (s : State) (a : Word), a = plus (s.readX 2#5) uimm.toNat →
      (s.hasF = false →
        Raises (exec (.cFlwsp rd uimm) s) s .illegalInstruction (BitVec.ofNat 32 (encode (.cFlwsp rd uimm)).toNat)) ∧
      (s.hasF = true → a.toNat % 4 = 0 → Readable s a 4 → ∃ t, exec (.cFlwsp rd uimm) s = .next t ∧
        OnlyF s t rd (plus s.pc 2) ∧ t.readF32 rd = some (BitVec.ofNat 32 (bytesValue s a 4)) ∧
        (s.hasD = true → t.readF64 rd = some (0xFFFFFFFF#32 ++ BitVec.ofNat 32 (bytesValue s a 4)))) ∧
      (s.hasF = true → LoadStops (exec (.cFlwsp rd uimm) s) s a 4))

/-- O55, stated: R135, R200. c.fsd and c.fsdsp: all 64 bits of f go to the 8 bytes at the effective address, or they
raise; illegal without HAS_D. -/
def Obligations.FloatDoubleStoreResults : Prop :=
  (∀ (rs2 rs1 : RegP) (uimm : BitVec 8), uimm.toNat % 8 = 0 →
      decodeParcel (0b101#3 ++ uimm.extractLsb 5 3 ++ rs1 ++ uimm.extractLsb 7 6 ++ rs2 ++
        0b00#2) = .cFsd rs2 rs1 uimm) ∧
    (∀ (rs2 rs1 : RegP) (uimm : BitVec 8) (s : State) (a : Word), a = plus (s.readX (primed rs1)) uimm.toNat →
      (s.hasD = false →
        Raises (exec (.cFsd rs2 rs1 uimm) s) s .illegalInstruction (BitVec.ofNat 32 (encode (.cFsd rs2 rs1 uimm)).toNat)) ∧
      (s.hasD = true → a.toNat % 8 = 0 → Writable s a 8 → ∃ (t : State) (v : DWord), s.readF64 (primed rs2) = some v ∧
        exec (.cFsd rs2 rs1 uimm) s = .next t ∧ OnlyStored s t a 8 v.toNat (plus s.pc 2)) ∧
      (s.hasD = true → StoreStops (exec (.cFsd rs2 rs1 uimm) s) s a 8)) ∧
    (∀ (rs2 : Reg) (uimm : BitVec 9), uimm.toNat % 8 = 0 →
      decodeParcel (0b101#3 ++ uimm.extractLsb 5 3 ++ uimm.extractLsb 8 6 ++ rs2 ++ 0b10#2) = .cFsdsp rs2 uimm) ∧
    (∀ (rs2 : Reg) (uimm : BitVec 9) (s : State) (a : Word), a = plus (s.readX 2#5) uimm.toNat →
      (s.hasD = false →
        Raises (exec (.cFsdsp rs2 uimm) s) s .illegalInstruction (BitVec.ofNat 32 (encode (.cFsdsp rs2 uimm)).toNat)) ∧
      (s.hasD = true → a.toNat % 8 = 0 → Writable s a 8 → ∃ (t : State) (v : DWord), s.readF64 rs2 = some v ∧
        exec (.cFsdsp rs2 uimm) s = .next t ∧ OnlyStored s t a 8 v.toNat (plus s.pc 2)) ∧
      (s.hasD = true → StoreStops (exec (.cFsdsp rs2 uimm) s) s a 8))

/-- O56, stated: R137, R202. c.fsw and c.fswsp: the low 32 bits of f go to the 4 bytes at the effective address, or they
raise; illegal without HAS_F. -/
def Obligations.FloatSingleStoreResults : Prop :=
  (∀ (rs2 rs1 : RegP) (uimm : BitVec 7), uimm.toNat % 4 = 0 →
      decodeParcel (0b111#3 ++ uimm.extractLsb 5 3 ++ rs1 ++ uimm.extractLsb 2 2 ++ uimm.extractLsb 6 6 ++ rs2 ++
        0b00#2) = .cFsw rs2 rs1 uimm) ∧
    (∀ (rs2 rs1 : RegP) (uimm : BitVec 7) (s : State) (a : Word), a = plus (s.readX (primed rs1)) uimm.toNat →
      (s.hasF = false →
        Raises (exec (.cFsw rs2 rs1 uimm) s) s .illegalInstruction (BitVec.ofNat 32 (encode (.cFsw rs2 rs1 uimm)).toNat)) ∧
      (s.hasF = true → a.toNat % 4 = 0 → Writable s a 4 → ∃ (t : State) (v : Word), s.readF32 (primed rs2) = some v ∧
        exec (.cFsw rs2 rs1 uimm) s = .next t ∧ OnlyStored s t a 4 v.toNat (plus s.pc 2)) ∧
      (s.hasF = true → StoreStops (exec (.cFsw rs2 rs1 uimm) s) s a 4)) ∧
    (∀ (rs2 : Reg) (uimm : BitVec 8), uimm.toNat % 4 = 0 →
      decodeParcel (0b111#3 ++ uimm.extractLsb 5 2 ++ uimm.extractLsb 7 6 ++ rs2 ++ 0b10#2) = .cFswsp rs2 uimm) ∧
    (∀ (rs2 : Reg) (uimm : BitVec 8) (s : State) (a : Word), a = plus (s.readX 2#5) uimm.toNat →
      (s.hasF = false →
        Raises (exec (.cFswsp rs2 uimm) s) s .illegalInstruction (BitVec.ofNat 32 (encode (.cFswsp rs2 uimm)).toNat)) ∧
      (s.hasF = true → a.toNat % 4 = 0 → Writable s a 4 → ∃ (t : State) (v : Word), s.readF32 rs2 = some v ∧
        exec (.cFswsp rs2 uimm) s = .next t ∧ OnlyStored s t a 4 v.toNat (plus s.pc 2)) ∧
      (s.hasF = true → StoreStops (exec (.cFswsp rs2 uimm) s) s a 4))

/-- O57, stated: R100. Without HAS_F, without HAS_D: the four, and four, floating-point patterns raise Illegal
instruction. -/
def Obligations.FloatEntriesWithoutRegisters : Prop :=
  ∀ (s : State) (w : Parcel),
    (s.hasF = false →
      w &&& 0xE003#16 = 0x6000#16 ∨ w &&& 0xE003#16 = 0xE000#16 ∨ w &&& 0xE003#16 = 0x6002#16 ∨
        w &&& 0xE003#16 = 0xE002#16 →
      Raises (exec (decodeParcel w) s) s .illegalInstruction (BitVec.ofNat 32 w.toNat)) ∧
    (s.hasD = false →
      w &&& 0xE003#16 = 0x2000#16 ∨ w &&& 0xE003#16 = 0xA000#16 ∨ w &&& 0xE003#16 = 0x2002#16 ∨
        w &&& 0xE003#16 = 0xA002#16 →
      Raises (exec (decodeParcel w) s) s .illegalInstruction (BitVec.ofNat 32 w.toNat))

/-- O58, stated: R96, R98. Every reserved encoding and every shift with inst[12] = 1 raises Illegal instruction with the
parcel as tval. -/
def Obligations.ReservedParcelsAreIllegal : Prop :=
  Cause.illegalInstruction.code = 2 ∧ decodeParcel 0x0000#16 = .illegalCAddi4spnNzuimm0 0#3 ∧
    (∀ (rd : RegP), decodeParcel (0b000#3 ++ 0b00000000#8 ++ rd ++ 0b00#2) = .illegalCAddi4spnNzuimm0 rd) ∧
    (∀ (rd : RegP) (s : State), Raises (exec (.illegalCAddi4spnNzuimm0 rd) s) s .illegalInstruction
      (BitVec.ofNat 32 (((0b000#3 ++ 0b00000000#8 ++ rd ++ 0b00#2) : Parcel)).toNat)) ∧
    (∀ (rest : BitVec 11), decodeParcel (0b100#3 ++ rest ++ 0b00#2) = .illegalQ0Funct3x100 rest) ∧
    (∀ (rest : BitVec 11) (s : State), Raises (exec (.illegalQ0Funct3x100 rest) s) s .illegalInstruction
      (BitVec.ofNat 32 (((0b100#3 ++ rest ++ 0b00#2) : Parcel)).toNat)) ∧
    (decodeParcel 0x6101#16 = .illegalCAddi16spImm0) ∧
    (∀ (s : State), Raises (exec .illegalCAddi16spImm0 s) s .illegalInstruction
      (BitVec.ofNat 32 (0x6101#16).toNat)) ∧
    (∀ (rd : Reg), rd ≠ 2 → decodeParcel (0b011#3 ++ 0b0#1 ++ rd ++ 0b00000#5 ++ 0b01#2) = .illegalCLuiImm0 rd) ∧
    (∀ (rd : Reg) (s : State), Raises (exec (.illegalCLuiImm0 rd) s) s .illegalInstruction
      (BitVec.ofNat 32 (((0b011#3 ++ 0b0#1 ++ rd ++ 0b00000#5 ++ 0b01#2) : Parcel)).toNat)) ∧
    (∀ (rd rs2 : RegP), decodeParcel (0b100111#6 ++ rd ++ 0b00#2 ++ rs2 ++ 0b01#2) = .illegalCSubw rd rs2) ∧
    (∀ (rd rs2 : RegP) (s : State), Raises (exec (.illegalCSubw rd rs2) s) s .illegalInstruction
      (BitVec.ofNat 32 (((0b100111#6 ++ rd ++ 0b00#2 ++ rs2 ++ 0b01#2) : Parcel)).toNat)) ∧
    (∀ (rd rs2 : RegP), decodeParcel (0b100111#6 ++ rd ++ 0b01#2 ++ rs2 ++ 0b01#2) = .illegalCAddw rd rs2) ∧
    (∀ (rd rs2 : RegP) (s : State), Raises (exec (.illegalCAddw rd rs2) s) s .illegalInstruction
      (BitVec.ofNat 32 (((0b100111#6 ++ rd ++ 0b01#2 ++ rs2 ++ 0b01#2) : Parcel)).toNat)) ∧
    (∀ (hi : BitVec 3) (bit5 : BitVec 1) (lo : BitVec 3), decodeParcel (0b100111#6 ++ hi ++ 0b1#1 ++ bit5 ++ lo ++
      0b01#2) = .illegalQ1Reserved hi bit5 lo) ∧
    (∀ (hi : BitVec 3) (bit5 : BitVec 1) (lo : BitVec 3) (s : State), Raises (exec (.illegalQ1Reserved hi bit5 lo) s) s .illegalInstruction
      (BitVec.ofNat 32 (((0b100111#6 ++ hi ++ 0b1#1 ++ bit5 ++ lo ++ 0b01#2) : Parcel)).toNat)) ∧
    (∀ (uimm : BitVec 8), uimm.toNat % 4 = 0 → decodeParcel (0b010#3 ++ uimm.extractLsb 5 5 ++ 0b00000#5 ++
      uimm.extractLsb 4 2 ++ uimm.extractLsb 7 6 ++ 0b10#2) = .illegalCLwspRd0 uimm) ∧
    (∀ (uimm : BitVec 8) (s : State), Raises (exec (.illegalCLwspRd0 uimm) s) s .illegalInstruction
      (BitVec.ofNat 32 (((0b010#3 ++ uimm.extractLsb 5 5 ++ 0b00000#5 ++ uimm.extractLsb 4 2 ++
        uimm.extractLsb 7 6 ++ 0b10#2) : Parcel)).toNat)) ∧
    (decodeParcel 0x8002#16 = .illegalCJrRs1x0) ∧
    (∀ (s : State), Raises (exec .illegalCJrRs1x0 s) s .illegalInstruction
      (BitVec.ofNat 32 (0x8002#16).toNat)) ∧
    (∀ (rd : Reg) (low : BitVec 5), decodeParcel (0b000#3 ++ 0b1#1 ++ rd ++ low ++
      0b10#2) = .illegalCSlliShamt5 rd low) ∧
    (∀ (rd : Reg) (low : BitVec 5) (s : State), Raises (exec (.illegalCSlliShamt5 rd low) s) s .illegalInstruction
      (BitVec.ofNat 32 (((0b000#3 ++ 0b1#1 ++ rd ++ low ++ 0b10#2) : Parcel)).toNat)) ∧
    (∀ (arith : BitVec 1) (rd : RegP) (low : BitVec 5), decodeParcel (0b100#3 ++ 0b1#1 ++ 0b0#1 ++ arith ++ rd ++
      low ++ 0b01#2) = .illegalCSrliCSraiShamt5 arith rd low) ∧
    (∀ (arith : BitVec 1) (rd : RegP) (low : BitVec 5) (s : State), Raises (exec (.illegalCSrliCSraiShamt5 arith rd low) s) s .illegalInstruction
      (BitVec.ofNat 32 (((0b100#3 ++ 0b1#1 ++ 0b0#1 ++ arith ++ rd ++ low ++ 0b01#2) : Parcel)).toNat))

/-- O59, stated: R81. A parcel with inst[1:0] = 11 is refused, and not raised as illegal. -/
def Obligations.QuadrantThreeIsRefused : Prop :=
  (∀ rest : BitVec 14, decodeParcel (rest ++ 0b11#2) = .refusedQ3 rest) ∧
    (∀ (rest : BitVec 14) (s : State), exec (.refusedQ3 rest) s = .refused (.thirtyTwoBitInstruction (rest ++
      0b11#2))) ∧
    ∀ (w : Parcel) (s : State) (q : Refusal), w.toNat % 4 ≠ 3 → exec (decodeParcel w) s ≠ .refused q

/-- O60, derived from 30_encoding.md R94, 40_quadrant0.md R134, 40_quadrant0.md R138, 41_quadrant1.md R153,
41_quadrant1.md R164, 41_quadrant1.md R165, 42_quadrant2.md R194, 42_quadrant2.md R203. The seven RV64C-only entries
do what their bits do on RV32C (log 10). -/
def Obligations.RvSixtyFourEntriesMeanTheirBits : Prop :=
  (∀ (rd rs1 : RegP) (uimm : BitVec 8) (s : State),
      exec (.cLd rd rs1 uimm) s = exec (.cFlw rd rs1 (uimm.extractLsb 6 6 ++ uimm.extractLsb 5 3 ++
        uimm.extractLsb 7 7 ++ 0b00#2)) s ∧
      exec (.cSd rd rs1 uimm) s = exec (.cFsw rd rs1 (uimm.extractLsb 6 6 ++ uimm.extractLsb 5 3 ++
        uimm.extractLsb 7 7 ++ 0b00#2)) s) ∧
    (∀ (rd : Reg) (imm : BitVec 6) (s : State), exec (.cAddiw rd imm) s = exec (.cJal
      (imm.extractLsb 5 5 ++ rd.extractLsb 1 1 ++ rd.extractLsb 3 2 ++ imm.extractLsb 4 4 ++ rd.extractLsb 0 0 ++
        imm.extractLsb 0 0 ++ rd.extractLsb 4 4 ++ imm.extractLsb 3 1 ++ 0b0#1)) s) ∧
    (∀ (rd : Reg) (uimm : BitVec 9) (s : State),
      exec (.cLdsp rd uimm) s = exec (.cFlwsp rd (uimm.extractLsb 7 6 ++ uimm.extractLsb 5 5 ++
        uimm.extractLsb 4 3 ++ uimm.extractLsb 8 8 ++ 0b00#2)) s ∧
      exec (.cSdsp rd uimm) s = exec (.cFswsp rd (uimm.extractLsb 7 6 ++ uimm.extractLsb 5 3 ++
        uimm.extractLsb 8 8 ++ 0b00#2)) s) ∧
    (∀ (rd rs1 : RegP) (uimm : BitVec 8),
      decodeParcel (encode (.cLd rd rs1 uimm)) = .cFlw rd rs1 (uimm.extractLsb 6 6 ++ uimm.extractLsb 5 3 ++
        uimm.extractLsb 7 7 ++ 0b00#2) ∧
      decodeParcel (encode (.cSd rd rs1 uimm)) = .cFsw rd rs1 (uimm.extractLsb 6 6 ++ uimm.extractLsb 5 3 ++
        uimm.extractLsb 7 7 ++ 0b00#2)) ∧
    (∀ (rd : Reg) (imm : BitVec 6), decodeParcel (encode (.cAddiw rd imm)) = .cJal
      (imm.extractLsb 5 5 ++ rd.extractLsb 1 1 ++ rd.extractLsb 3 2 ++ imm.extractLsb 4 4 ++ rd.extractLsb 0 0 ++
        imm.extractLsb 0 0 ++ rd.extractLsb 4 4 ++ imm.extractLsb 3 1 ++ 0b0#1)) ∧
    (∀ (rd : Reg) (uimm : BitVec 9),
      decodeParcel (encode (.cLdsp rd uimm)) = .cFlwsp rd (uimm.extractLsb 7 6 ++ uimm.extractLsb 5 5 ++
        uimm.extractLsb 4 3 ++ uimm.extractLsb 8 8 ++ 0b00#2) ∧
      decodeParcel (encode (.cSdsp rd uimm)) = .cFswsp rd (uimm.extractLsb 7 6 ++ uimm.extractLsb 5 3 ++
        uimm.extractLsb 8 8 ++ 0b00#2)) ∧
    (∀ rd rs2 : RegP, decodeParcel (encode (.cSubw rd rs2)) = .illegalCSubw rd rs2 ∧
      decodeParcel (encode (.cAddw rd rs2)) = .illegalCAddw rd rs2) ∧
    (∀ (rd rs1 : RegP) (uimm : BitVec 8) (off : BitVec 7) (s : State) (a : Word), off = (uimm.extractLsb 6 6 ++
      uimm.extractLsb 5 3 ++ uimm.extractLsb 7 7 ++ 0b00#2) →
      a = plus (s.readX (primed rs1)) off.toNat → s.hasF = true → a.toNat % 4 = 0 → Readable s a 4 →
      ∃ t, exec (.cLd rd rs1 uimm) s = .next t ∧ OnlyF s t (primed rd) (plus s.pc 2) ∧
        t.readF32 (primed rd) = some (BitVec.ofNat 32 (bytesValue s a 4))) ∧
    (∀ (rd : Reg) (uimm : BitVec 9) (off : BitVec 8) (s : State) (a : Word), off = (uimm.extractLsb 7 6 ++
      uimm.extractLsb 5 5 ++ uimm.extractLsb 4 3 ++ uimm.extractLsb 8 8 ++ 0b00#2) →
      a = plus (s.readX 2#5) off.toNat → s.hasF = true → a.toNat % 4 = 0 → Readable s a 4 →
      ∃ t, exec (.cLdsp rd uimm) s = .next t ∧ OnlyF s t rd (plus s.pc 2) ∧
        t.readF32 rd = some (BitVec.ofNat 32 (bytesValue s a 4))) ∧
    (∀ (rs2 rs1 : RegP) (uimm : BitVec 8) (off : BitVec 7) (s : State) (a : Word), off = (uimm.extractLsb 6 6 ++
      uimm.extractLsb 5 3 ++ uimm.extractLsb 7 7 ++ 0b00#2) →
      a = plus (s.readX (primed rs1)) off.toNat → s.hasF = true → a.toNat % 4 = 0 → Writable s a 4 →
      ∃ (t : State) (v : Word), s.readF32 (primed rs2) = some v ∧ exec (.cSd rs2 rs1 uimm) s = .next t ∧
        OnlyStored s t a 4 v.toNat (plus s.pc 2)) ∧
    (∀ (rs2 : Reg) (uimm : BitVec 9) (off : BitVec 8) (s : State) (a : Word), off = (uimm.extractLsb 7 6 ++
      uimm.extractLsb 5 3 ++ uimm.extractLsb 8 8 ++ 0b00#2) →
      a = plus (s.readX 2#5) off.toNat → s.hasF = true → a.toNat % 4 = 0 → Writable s a 4 →
      ∃ (t : State) (v : Word), s.readF32 rs2 = some v ∧ exec (.cSdsp rs2 uimm) s = .next t ∧
        OnlyStored s t a 4 v.toNat (plus s.pc 2)) ∧
    (∀ (rd : Reg) (imm : BitVec 6) (off : BitVec 12) (s : State), off =
        (imm.extractLsb 5 5 ++ rd.extractLsb 1 1 ++ rd.extractLsb 3 2 ++ imm.extractLsb 4 4 ++ rd.extractLsb 0 0 ++
        imm.extractLsb 0 0 ++ rd.extractLsb 4 4 ++ imm.extractLsb 3 1 ++ 0b0#1) →
      ∃ t, exec (.cAddiw rd imm) s = .next t ∧ OnlyX s t 1#5 (plus s.pc 2) (pcPlus s off.toInt)) ∧
    (∀ (rd rs2 : RegP) (s : State),
      Raises (exec (.cSubw rd rs2) s) s .illegalInstruction
        (BitVec.ofNat 32 ((0b100111#6 ++ rd ++ 0b00#2 ++ rs2 ++ 0b01#2 : Parcel)).toNat) ∧
      Raises (exec (.cAddw rd rs2) s) s .illegalInstruction
        (BitVec.ofNat 32 ((0b100111#6 ++ rd ++ 0b01#2 ++ rs2 ++ 0b01#2 : Parcel)).toNat))

end
end

