-- ==== Sys2Proof/Laws/Memory.lean ====
section
/-! SUPPORT. The laws of memory: reading after erasing, inserting, writing and storing; every operation keeps the
canonical form. -/

namespace Sys2Proof.Machine

/-! ## One byte -/

@[simp] theorem Memory.read_nil (a : Nat) : Memory.read [] a = Config.unlistedByte := rfl

theorem Memory.read_cons (k : Nat) (c : Byte) (m : Memory) (a : Nat) :
    Memory.read ((k, c) :: m) a = if k = a then c else Memory.read m a := rfl

/-- An erased address reads as an unlisted one, and every other address as before. -/
theorem Memory.read_erase (m : Memory) (a b : Nat) :
    Memory.read (Memory.erase m a) b = if b = a then Config.unlistedByte else Memory.read m b := by
  induction m with
  | nil => simp [Memory.erase]
  | cons e m ih =>
    obtain ⟨k, c⟩ := e
    simp only [Memory.erase]
    split
    · rw [ih, Memory.read_cons]; split <;> grind
    · rw [Memory.read_cons, Memory.read_cons, ih]; split <;> grind

/-- An inserted address reads as the byte inserted, and every other address as before. -/
theorem Memory.read_insert (m : Memory) (a b : Nat) (v : Byte) :
    Memory.read (Memory.insert m a v) b = if b = a then v else Memory.read m b := by
  induction m with
  | nil => simp [Memory.insert, Memory.read_cons, eq_comm]
  | cons e m ih =>
    obtain ⟨k, c⟩ := e
    simp only [Memory.insert]
    split
    · simp only [Memory.read_cons]; grind
    · split
      · simp only [Memory.read_cons]; grind
      · simp only [Memory.read_cons, ih]; grind

/-- Reading after writing: the byte written at its address, and every other address as before. -/
theorem Memory.read_write (m : Memory) (a b : Nat) (v : Byte) :
    Memory.read (Memory.write m a v) b = if b = a then v else Memory.read m b := by
  unfold Memory.write
  split
  · subst v; exact Memory.read_erase m a b
  · exact Memory.read_insert m a b v

/-! ## The canonical form -/

theorem Memory.wfFrom_cons {lo k : Nat} {c : Byte} {m : Memory} :
    Memory.wfFrom lo ((k, c) :: m) = true ↔
      lo ≤ k ∧ k < 2 ^ 32 ∧ c ≠ Config.unlistedByte ∧ Memory.wfFrom (k + 1) m = true := by
  simp [Memory.wfFrom, and_assoc]

/-- A smaller bound asks less. -/
theorem Memory.wfFrom_mono {lo hi : Nat} {m : Memory} (h : lo ≤ hi) (hm : Memory.wfFrom hi m = true) :
    Memory.wfFrom lo m = true := by
  cases m with
  | nil => rfl
  | cons e m =>
    obtain ⟨k, c⟩ := e
    rw [Memory.wfFrom_cons] at *
    exact ⟨by omega, hm.2⟩

theorem Memory.wfFrom_erase {m : Memory} {lo : Nat} (a : Nat) (hm : Memory.wfFrom lo m = true) :
    Memory.wfFrom lo (Memory.erase m a) = true := by
  induction m generalizing lo with
  | nil => rfl
  | cons e m ih =>
    obtain ⟨k, c⟩ := e
    rw [Memory.wfFrom_cons] at hm
    simp only [Memory.erase]
    split
    · exact ih (Memory.wfFrom_mono (by omega) hm.2.2.2)
    · exact Memory.wfFrom_cons.2 ⟨hm.1, hm.2.1, hm.2.2.1, ih hm.2.2.2⟩

theorem Memory.wfFrom_insert {m : Memory} {lo a : Nat} {v : Byte} (hlo : lo ≤ a) (ha : a < 2 ^ 32)
    (hv : v ≠ Config.unlistedByte) (hm : Memory.wfFrom lo m = true) :
    Memory.wfFrom lo (Memory.insert m a v) = true := by
  induction m generalizing lo with
  | nil => exact Memory.wfFrom_cons.2 ⟨hlo, ha, hv, rfl⟩
  | cons e m ih =>
    obtain ⟨k, c⟩ := e
    rw [Memory.wfFrom_cons] at hm
    simp only [Memory.insert]
    split
    · exact Memory.wfFrom_cons.2 ⟨hlo, ha, hv, Memory.wfFrom_cons.2 ⟨by omega, hm.2⟩⟩
    · split
      · rename_i h; subst h
        exact Memory.wfFrom_cons.2 ⟨hlo, ha, hv, hm.2.2.2⟩
      · exact Memory.wfFrom_cons.2 ⟨hm.1, hm.2.1, hm.2.2.1, ih (by omega) hm.2.2.2⟩

/-- A write of one byte keeps the canonical form. -/
theorem Memory.wf_write {m : Memory} {a : Nat} (v : Byte) (ha : a < 2 ^ 32) (hm : Memory.wf m = true) :
    Memory.wf (Memory.write m a v) = true := by
  unfold Memory.write
  split
  · exact Memory.wfFrom_erase a hm
  · rename_i h; exact Memory.wfFrom_insert (Nat.zero_le a) ha h hm

/-- A store of any bytes keeps the canonical form. -/
theorem Memory.wf_writeBytes {m : Memory} (a : Word) (l : List Byte) (hm : Memory.wf m = true) :
    Memory.wf (Memory.writeBytes m a l) = true := by
  induction l generalizing m a with
  | nil => exact hm
  | cons b bs ih => exact ih (a + 1) (Memory.wf_write b a.isLt hm)

/-- Reset memory has the canonical form. -/
theorem Memory.wf_reset : Memory.wf State.reset.mem = true := rfl

/-! ## Several bytes -/

/-- Reading after a store: at a distance below the number of bytes stored, the byte stored there; elsewhere as before. -/
theorem Memory.read_writeBytes (m : Memory) (a b : Word) (l : List Byte) (hl : l.length ≤ 2 ^ 32) :
    Memory.read (Memory.writeBytes m a l) b.toNat =
      if (b - a).toNat < l.length then l.getD (b - a).toNat 0 else Memory.read m b.toNat := by
  induction l generalizing m a with
  | nil => simp [Memory.writeBytes]
  | cons v vs ih =>
    have hl' : vs.length + 1 ≤ 2 ^ 32 := hl
    simp only [Memory.writeBytes]
    rw [ih _ _ (by omega), Memory.read_write]
    by_cases hba : b = a
    · subst hba
      have h1 : (b - (b + 1)).toNat = 2 ^ 32 - 1 := by
        have h : b.toNat < 2 ^ 32 := b.isLt
        have h1 : (1 : Word).toNat = 1 := rfl
        rw [BitVec.toNat_sub, BitVec.toNat_add, h1]
        omega
      rw [if_neg (by omega)]
      simp
    · have hne : b.toNat ≠ a.toNat := fun h => hba (BitVec.eq_of_toNat_eq h)
      have hd : (b - a).toNat = (b - (a + 1)).toNat + 1 := by
        bv_omega
      rw [if_neg hne, hd]
      simp

/-- A byte of a store reads as the byte stored there. -/
theorem State.byteAt_storeBytes (s : State) (a b : Word) (l : List Byte) (hl : l.length ≤ 2 ^ 32) :
    (s.storeBytes a l).byteAt b = if (b - a).toNat < l.length then l.getD (b - a).toNat 0 else s.byteAt b :=
  Memory.read_writeBytes s.mem a b l hl

@[simp] theorem length_bytesOfWord (v : Word) : (bytesOfWord v).length = 4 := rfl
@[simp] theorem length_bytesOfDWord (v : DWord) : (bytesOfDWord v).length = 8 := rfl

/-- Byte `k` of a word, as a number (R53). -/
theorem getD_bytesOfWord (v : Word) {k : Nat} (hk : k < 4) :
    (bytesOfWord v).getD k 0 = BitVec.ofNat 8 (v.toNat / 2 ^ (8 * k)) := by
  have h : k = 0 ∨ k = 1 ∨ k = 2 ∨ k = 3 := by omega
  rcases h with rfl | rfl | rfl | rfl <;> apply BitVec.eq_of_toNat_eq <;>
    simp [bytesOfWord, BitVec.extractLsb_toNat, Nat.shiftRight_eq_div_pow]

/-- Byte `k` of a doubleword, as a number (R53). -/
theorem getD_bytesOfDWord (v : DWord) {k : Nat} (hk : k < 8) :
    (bytesOfDWord v).getD k 0 = BitVec.ofNat 8 (v.toNat / 2 ^ (8 * k)) := by
  have h : k = 0 ∨ k = 1 ∨ k = 2 ∨ k = 3 ∨ k = 4 ∨ k = 5 ∨ k = 6 ∨ k = 7 := by omega
  rcases h with rfl | rfl | rfl | rfl | rfl | rfl | rfl | rfl <;> apply BitVec.eq_of_toNat_eq <;>
    simp [bytesOfDWord, bytesOfWord, BitVec.extractLsb_toNat, Nat.shiftRight_eq_div_pow] <;> omega

end Sys2Proof.Machine
end

