-- ==== Sys2Proof/Laws/State.lean ====
section
/-! SUPPORT. One lemma per field of State per update, and the laws of the register files. -/

namespace Sys2Proof.Machine

/-! ## `setPc` -/

@[simp] theorem State.setPc_x (s : State) (t : Word) : (s.setPc t).x = s.x := rfl
@[simp] theorem State.setPc_pc (s : State) (t : Word) : (s.setPc t).pc = t := rfl
@[simp] theorem State.setPc_f (s : State) (t : Word) : (s.setPc t).f = s.f := rfl
@[simp] theorem State.setPc_mem (s : State) (t : Word) : (s.setPc t).mem = s.mem := rfl
@[simp] theorem State.setPc_map (s : State) (t : Word) : (s.setPc t).map = s.map := rfl
@[simp] theorem State.setPc_readX (s : State) (t : Word) (r : Reg) : (s.setPc t).readX r = s.readX r := rfl
@[simp] theorem State.setPc_readF32 (s : State) (t : Word) (r : Reg) : (s.setPc t).readF32 r = s.readF32 r := rfl
@[simp] theorem State.setPc_readF64 (s : State) (t : Word) (r : Reg) : (s.setPc t).readF64 r = s.readF64 r := rfl
@[simp] theorem State.setPc_hasF (s : State) (t : Word) : (s.setPc t).hasF = s.hasF := rfl
@[simp] theorem State.setPc_hasD (s : State) (t : Word) : (s.setPc t).hasD = s.hasD := rfl
@[simp] theorem State.setPc_byteAt (s : State) (t a : Word) : (s.setPc t).byteAt a = s.byteAt a := rfl

/-! ## `advance` -/

@[simp] theorem State.advance_x (s : State) : s.advance.x = s.x := rfl
@[simp] theorem State.advance_pc (s : State) : s.advance.pc = s.pc + 2#32 := rfl
@[simp] theorem State.advance_f (s : State) : s.advance.f = s.f := rfl
@[simp] theorem State.advance_mem (s : State) : s.advance.mem = s.mem := rfl
@[simp] theorem State.advance_map (s : State) : s.advance.map = s.map := rfl
@[simp] theorem State.advance_readX (s : State) (r : Reg) : s.advance.readX r = s.readX r := rfl
@[simp] theorem State.advance_readF32 (s : State) (r : Reg) : s.advance.readF32 r = s.readF32 r := rfl
@[simp] theorem State.advance_readF64 (s : State) (r : Reg) : s.advance.readF64 r = s.readF64 r := rfl
@[simp] theorem State.advance_hasF (s : State) : s.advance.hasF = s.hasF := rfl
@[simp] theorem State.advance_hasD (s : State) : s.advance.hasD = s.hasD := rfl
@[simp] theorem State.advance_byteAt (s : State) (a : Word) : s.advance.byteAt a = s.byteAt a := rfl

/-! ## `writeX` -/

@[simp] theorem State.writeX_pc (s : State) (i : Reg) (v : Word) : (s.writeX i v).pc = s.pc := by
  unfold State.writeX; split <;> rfl
@[simp] theorem State.writeX_f (s : State) (i : Reg) (v : Word) : (s.writeX i v).f = s.f := by
  unfold State.writeX; split <;> rfl
@[simp] theorem State.writeX_mem (s : State) (i : Reg) (v : Word) : (s.writeX i v).mem = s.mem := by
  unfold State.writeX; split <;> rfl
@[simp] theorem State.writeX_map (s : State) (i : Reg) (v : Word) : (s.writeX i v).map = s.map := by
  unfold State.writeX; split <;> rfl
@[simp] theorem State.writeX_byteAt (s : State) (i : Reg) (v a : Word) : (s.writeX i v).byteAt a = s.byteAt a := by
  simp [State.byteAt]
@[simp] theorem State.writeX_nextPc (s : State) (i : Reg) (v : Word) : (s.writeX i v).nextPc = s.nextPc := by
  simp [State.nextPc]

/-- The stored element of `x[0]` is never written (R22). -/
@[simp] theorem State.writeX_x_zero (s : State) (i : Reg) (v : Word) : (s.writeX i v).x[0] = s.x[0] := by
  unfold State.writeX
  split
  · rfl
  · rename_i h
    have hi : i.toNat ≠ 0 := fun h0 => h (BitVec.eq_of_toNat_eq (by simpa using h0))
    exact Vector.getElem_set_ne i.isLt (by decide) hi

/-- "`x[0]` reads as 0" (R22). -/
@[simp] theorem State.readX_zero (s : State) : s.readX 0#5 = 0#32 := by simp [State.readX]

/-- A write to `x[0]` is discarded (R22). -/
@[simp] theorem State.writeX_zero (s : State) (v : Word) : s.writeX 0#5 v = s := by simp [State.writeX]

/-- Reading a register after writing one. -/
theorem State.readX_writeX (s : State) (i j : Reg) (v : Word) :
    (s.writeX i v).readX j = if j = i then (if i = 0#5 then 0#32 else v) else s.readX j := by
  by_cases hi : i = 0#5
  · subst hi
    by_cases hj : j = 0#5 <;> simp [hj]
  · by_cases hji : j = i
    · subst hji
      simp [State.readX, State.writeX, hi]
    · have hne : i.toNat ≠ j.toNat := fun h => hji (BitVec.eq_of_toNat_eq h.symm)
      simp only [State.readX, State.writeX, hi, hji, if_false]
      split
      · rfl
      · exact Vector.getElem_set_ne i.isLt j.isLt hne

theorem State.readX_writeX_same (s : State) (i : Reg) (v : Word) :
    (s.writeX i v).readX i = if i = 0#5 then 0#32 else v := by simp [State.readX_writeX]

theorem State.readX_writeX_ne (s : State) {i j : Reg} (v : Word) (h : j ≠ i) :
    (s.writeX i v).readX j = s.readX j := by simp [State.readX_writeX, h]

/-- `readX` depends on the integer registers only. -/
theorem State.readX_congr {s t : State} (h : t.x = s.x) (r : Reg) : t.readX r = s.readX r := by
  simp [State.readX, h]

/-! ## `writeF32` and `writeF64` -/

@[simp] theorem State.writeF32_x (s : State) (i : Reg) (v : Word) : (s.writeF32 i v).x = s.x := by
  unfold State.writeF32; split <;> rfl
@[simp] theorem State.writeF32_pc (s : State) (i : Reg) (v : Word) : (s.writeF32 i v).pc = s.pc := by
  unfold State.writeF32; split <;> rfl
@[simp] theorem State.writeF32_mem (s : State) (i : Reg) (v : Word) : (s.writeF32 i v).mem = s.mem := by
  unfold State.writeF32; split <;> rfl
@[simp] theorem State.writeF32_map (s : State) (i : Reg) (v : Word) : (s.writeF32 i v).map = s.map := by
  unfold State.writeF32; split <;> rfl
@[simp] theorem State.writeF32_readX (s : State) (i : Reg) (v : Word) (r : Reg) :
    (s.writeF32 i v).readX r = s.readX r := State.readX_congr (by simp) r
@[simp] theorem State.writeF32_byteAt (s : State) (i : Reg) (v a : Word) :
    (s.writeF32 i v).byteAt a = s.byteAt a := by simp [State.byteAt]
@[simp] theorem State.writeF32_hasF (s : State) (i : Reg) (v : Word) : (s.writeF32 i v).hasF = s.hasF := by
  obtain ⟨x, pc, f, mem, map⟩ := s; cases f <;> rfl
@[simp] theorem State.writeF32_hasD (s : State) (i : Reg) (v : Word) : (s.writeF32 i v).hasD = s.hasD := by
  obtain ⟨x, pc, f, mem, map⟩ := s; cases f <;> rfl

@[simp] theorem State.writeF64_x (s : State) (i : Reg) (v : DWord) : (s.writeF64 i v).x = s.x := by
  unfold State.writeF64; split <;> rfl
@[simp] theorem State.writeF64_pc (s : State) (i : Reg) (v : DWord) : (s.writeF64 i v).pc = s.pc := by
  unfold State.writeF64; split <;> rfl
@[simp] theorem State.writeF64_mem (s : State) (i : Reg) (v : DWord) : (s.writeF64 i v).mem = s.mem := by
  unfold State.writeF64; split <;> rfl
@[simp] theorem State.writeF64_map (s : State) (i : Reg) (v : DWord) : (s.writeF64 i v).map = s.map := by
  unfold State.writeF64; split <;> rfl
@[simp] theorem State.writeF64_readX (s : State) (i : Reg) (v : DWord) (r : Reg) :
    (s.writeF64 i v).readX r = s.readX r := State.readX_congr (by simp) r
@[simp] theorem State.writeF64_byteAt (s : State) (i : Reg) (v : DWord) (a : Word) :
    (s.writeF64 i v).byteAt a = s.byteAt a := by simp [State.byteAt]
@[simp] theorem State.writeF64_hasF (s : State) (i : Reg) (v : DWord) : (s.writeF64 i v).hasF = s.hasF := by
  obtain ⟨x, pc, f, mem, map⟩ := s; cases f <;> rfl
@[simp] theorem State.writeF64_hasD (s : State) (i : Reg) (v : DWord) : (s.writeF64 i v).hasD = s.hasD := by
  obtain ⟨x, pc, f, mem, map⟩ := s; cases f <;> rfl

/-- The low 32 bits of a boxed word are the word (R32). -/
@[simp] theorem nanBox_low (v : Word) : (nanBox v).extractLsb 31 0 = v := by
  apply BitVec.eq_of_getLsbD_eq
  intro k hk
  have h : k < 32 := hk
  have e : (nanBox v).getLsbD k = v.getLsbD k :=
    (BitVec.getLsbD_append (x := 0xFFFFFFFF#32) (y := v) (i := k)).trans (by simp only [h, if_true])
  simp only [BitVec.getLsbD_extractLsb, Nat.zero_add, e]
  simp [h]

/-- Two registers have one number exactly when they are the same. -/
theorem Reg.toNat_eq {i j : Reg} : i.toNat = j.toNat ↔ j = i :=
  ⟨fun e => BitVec.eq_of_toNat_eq e.symm, fun e => by rw [e]⟩

/-- Reading the low word of an `f` register after a 4-byte load, when the register file is present. -/
theorem State.readF32_writeF32 (s : State) (i j : Reg) (v : Word) (h : s.hasF = true) :
    (s.writeF32 i v).readF32 j = if j = i then some v else s.readF32 j := by
  obtain ⟨x, pc, f, mem, map⟩ := s
  cases f with
  | absent => simp [State.hasF] at h
  | single regs => by_cases hji : j = i <;> simp [State.writeF32, State.readF32, Reg.toNat_eq, hji]
  | double regs => by_cases hji : j = i <;> simp [State.writeF32, State.readF32, Reg.toNat_eq, hji]

/-- Reading 64 bits of an `f` register after a 4-byte load into a 64-bit register file: the word is NaN-boxed (R32). -/
theorem State.readF64_writeF32 (s : State) (i j : Reg) (v : Word) (h : s.hasD = true) :
    (s.writeF32 i v).readF64 j = if j = i then some (nanBox v) else s.readF64 j := by
  obtain ⟨x, pc, f, mem, map⟩ := s
  cases f with
  | absent => simp [State.hasD] at h
  | single regs => simp [State.hasD] at h
  | double regs => by_cases hji : j = i <;> simp [State.writeF32, State.readF64, Reg.toNat_eq, hji]

/-- Reading 64 bits of an `f` register after an 8-byte load. -/
theorem State.readF64_writeF64 (s : State) (i j : Reg) (v : DWord) (h : s.hasD = true) :
    (s.writeF64 i v).readF64 j = if j = i then some v else s.readF64 j := by
  obtain ⟨x, pc, f, mem, map⟩ := s
  cases f with
  | absent => simp [State.hasD] at h
  | single regs => simp [State.hasD] at h
  | double regs => by_cases hji : j = i <;> simp [State.writeF64, State.readF64, Reg.toNat_eq, hji]

/-- An `f` register that a 4-byte load does not write keeps all its bits. -/
theorem State.writeF32_other (s : State) {i j : Reg} (v : Word) (h : j ≠ i) :
    (s.writeF32 i v).readF32 j = s.readF32 j ∧ (s.writeF32 i v).readF64 j = s.readF64 j := by
  obtain ⟨x, pc, f, mem, map⟩ := s
  cases f <;> simp [State.writeF32, State.readF32, State.readF64, Reg.toNat_eq, h]

/-- An `f` register that an 8-byte load does not write keeps all its bits. -/
theorem State.writeF64_other (s : State) {i j : Reg} (v : DWord) (h : j ≠ i) :
    (s.writeF64 i v).readF32 j = s.readF32 j ∧ (s.writeF64 i v).readF64 j = s.readF64 j := by
  obtain ⟨x, pc, f, mem, map⟩ := s
  cases f <;> simp [State.writeF64, State.readF32, State.readF64, Reg.toNat_eq, h]

/-- `HAS_F` is what makes the low word readable (R31). -/
theorem State.readF32_isSome (s : State) (i : Reg) : (s.readF32 i).isSome = s.hasF := by
  obtain ⟨x, pc, f, mem, map⟩ := s; cases f <;> rfl

/-- `HAS_D` is what makes 64 bits readable (R31). -/
theorem State.readF64_isSome (s : State) (i : Reg) : (s.readF64 i).isSome = s.hasD := by
  obtain ⟨x, pc, f, mem, map⟩ := s; cases f <;> rfl

theorem State.readF32_eq_none (s : State) (i : Reg) : s.readF32 i = none ↔ s.hasF = false := by
  rw [← State.readF32_isSome s i]; cases s.readF32 i <;> simp

theorem State.readF64_eq_none (s : State) (i : Reg) : s.readF64 i = none ↔ s.hasD = false := by
  rw [← State.readF64_isSome s i]; cases s.readF64 i <;> simp

/-- `HAS_D -> HAS_F` (R6). -/
theorem State.hasF_of_hasD (s : State) (h : s.hasD = true) : s.hasF = true := by
  obtain ⟨x, pc, f, mem, map⟩ := s; cases f <;> simp_all [State.hasD, State.hasF]

/-! ## `storeBytes` and `loadText` -/

@[simp] theorem State.storeBytes_x (s : State) (a : Word) (l : List Byte) : (s.storeBytes a l).x = s.x := rfl
@[simp] theorem State.storeBytes_pc (s : State) (a : Word) (l : List Byte) : (s.storeBytes a l).pc = s.pc := rfl
@[simp] theorem State.storeBytes_f (s : State) (a : Word) (l : List Byte) : (s.storeBytes a l).f = s.f := rfl
@[simp] theorem State.storeBytes_mem (s : State) (a : Word) (l : List Byte) :
    (s.storeBytes a l).mem = Memory.writeBytes s.mem a l := rfl
@[simp] theorem State.storeBytes_map (s : State) (a : Word) (l : List Byte) : (s.storeBytes a l).map = s.map := rfl
@[simp] theorem State.storeBytes_readX (s : State) (a : Word) (l : List Byte) (r : Reg) :
    (s.storeBytes a l).readX r = s.readX r := rfl
@[simp] theorem State.loadText_x (s : State) (l : List Byte) : (s.loadText l).x = s.x := rfl
@[simp] theorem State.loadText_pc (s : State) (l : List Byte) : (s.loadText l).pc = s.pc := rfl
@[simp] theorem State.loadText_f (s : State) (l : List Byte) : (s.loadText l).f = s.f := rfl
@[simp] theorem State.loadText_mem (s : State) (l : List Byte) :
    (s.loadText l).mem = Memory.writeBytes s.mem s.pc l := rfl

@[simp] theorem State.loadText_map (s : State) (l : List Byte) :
    (s.loadText l).map = MemMap.makeText (MemMap.makeText s.map s.pc) (s.pc + 1) := rfl

/-! ## Register numbers -/

/-- A primed field names one of `x8` to `x15` (R13). -/
theorem regP_toNat (r : RegP) : (regP r).toNat = 8 + r.toNat := by
  have h : ∀ r : RegP, (regP r).toNat = 8 + r.toNat := by decide
  exact h r

theorem regP_ne_zero (r : RegP) : regP r ≠ 0#5 := by
  have h : ∀ r : RegP, regP r ≠ 0#5 := by decide
  exact h r

theorem regP_injective {a b : RegP} (h : regP a = regP b) : a = b := by
  have h' : ∀ a b : RegP, regP a = regP b → a = b := by decide
  exact h' a b h

end Sys2Proof.Machine
end

