-- ==== Sys2Proof/Laws/Ops.lean ====
section
/-! SUPPORT. One lemma per shared operation that says once what it does: when it answers a next state and which, and
when it raises and what. -/

namespace Sys2Proof.Machine

/-! ## Taking an exception -/

/-- An exception hands out the record and the state as it was (R223, R224). -/
theorem raise_eq (c : Cause) (tval : Word) (s : State) : raise c tval s = .fault (.trap ⟨c, s.pc, tval⟩ s) := rfl

@[simp] theorem raise_ne_next (c : Cause) (tval : Word) (s t : State) : raise c tval s ≠ .next t := by simp [raise]

@[simp] theorem raise_ne_refused (c : Cause) (tval : Word) (s : State) (r : Refusal) : raise c tval s ≠ .refused r := by
  simp [raise]

@[simp] theorem raiseIllegal_ne_next (w : Parcel) (s t : State) : raiseIllegal w s ≠ .next t := by simp [raiseIllegal]

/-- What an exception that has been raised was. -/
theorem raise_fault {c : Cause} {tval : Word} {s t : State} {r : Trap} (h : raise c tval s = .fault (.trap r t)) :
    r = ⟨c, s.pc, tval⟩ ∧ t = s := by
  simp [raise] at h; exact ⟨h.1.symm, h.2.symm⟩

/-! ## The checks -/

theorem aligned_iff (n : Nat) (a : Word) : aligned n a = true ↔ a.toNat % n = 0 := by simp [aligned]

/-- Every one of the `n` bytes satisfies `ok`. -/
theorem allBytes_iff (ok : Word → Bool) (a : Word) (n : Nat) :
    allBytes ok a n = true ↔ ∀ k : Nat, k < n → ok (a + BitVec.ofNat 32 k) = true := by
  induction n generalizing a with
  | zero => simp [allBytes]
  | succ n ih =>
    have e : ∀ k : Nat, a + 1 + BitVec.ofNat 32 k = a + BitVec.ofNat 32 (k + 1) := by
      intro k; rw [BitVec.ofNat_add]; ac_rfl
    simp only [allBytes, Bool.and_eq_true, ih, e]
    constructor
    · rintro ⟨h0, h⟩ k hk
      cases k with
      | zero => simpa using h0
      | succ k => exact h k (by omega)
    · intro h
      exact ⟨by simpa using h 0 (by omega), fun k hk => h (k + 1) (by omega)⟩

/-- A load passes its checks exactly when it is aligned and every byte is readable (R52). -/
theorem loadCheck_eq_none {n : Nat} {a : Word} {s : State} :
    loadCheck n a s = none ↔ aligned n a = true ∧ allBytes (MemMap.readable s.map) a n = true := by
  unfold loadCheck
  cases aligned n a <;> cases allBytes (MemMap.readable s.map) a n <;> simp

/-- The exception of a load: misaligned first, then not readable (R52, R225). -/
theorem loadCheck_eq_some {n : Nat} {a : Word} {s : State} {c : Cause} :
    loadCheck n a s = some c ↔ (aligned n a = false ∧ c = .loadAddressMisaligned) ∨
      (aligned n a = true ∧ allBytes (MemMap.readable s.map) a n = false ∧ c = .loadAccessFault) := by
  unfold loadCheck
  cases aligned n a <;> cases allBytes (MemMap.readable s.map) a n <;> simp [eq_comm]

/-- A store passes its checks exactly when it is aligned and every byte is writable (R53). -/
theorem storeCheck_eq_none {n : Nat} {a : Word} {s : State} :
    storeCheck n a s = none ↔ aligned n a = true ∧ allBytes (MemMap.writable s.map) a n = true := by
  unfold storeCheck
  cases aligned n a <;> cases allBytes (MemMap.writable s.map) a n <;> simp

/-- The exception of a store: misaligned first, then not writable (R53, R225). -/
theorem storeCheck_eq_some {n : Nat} {a : Word} {s : State} {c : Cause} :
    storeCheck n a s = some c ↔ (aligned n a = false ∧ c = .storeAddressMisaligned) ∨
      (aligned n a = true ∧ allBytes (MemMap.writable s.map) a n = false ∧ c = .storeAccessFault) := by
  unfold storeCheck
  cases aligned n a <;> cases allBytes (MemMap.writable s.map) a n <;> simp [eq_comm]

/-- The fetch, case by case (R63; log 9). -/
theorem memFetch_eq (s : State) :
    memFetch s = if aligned 2 s.pc = false then .oddPc
      else if allBytes (MemMap.executable s.map) s.pc 2 = false then .accessFault
      else .parcel (s.parcelAt s.pc) := rfl

/-! ## How an instruction ends -/

theorem finishX_eq (rd : Reg) (v : Word) (s : State) : finishX rd v s = .next (s.writeX rd v).advance := rfl

theorem loadX_eq (rd : Reg) (a : Word) (s : State) :
    loadX rd a s = match loadCheck 4 a s with
      | some c => raise c a s
      | none => .next (s.writeX rd (s.wordAt a)).advance := by
  unfold loadX memRead4; cases loadCheck 4 a s <;> rfl

theorem store4_eq (a v : Word) (s : State) :
    store4 a v s = match storeCheck 4 a s with
      | some c => raise c a s
      | none => .next (s.storeBytes a (bytesOfWord v)).advance := by
  unfold store4 memWrite4; cases storeCheck 4 a s <;> rfl

theorem store8_eq (a : Word) (v : DWord) (s : State) :
    store8 a v s = match storeCheck 8 a s with
      | some c => raise c a s
      | none => .next (s.storeBytes a (bytesOfDWord v)).advance := by
  unfold store8 memWrite8; cases storeCheck 8 a s <;> rfl

theorem loadF4_eq (w : Parcel) (rd : Reg) (a : Word) (s : State) :
    loadF4 w rd a s = if s.hasF = false then raiseIllegal w s
      else match loadCheck 4 a s with
        | some c => raise c a s
        | none => .next (s.writeF32 rd (s.wordAt a)).advance := by
  unfold loadF4 memRead4; cases loadCheck 4 a s <;> rfl

theorem loadF8_eq (w : Parcel) (rd : Reg) (a : Word) (s : State) :
    loadF8 w rd a s = if s.hasD = false then raiseIllegal w s
      else match loadCheck 8 a s with
        | some c => raise c a s
        | none => .next (s.writeF64 rd (s.dwordAt a)).advance := by
  unfold loadF8 memRead8; cases loadCheck 8 a s <;> rfl

theorem storeF4_of_absent {w : Parcel} {rs2 : Reg} {a : Word} {s : State} (h : s.hasF = false) :
    storeF4 w rs2 a s = raiseIllegal w s := by
  unfold storeF4; rw [(State.readF32_eq_none s rs2).2 h]

theorem storeF8_of_absent {w : Parcel} {rs2 : Reg} {a : Word} {s : State} (h : s.hasD = false) :
    storeF8 w rs2 a s = raiseIllegal w s := by
  unfold storeF8; rw [(State.readF64_eq_none s rs2).2 h]

theorem storeF4_of_read {w : Parcel} {rs2 : Reg} {a v : Word} {s : State} (h : s.readF32 rs2 = some v) :
    storeF4 w rs2 a s = store4 a v s := by
  unfold storeF4; rw [h]

theorem storeF8_of_read {w : Parcel} {rs2 : Reg} {a : Word} {v : DWord} {s : State} (h : s.readF64 rs2 = some v) :
    storeF8 w rs2 a s = store8 a v s := by
  unfold storeF8; rw [h]

/-- If a load into an `x` register answers a next state, its checks passed and the state is that one. -/
theorem loadX_next {rd : Reg} {a : Word} {s t : State} (h : loadX rd a s = .next t) :
    loadCheck 4 a s = none ∧ t = (s.writeX rd (s.wordAt a)).advance := by
  rw [loadX_eq] at h
  split at h
  · simp at h
  · rename_i hc; exact ⟨hc, by simpa using h.symm⟩

theorem store4_next {a v : Word} {s t : State} (h : store4 a v s = .next t) :
    storeCheck 4 a s = none ∧ t = (s.storeBytes a (bytesOfWord v)).advance := by
  rw [store4_eq] at h
  split at h
  · simp at h
  · rename_i hc; exact ⟨hc, by simpa using h.symm⟩

theorem store8_next {a : Word} {v : DWord} {s t : State} (h : store8 a v s = .next t) :
    storeCheck 8 a s = none ∧ t = (s.storeBytes a (bytesOfDWord v)).advance := by
  rw [store8_eq] at h
  split at h
  · simp at h
  · rename_i hc; exact ⟨hc, by simpa using h.symm⟩

theorem loadF4_next {w : Parcel} {rd : Reg} {a : Word} {s t : State} (h : loadF4 w rd a s = .next t) :
    s.hasF = true ∧ loadCheck 4 a s = none ∧ t = (s.writeF32 rd (s.wordAt a)).advance := by
  rw [loadF4_eq] at h
  split at h
  · simp at h
  · split at h
    · simp at h
    · rename_i hf _ hc; exact ⟨by simpa using hf, hc, by simpa using h.symm⟩

theorem loadF8_next {w : Parcel} {rd : Reg} {a : Word} {s t : State} (h : loadF8 w rd a s = .next t) :
    s.hasD = true ∧ loadCheck 8 a s = none ∧ t = (s.writeF64 rd (s.dwordAt a)).advance := by
  rw [loadF8_eq] at h
  split at h
  · simp at h
  · split at h
    · simp at h
    · rename_i hf _ hc; exact ⟨by simpa using hf, hc, by simpa using h.symm⟩

theorem storeF4_next {w : Parcel} {rs2 : Reg} {a : Word} {s t : State} (h : storeF4 w rs2 a s = .next t) :
    ∃ v, s.readF32 rs2 = some v ∧ storeCheck 4 a s = none ∧ t = (s.storeBytes a (bytesOfWord v)).advance := by
  unfold storeF4 at h
  split at h
  · simp at h
  · rename_i v hv; exact ⟨v, hv, store4_next h⟩

theorem storeF8_next {w : Parcel} {rs2 : Reg} {a : Word} {s t : State} (h : storeF8 w rs2 a s = .next t) :
    ∃ v, s.readF64 rs2 = some v ∧ storeCheck 8 a s = none ∧ t = (s.storeBytes a (bytesOfDWord v)).advance := by
  unfold storeF8 at h
  split at h
  · simp at h
  · rename_i v hv; exact ⟨v, hv, store8_next h⟩

theorem jumpAndLink_eq (target : Word) (s : State) :
    jumpAndLink target s = .next ((s.writeX 1#5 (s.pc + 2#32)).setPc target) := rfl

theorem branch_eq (taken : Bool) (offset : Word) (s : State) :
    branch taken offset s = .next (if taken then s.setPc (s.pc + offset) else s.advance) := rfl

/-! ## The map -/

/-- The map of loaded text: executable and not writable at the byte, as before elsewhere (R68). -/
theorem MemMap.perms_makeText (m : MemMap) (a b : Word) :
    MemMap.perms (MemMap.makeText m a) b =
      if b = a then some ⟨MemMap.readable m a, false, true⟩ else MemMap.perms m b := by
  have h : Region.holds ⟨a.toNat, 1, ⟨MemMap.readable m a, false, true⟩⟩ b = decide (b = a) := by
    rw [Bool.eq_iff_iff]
    simp only [Region.holds, Bool.and_eq_true, decide_eq_true_eq]
    constructor
    · intro hb; exact BitVec.eq_of_toNat_eq (by omega)
    · rintro rfl; omega
  simp [MemMap.makeText, MemMap.perms, h]

theorem MemMap.executable_makeText (m : MemMap) (a b : Word) :
    MemMap.executable (MemMap.makeText m a) b = (decide (b = a) || MemMap.executable m b) := by
  unfold MemMap.executable
  rw [MemMap.perms_makeText]
  by_cases h : b = a <;> simp [h]

/-- Loading text keeps the launch premise (R58, R68). -/
theorem MemMap.exclusive_makeText (m : MemMap) (a : Word) :
    MemMap.exclusive (MemMap.makeText m a) = MemMap.exclusive m := by
  simp [MemMap.makeText, MemMap.exclusive]

/-- Under the launch premise no byte is both writable and executable (R68). -/
theorem MemMap.not_writable_of_executable {m : MemMap} (h : MemMap.exclusive m = true) (a : Word)
    (hx : MemMap.executable m a = true) : MemMap.writable m a = false := by
  induction m with
  | nil => rfl
  | cons g m ih =>
    simp only [MemMap.exclusive, List.all_cons, Bool.and_eq_true] at h
    simp only [MemMap.executable, MemMap.writable, MemMap.perms] at *
    split at hx
    · rename_i p hp
      by_cases hg : Region.holds g a = true
      · simp only [hg, if_true, Option.some.injEq] at hp ⊢
        subst hp
        have h1 := h.1
        rw [hx] at h1
        simpa using h1
      · simp only [hg, Bool.false_eq_true, if_false] at hp
        have h2 := ih h.2 (by rw [hp]; exact hx)
        rw [hp] at h2
        exact h2
    · simp at hx

end Sys2Proof.Machine
end

