-- ==== Sys2Proof/Laws/Terms.lean ====
section
/-! SUPPORT. The terms of Safety.lean and the operations of the model say the same: addresses and targets, values in
memory, the frame of each way an instruction ends, and how a run ends. -/

namespace Sys2Proof.Machine

/-! ## Addresses and targets -/

theorem plus_eq (a : Word) (n : Nat) : plus a n = a + BitVec.ofNat 32 n := by
  apply BitVec.eq_of_toNat_eq; simp [plus, BitVec.toNat_add]

@[simp] theorem plus_two (a : Word) : plus a 2 = a + 2#32 := plus_eq a 2

theorem plus_eq_add_zext {n : Nat} (a : Word) (b : BitVec n) : plus a b.toNat = a + zext b := by
  rw [plus_eq]; congr 1
  apply BitVec.eq_of_toNat_eq; simp [zext]

theorem ofInt_toInt_eq_sext {n : Nat} (b : BitVec n) : BitVec.ofInt 32 b.toInt = sext b := rfl

theorem pcPlus_eq {n : Nat} (s : State) (b : BitVec n) : pcPlus s b.toInt = relTarget b s := by
  unfold pcPlus relTarget
  rw [BitVec.ofInt_add, ofInt_toInt_eq_sext]
  congr 1
  simp

theorem clearBit0_eq (v : Word) : clearBit0 v = v &&& 0xFFFFFFFE#32 := by
  apply BitVec.eq_of_getLsbD_eq
  intro k hk
  have e : (clearBit0 v).getLsbD k = (2 * (v.toNat / 2)).testBit k := by
    simp only [clearBit0, BitVec.getLsbD_ofNat, hk, decide_true, Bool.true_and]
  have m : (0xFFFFFFFE#32).getLsbD k = decide (1 ≤ k) := by
    have h : ∀ k : Fin 32, (0xFFFFFFFE#32).getLsbD k = decide (1 ≤ k.val) := by decide
    exact h ⟨k, hk⟩
  rw [e, BitVec.getLsbD_and, m]
  cases k with
  | zero => simp [Nat.testBit_zero]
  | succ k => simp [Nat.testBit_succ, BitVec.getLsbD]

theorem primed_eq (r : RegP) : primed r = regP r := by
  have h : ∀ r : RegP, primed r = regP r := by decide
  exact h r

theorem Access.address_eq (k : Access) (s : State) : k.address s = s.readX k.base + BitVec.ofNat 32 k.offset :=
  plus_eq _ _

/-! ## The checks -/

theorem readable_iff {s : State} {a : Word} {n : Nat} :
    Readable s a n ↔ allBytes (MemMap.readable s.map) a n = true := (allBytes_iff _ a n).symm

theorem writable_iff {s : State} {a : Word} {n : Nat} :
    Writable s a n ↔ allBytes (MemMap.writable s.map) a n = true := (allBytes_iff _ a n).symm

theorem fetchable_iff {s : State} : Fetchable s ↔ allBytes (MemMap.executable s.map) s.pc 2 = true := by
  simp [allBytes]

theorem loadCheck_ok {n : Nat} {a : Word} {s : State} (h : a.toNat % n = 0) (hr : Readable s a n) :
    loadCheck n a s = none := loadCheck_eq_none.2 ⟨(aligned_iff n a).2 h, readable_iff.1 hr⟩

theorem loadCheck_misaligned {n : Nat} {a : Word} {s : State} (h : a.toNat % n ≠ 0) :
    loadCheck n a s = some .loadAddressMisaligned :=
  loadCheck_eq_some.2 (.inl ⟨by simpa [aligned] using h, rfl⟩)

theorem loadCheck_denied {n : Nat} {a : Word} {s : State} (h : a.toNat % n = 0) (hr : ¬ Readable s a n) :
    loadCheck n a s = some .loadAccessFault :=
  loadCheck_eq_some.2 (.inr ⟨(aligned_iff n a).2 h, by rw [readable_iff] at hr; simpa using hr, rfl⟩)

theorem storeCheck_ok {n : Nat} {a : Word} {s : State} (h : a.toNat % n = 0) (hw : Writable s a n) :
    storeCheck n a s = none := storeCheck_eq_none.2 ⟨(aligned_iff n a).2 h, writable_iff.1 hw⟩

theorem storeCheck_misaligned {n : Nat} {a : Word} {s : State} (h : a.toNat % n ≠ 0) :
    storeCheck n a s = some .storeAddressMisaligned :=
  storeCheck_eq_some.2 (.inl ⟨by simpa [aligned] using h, rfl⟩)

theorem storeCheck_denied {n : Nat} {a : Word} {s : State} (h : a.toNat % n = 0) (hw : ¬ Writable s a n) :
    storeCheck n a s = some .storeAccessFault :=
  storeCheck_eq_some.2 (.inr ⟨(aligned_iff n a).2 h, by rw [writable_iff] at hw; simpa using hw, rfl⟩)

/-! ## Values in memory -/

/-- Four bytes as one value, least significant first (R52). -/
theorem wordAt_toNat (s : State) (a : Word) : (s.wordAt a).toNat = bytesValue s a 4 := by
  have e (hi lo : Nat) (h : lo < 2 ^ 8) : hi <<< 8 ||| lo = lo + 2 ^ 8 * hi := by
    rw [Nat.shiftLeft_eq, Nat.mul_comm, ← Nat.two_pow_add_eq_or_of_lt h]; omega
  have a2 : a + 1 + 1 = a + 2 := by rw [BitVec.add_assoc]; rfl
  have a3 : a + 2 + 1 = a + 3 := by rw [BitVec.add_assoc]; rfl
  have hn : ∀ b : Word, (s.byteAt b).toNat < 2 ^ 8 := fun b => (s.byteAt b).isLt
  unfold State.wordAt
  rw [BitVec.toNat_append, BitVec.toNat_append, BitVec.toNat_append, e _ _ (hn _), e _ _ (hn _), e _ _ (hn _)]
  simp only [bytesValue, a2, a3]
  omega

/-- Eight bytes as one value, least significant first (R52). -/
theorem dwordAt_toNat (s : State) (a : Word) : (s.dwordAt a).toNat = bytesValue s a 8 := by
  have h4 : bytesValue s a 8 = bytesValue s a 4 + 2 ^ 32 * bytesValue s (a + 4) 4 := by
    have a2 : a + 1 + 1 + 1 + 1 = a + 4 := by rw [BitVec.add_assoc, BitVec.add_assoc, BitVec.add_assoc]; rfl
    simp only [bytesValue, a2]
    omega
  have hl := (s.wordAt a).isLt
  unfold State.dwordAt
  rw [BitVec.toNat_append, Nat.shiftLeft_eq, Nat.mul_comm, ← Nat.two_pow_add_eq_or_of_lt hl, h4, wordAt_toNat,
    wordAt_toNat]
  omega

theorem wordAt_eq (s : State) (a : Word) : BitVec.ofNat 32 (bytesValue s a 4) = s.wordAt a := by
  rw [← wordAt_toNat]; simp

theorem dwordAt_eq (s : State) (a : Word) : BitVec.ofNat 64 (bytesValue s a 8) = s.dwordAt a := by
  rw [← dwordAt_toNat]; simp

/-! ## Frames -/

theorem advance_onlyPc (s : State) : OnlyPc s s.advance (plus s.pc 2) := by
  simp [OnlyPc, SameX, SameMemory]

theorem setPc_onlyPc (s : State) (a : Word) : OnlyPc s (s.setPc a) a := by
  simp [OnlyPc, SameX, SameMemory]

theorem writeX_setPc_onlyX (s : State) (rd : Reg) (v a : Word) : OnlyX s ((s.writeX rd v).setPc a) rd v a := by
  refine ⟨?_, ?_, ?_, ?_, ?_, ?_⟩ <;> simp [State.readX_writeX, SameMemory]
  intro r hr; simp [hr]

theorem writeX_advance_onlyX (s : State) (rd : Reg) (v : Word) :
    OnlyX s (s.writeX rd v).advance rd v (plus s.pc 2) := by
  have h := writeX_setPc_onlyX s rd v (s.pc + 2#32)
  simpa [State.advance, State.nextPc] using h

theorem writeF32_advance_onlyF (s : State) (rd : Reg) (v : Word) : OnlyF s (s.writeF32 rd v).advance rd (plus s.pc 2) := by
  refine ⟨fun r hr => ?_, ?_, ?_, ?_, ?_, ?_, ?_⟩ <;> simp [SameX, SameMemory, State.writeF32_other, *]

theorem writeF64_advance_onlyF (s : State) (rd : Reg) (v : DWord) : OnlyF s (s.writeF64 rd v).advance rd (plus s.pc 2) := by
  refine ⟨fun r hr => ?_, ?_, ?_, ?_, ?_, ?_, ?_⟩ <;> simp [SameX, SameMemory, State.writeF64_other, *]

theorem storeBytes4_onlyStored (s : State) (a v : Word) :
    OnlyStored s (s.storeBytes a (bytesOfWord v)).advance a 4 v.toNat (plus s.pc 2) := by
  refine ⟨fun b hb => ?_, fun b hb => ?_, ?_, ?_, ?_, ?_⟩ <;>
    simp only [State.advance_byteAt, SameX, State.advance_readX, State.advance_pc, State.advance_f, State.advance_map,
      State.storeBytes_readX, State.storeBytes_pc, State.storeBytes_f, State.storeBytes_map, plus_two, implies_true]
  · rw [State.byteAt_storeBytes _ _ _ _ (by simp), length_bytesOfWord, if_pos hb, getD_bytesOfWord v hb]
  · rw [State.byteAt_storeBytes _ _ _ _ (by simp), length_bytesOfWord, if_neg (by omega)]

theorem storeBytes8_onlyStored (s : State) (a : Word) (v : DWord) :
    OnlyStored s (s.storeBytes a (bytesOfDWord v)).advance a 8 v.toNat (plus s.pc 2) := by
  refine ⟨fun b hb => ?_, fun b hb => ?_, ?_, ?_, ?_, ?_⟩ <;>
    simp only [State.advance_byteAt, SameX, State.advance_readX, State.advance_pc, State.advance_f, State.advance_map,
      State.storeBytes_readX, State.storeBytes_pc, State.storeBytes_f, State.storeBytes_map, plus_two, implies_true]
  · rw [State.byteAt_storeBytes _ _ _ _ (by simp), length_bytesOfDWord, if_pos hb, getD_bytesOfDWord v hb]
  · rw [State.byteAt_storeBytes _ _ _ _ (by simp), length_bytesOfDWord, if_neg (by omega)]

/-! ## How a run ends (R265) -/

theorem runOutcome_of_next {n : Nat} {s t : State} (ends : List Word)
    (h : Host.Core.run Sys2Proof.core n s = .next t) : runOutcome ends n s = .stillRunning t := by
  simp only [runOutcome, h]

theorem runOutcome_of_refused {n : Nat} {s : State} {q : Refusal} (ends : List Word)
    (h : Host.Core.run Sys2Proof.core n s = .refused q) : runOutcome ends n s = .refused q := by
  simp only [runOutcome, h]

theorem runOutcome_of_end {n : Nat} {s t : State} {r : Trap} {ends : List Word} (e : r.EndsAt ends)
    (h : Host.Core.run Sys2Proof.core n s = .fault (.trap r t)) : runOutcome ends n s = .finished r t := by
  simp only [runOutcome, h, if_pos e]

theorem runOutcome_of_other_trap {n : Nat} {s t : State} {r : Trap} {ends : List Word} (e : ¬ r.EndsAt ends)
    (h : Host.Core.run Sys2Proof.core n s = .fault (.trap r t)) : runOutcome ends n s = .faulted r t := by
  simp only [runOutcome, h, if_neg e]

end Sys2Proof.Machine
end

