-- ==== Sys2Proof/Laws/Effects.lean ====
section
/-! SUPPORT. What an instruction can do when it answers a next state, said once for all of them; and when it faults. -/

namespace Sys2Proof.Laws

open Sys2Proof.Machine

/-- The five ways an instruction of this machine changes the state: `pc` alone, an integer register and `pc`, an `f`
register and `pc` (two widths), or the bytes of its store and `pc`. Its profile (Safety.lean) says which register, which
bytes and where `pc` goes. -/
inductive Effect (i : Instr) (s : State) : State → Prop where
  | onlyPc (hk : (profile i).access = none) : Effect i s (s.setPc ((profile i).next.target s))
  | x (rd : Reg) (v : Word) (hd : (profile i).destX = some rd)
      (hk : ∀ k, (profile i).access = some k → k.store = false) :
      Effect i s ((s.writeX rd v).setPc ((profile i).next.target s))
  | f32 (rd : Reg) (v : Word) (hd : (profile i).destF = some rd)
      (hk : ∀ k, (profile i).access = some k → k.store = false) :
      Effect i s ((s.writeF32 rd v).setPc ((profile i).next.target s))
  | f64 (rd : Reg) (v : DWord) (hd : (profile i).destF = some rd)
      (hk : ∀ k, (profile i).access = some k → k.store = false) :
      Effect i s ((s.writeF64 rd v).setPc ((profile i).next.target s))
  | store (k : Access) (l : List Byte) (hk : (profile i).access = some k) (hs : k.store = true) (hl : l.length = k.size)
      (h8 : k.size ≤ 8) (hc : storeCheck k.size (k.address s) s = none) :
      Effect i s ((s.storeBytes (k.address s) l).setPc ((profile i).next.target s))

namespace Effect

variable {i : Instr} {s t : State}

theorem of_advance (hk : (profile i).access = none) (hn : (profile i).next = .sequential) : Effect i s s.advance := by
  have h := Effect.onlyPc (s := s) hk
  rw [hn] at h
  simpa [NextPc.target, State.advance, State.nextPc] using h

theorem of_setPc {a : Word} (hk : (profile i).access = none) (ha : (profile i).next.target s = a) :
    Effect i s (s.setPc a) := ha ▸ Effect.onlyPc hk

theorem of_writeX {rd : Reg} {v a : Word} (hd : (profile i).destX = some rd)
    (hk : (profile i).access.all (fun k => !k.store) = true) (ha : (profile i).next.target s = a) :
    Effect i s ((s.writeX rd v).setPc a) := by
  subst ha
  refine Effect.x rd v hd fun k h => ?_
  rw [h] at hk; simpa using hk

theorem of_finishX {rd : Reg} {v : Word} (hd : (profile i).destX = some rd)
    (hk : (profile i).access.all (fun k => !k.store) = true) (hn : (profile i).next = .sequential)
    (h : finishX rd v s = .next t) : Effect i s t := by
  obtain rfl := Host.Outcome.next.inj h
  have e := of_writeX (v := v) (a := s.pc + 2#32) hd hk (by rw [hn]; exact plus_two _)
  simpa [State.advance, State.nextPc] using e

theorem of_loadX {rd : Reg} {a : Word} (hd : (profile i).destX = some rd)
    (hk : (profile i).access.all (fun k => !k.store) = true) (hn : (profile i).next = .sequential)
    (h : loadX rd a s = .next t) : Effect i s t :=
  of_finishX hd hk hn (v := s.wordAt a) (by rw [(loadX_next h).2]; rfl)

theorem of_loadF4 {w : Parcel} {rd : Reg} {a : Word} (hd : (profile i).destF = some rd)
    (hk : (profile i).access.all (fun k => !k.store) = true) (hn : (profile i).next = .sequential)
    (h : loadF4 w rd a s = .next t) : Effect i s t := by
  obtain ⟨-, -, rfl⟩ := loadF4_next h
  have e := Effect.f32 (s := s) rd (s.wordAt a) hd fun k h => by rw [h] at hk; simpa using hk
  simpa [hn, NextPc.target, State.advance, State.nextPc] using e

theorem of_loadF8 {w : Parcel} {rd : Reg} {a : Word} (hd : (profile i).destF = some rd)
    (hk : (profile i).access.all (fun k => !k.store) = true) (hn : (profile i).next = .sequential)
    (h : loadF8 w rd a s = .next t) : Effect i s t := by
  obtain ⟨-, -, rfl⟩ := loadF8_next h
  have e := Effect.f64 (s := s) rd (s.dwordAt a) hd fun k h => by rw [h] at hk; simpa using hk
  simpa [hn, NextPc.target, State.advance, State.nextPc] using e

theorem of_store4 {a v : Word} {k : Access} (hk : (profile i).access = some k) (hs : k.store = true) (hz : k.size = 4)
    (ha : k.address s = a) (hn : (profile i).next = .sequential) (h : store4 a v s = .next t) : Effect i s t := by
  subst ha
  obtain ⟨hc, rfl⟩ := store4_next h
  have e := Effect.store (s := s) k (bytesOfWord v) hk hs (by rw [hz]; rfl) (by omega) (by rw [hz]; exact hc)
  simpa [hn, NextPc.target, State.advance, State.nextPc] using e

theorem of_store8 {a : Word} {v : DWord} {k : Access} (hk : (profile i).access = some k) (hs : k.store = true)
    (hz : k.size = 8) (ha : k.address s = a) (hn : (profile i).next = .sequential) (h : store8 a v s = .next t) :
    Effect i s t := by
  subst ha
  obtain ⟨hc, rfl⟩ := store8_next h
  have e := Effect.store (s := s) k (bytesOfDWord v) hk hs (by rw [hz]; rfl) (by omega) (by rw [hz]; exact hc)
  simpa [hn, NextPc.target, State.advance, State.nextPc] using e

theorem of_storeF4 {w : Parcel} {r : Reg} {a : Word} {k : Access} (hk : (profile i).access = some k)
    (hs : k.store = true) (hz : k.size = 4) (ha : k.address s = a) (hn : (profile i).next = .sequential)
    (h : storeF4 w r a s = .next t) : Effect i s t := by
  obtain ⟨v, hv, -⟩ := storeF4_next h
  rw [storeF4_of_read hv] at h
  exact of_store4 hk hs hz ha hn h

theorem of_storeF8 {w : Parcel} {r : Reg} {a : Word} {k : Access} (hk : (profile i).access = some k)
    (hs : k.store = true) (hz : k.size = 8) (ha : k.address s = a) (hn : (profile i).next = .sequential)
    (h : storeF8 w r a s = .next t) : Effect i s t := by
  obtain ⟨v, hv, -⟩ := storeF8_next h
  rw [storeF8_of_read hv] at h
  exact of_store8 hk hs hz ha hn h

theorem of_branch {rs1 : RegP} {n : Nat} {offset : BitVec n} (hk : (profile i).access = none)
    (hn : (profile i).next = .relativeIfZero (primed rs1) offset.toInt)
    (h : branch (isZero (s.readX (regP rs1))) (sext offset) s = .next t) : Effect i s t := by
  obtain rfl := Host.Outcome.next.inj h
  have e := Effect.onlyPc (s := s) hk
  rw [hn] at e
  simp only [NextPc.target, primed_eq, pcPlus_eq, plus_two, relTarget] at e
  by_cases hz : s.readX (regP rs1) = 0#32
  · simpa [isZero, hz] using e
  · simpa [isZero, hz, State.advance, State.nextPc] using e

theorem of_branch_not {rs1 : RegP} {n : Nat} {offset : BitVec n} (hk : (profile i).access = none)
    (hn : (profile i).next = .relativeIfNonzero (primed rs1) offset.toInt)
    (h : branch (!isZero (s.readX (regP rs1))) (sext offset) s = .next t) : Effect i s t := by
  obtain rfl := Host.Outcome.next.inj h
  have e := Effect.onlyPc (s := s) hk
  rw [hn] at e
  simp only [NextPc.target, primed_eq, pcPlus_eq, plus_two, relTarget] at e
  by_cases hz : s.readX (regP rs1) = 0#32
  · simpa [isZero, hz, State.advance, State.nextPc] using e
  · simpa [isZero, hz] using e

end Effect

/-- The effective addresses of the profiles are the model's. -/
theorem regAddr_eq {n : Nat} (rs1 : RegP) (uimm : BitVec n) (s : State) :
    plus (s.readX (primed rs1)) uimm.toNat = regAddr rs1 uimm s := by rw [plus_eq_add_zext, primed_eq]; rfl

theorem spAddr_eq {n : Nat} (uimm : BitVec n) (s : State) : plus (s.readX 2#5) uimm.toNat = spAddr uimm s := by
  rw [plus_eq_add_zext]; rfl

/-- An instruction that answers a next state has one of the five effects, with the registers, bytes and target of its
profile. -/
theorem exec_next {i : Instr} {s t : State} (hw : WellFormed i) (h : exec i s = .next t) : Effect i s t := by
  cases i with
  | illegalCAddi4spnNzuimm0 _ => exact absurd h (raiseIllegal_ne_next _ _ _)
  | cAddi4spn rd nzuimm => exact Effect.of_finishX (by simp only [profile, primed_eq]) rfl rfl h
  | cFld rd rs1 uimm => exact Effect.of_loadF8 (by simp only [profile, primed_eq]) rfl rfl h
  | cLw rd rs1 uimm => exact Effect.of_loadX (by simp only [profile, primed_eq]) rfl rfl h
  | cFlw rd rs1 uimm => exact Effect.of_loadF4 (by simp only [profile, primed_eq]) rfl rfl h
  | illegalQ0Funct3x100 _ => exact absurd h (raiseIllegal_ne_next _ _ _)
  | cFsd rs2 rs1 uimm => exact Effect.of_storeF8 rfl rfl rfl (regAddr_eq _ _ _) rfl h
  | cSw rs2 rs1 uimm => exact Effect.of_store4 rfl rfl rfl (regAddr_eq _ _ _) rfl h
  | cFsw rs2 rs1 uimm => exact Effect.of_storeF4 rfl rfl rfl (regAddr_eq _ _ _) rfl h
  | cNop => obtain rfl := Host.Outcome.next.inj h; exact Effect.of_advance rfl rfl
  | hintCNopImmNonzero _ => obtain rfl := Host.Outcome.next.inj h; exact Effect.of_advance rfl rfl
  | hintCAddiImm0 _ => obtain rfl := Host.Outcome.next.inj h; exact Effect.of_advance rfl rfl
  | cAddi rd nzimm => exact Effect.of_finishX rfl rfl rfl h
  | cJal offset => obtain rfl := Host.Outcome.next.inj h; exact Effect.of_writeX rfl rfl (pcPlus_eq _ _)
  | hintCLiRd0 _ => obtain rfl := Host.Outcome.next.inj h; exact Effect.of_advance rfl rfl
  | cLi rd imm => exact Effect.of_finishX rfl rfl rfl h
  | illegalCAddi16spImm0 => exact absurd h (raiseIllegal_ne_next _ _ _)
  | cAddi16sp imm => exact Effect.of_finishX rfl rfl rfl h
  | illegalCLuiImm0 _ => exact absurd h (raiseIllegal_ne_next _ _ _)
  | hintCLuiRd0 _ => obtain rfl := Host.Outcome.next.inj h; exact Effect.of_advance rfl rfl
  | cLui rd imm => exact Effect.of_finishX rfl rfl rfl h
  | illegalCSrliCSraiShamt5 _ _ _ => exact absurd h (raiseIllegal_ne_next _ _ _)
  | cSrli rd y => exact Effect.of_finishX (by simp only [profile, primed_eq]) rfl rfl h
  | cSrai rd y => exact Effect.of_finishX (by simp only [profile, primed_eq]) rfl rfl h
  | cAndi rd y => exact Effect.of_finishX (by simp only [profile, primed_eq]) rfl rfl h
  | cSub rd y => exact Effect.of_finishX (by simp only [profile, primed_eq]) rfl rfl h
  | cXor rd y => exact Effect.of_finishX (by simp only [profile, primed_eq]) rfl rfl h
  | cOr rd y => exact Effect.of_finishX (by simp only [profile, primed_eq]) rfl rfl h
  | cAnd rd y => exact Effect.of_finishX (by simp only [profile, primed_eq]) rfl rfl h
  | illegalCSubw _ _ => exact absurd h (raiseIllegal_ne_next _ _ _)
  | illegalCAddw _ _ => exact absurd h (raiseIllegal_ne_next _ _ _)
  | illegalQ1Reserved _ _ _ => exact absurd h (raiseIllegal_ne_next _ _ _)
  | cJ offset => obtain rfl := Host.Outcome.next.inj h; exact Effect.of_setPc rfl (pcPlus_eq _ _)
  | cBeqz rs1 offset => exact Effect.of_branch rfl rfl h
  | cBnez rs1 offset => exact Effect.of_branch_not rfl rfl h
  | illegalCSlliShamt5 _ _ => exact absurd h (raiseIllegal_ne_next _ _ _)
  | hintCSlliRd0 _ => obtain rfl := Host.Outcome.next.inj h; exact Effect.of_advance rfl rfl
  | cSlli rd shamt => exact Effect.of_finishX rfl rfl rfl h
  | cFldsp rd uimm => exact Effect.of_loadF8 rfl rfl rfl h
  | illegalCLwspRd0 _ => exact absurd h (raiseIllegal_ne_next _ _ _)
  | cLwsp rd uimm => exact Effect.of_loadX rfl rfl rfl h
  | cFlwsp rd uimm => exact Effect.of_loadF4 rfl rfl rfl h
  | illegalCJrRs1x0 => exact absurd h (raiseIllegal_ne_next _ _ _)
  | cJr rs1 => obtain rfl := Host.Outcome.next.inj h; exact Effect.of_setPc rfl (clearBit0_eq _)
  | hintCMvRd0 _ => obtain rfl := Host.Outcome.next.inj h; exact Effect.of_advance rfl rfl
  | cMv rd rs2 => exact Effect.of_finishX rfl rfl rfl h
  | cEbreak => exact absurd h (raise_ne_next _ _ _ _)
  | cJalr rs1 => obtain rfl := Host.Outcome.next.inj h; exact Effect.of_writeX rfl rfl (clearBit0_eq _)
  | hintCAddRd0 _ => obtain rfl := Host.Outcome.next.inj h; exact Effect.of_advance rfl rfl
  | cAdd rd rs2 => exact Effect.of_finishX rfl rfl rfl h
  | cFsdsp rs2 uimm => exact Effect.of_storeF8 rfl rfl rfl (spAddr_eq _ _) rfl h
  | cSwsp rs2 uimm => exact Effect.of_store4 rfl rfl rfl (spAddr_eq _ _) rfl h
  | cFswsp rs2 uimm => exact Effect.of_storeF4 rfl rfl rfl (spAddr_eq _ _) rfl h
  | refusedQ3 _ => cases h
  | cLd _ _ _ => cases hw
  | cSd _ _ _ => cases hw
  | cAddiw _ _ => cases hw
  | cSubw _ _ => cases hw
  | cAddw _ _ => cases hw
  | cLdsp _ _ => cases hw
  | cSdsp _ _ => cases hw

/-! ## Stops -/

/-- The four ways executing an instruction of this machine stops in a trap, with the whole record. -/
inductive Stop (i : Instr) (s : State) : Trap → Prop where
  | illegal (hi : IllegalHere i s) : Stop i s ⟨.illegalInstruction, s.pc, (encode i).setWidth 32⟩
  | breakpoint (hi : i = .cEbreak) : Stop i s ⟨.breakpoint, s.pc, s.pc⟩
  | load (k : Access) (c : Cause) (hk : (profile i).access = some k) (hs : k.store = false)
      (hc : loadCheck k.size (k.address s) s = some c) : Stop i s ⟨c, s.pc, k.address s⟩
  | store (k : Access) (c : Cause) (hk : (profile i).access = some k) (hs : k.store = true)
      (hc : storeCheck k.size (k.address s) s = some c) : Stop i s ⟨c, s.pc, k.address s⟩

namespace Stop

variable {i : Instr} {s t : State} {r : Trap}

theorem of_illegal (hi : IllegalHere i s) (h : raiseIllegal (encode i) s = .fault (.trap r t)) : t = s ∧ Stop i s r := by
  obtain ⟨rfl, rfl⟩ := raise_fault h
  exact ⟨rfl, .illegal hi⟩

theorem of_loadX {rd : Reg} {a : Word} {k : Access} (hk : (profile i).access = some k) (hs : k.store = false)
    (hz : k.size = 4) (ha : k.address s = a) (h : loadX rd a s = .fault (.trap r t)) : t = s ∧ Stop i s r := by
  subst ha
  rw [loadX_eq] at h
  split at h
  · rename_i c hc
    obtain ⟨rfl, rfl⟩ := raise_fault h
    exact ⟨rfl, .load k c hk hs (by rw [hz]; exact hc)⟩
  · cases h

theorem of_loadF4 {rd : Reg} {a : Word} {k : Access} (hk : (profile i).access = some k) (hs : k.store = false)
    (hz : k.size = 4) (ha : k.address s = a) (hn : (profile i).needs = .single)
    (h : loadF4 (encode i) rd a s = .fault (.trap r t)) : t = s ∧ Stop i s r := by
  subst ha
  rw [loadF4_eq] at h
  split at h
  · rename_i hf; exact of_illegal (.inr (by rw [hn]; exact hf)) h
  · split at h
    · rename_i c hc
      obtain ⟨rfl, rfl⟩ := raise_fault h
      exact ⟨rfl, .load k c hk hs (by rw [hz]; exact hc)⟩
    · cases h

theorem of_loadF8 {rd : Reg} {a : Word} {k : Access} (hk : (profile i).access = some k) (hs : k.store = false)
    (hz : k.size = 8) (ha : k.address s = a) (hn : (profile i).needs = .double)
    (h : loadF8 (encode i) rd a s = .fault (.trap r t)) : t = s ∧ Stop i s r := by
  subst ha
  rw [loadF8_eq] at h
  split at h
  · rename_i hf; exact of_illegal (.inr (by rw [hn]; exact hf)) h
  · split at h
    · rename_i c hc
      obtain ⟨rfl, rfl⟩ := raise_fault h
      exact ⟨rfl, .load k c hk hs (by rw [hz]; exact hc)⟩
    · cases h

theorem of_store4 {a v : Word} {k : Access} (hk : (profile i).access = some k) (hs : k.store = true) (hz : k.size = 4)
    (ha : k.address s = a) (h : store4 a v s = .fault (.trap r t)) : t = s ∧ Stop i s r := by
  subst ha
  rw [store4_eq] at h
  split at h
  · rename_i c hc
    obtain ⟨rfl, rfl⟩ := raise_fault h
    exact ⟨rfl, .store k c hk hs (by rw [hz]; exact hc)⟩
  · cases h

theorem of_store8 {a : Word} {v : DWord} {k : Access} (hk : (profile i).access = some k) (hs : k.store = true)
    (hz : k.size = 8) (ha : k.address s = a) (h : store8 a v s = .fault (.trap r t)) : t = s ∧ Stop i s r := by
  subst ha
  rw [store8_eq] at h
  split at h
  · rename_i c hc
    obtain ⟨rfl, rfl⟩ := raise_fault h
    exact ⟨rfl, .store k c hk hs (by rw [hz]; exact hc)⟩
  · cases h

theorem of_storeF4 {q : Reg} {a : Word} {k : Access} (hk : (profile i).access = some k) (hs : k.store = true)
    (hz : k.size = 4) (ha : k.address s = a) (hn : (profile i).needs = .single)
    (h : storeF4 (encode i) q a s = .fault (.trap r t)) : t = s ∧ Stop i s r := by
  cases hv : s.readF32 q with
  | none =>
    have hf := (State.readF32_eq_none s q).1 hv
    rw [storeF4_of_absent hf] at h
    exact of_illegal (.inr (by rw [hn]; exact hf)) h
  | some v => rw [storeF4_of_read hv] at h; exact of_store4 hk hs hz ha h

theorem of_storeF8 {q : Reg} {a : Word} {k : Access} (hk : (profile i).access = some k) (hs : k.store = true)
    (hz : k.size = 8) (ha : k.address s = a) (hn : (profile i).needs = .double)
    (h : storeF8 (encode i) q a s = .fault (.trap r t)) : t = s ∧ Stop i s r := by
  cases hv : s.readF64 q with
  | none =>
    have hf := (State.readF64_eq_none s q).1 hv
    rw [storeF8_of_absent hf] at h
    exact of_illegal (.inr (by rw [hn]; exact hf)) h
  | some v => rw [storeF8_of_read hv] at h; exact of_store8 hk hs hz ha h

end Stop

/-- An instruction that faults leaves the state as it was, and its record is one of the four. -/
theorem exec_fault {i : Instr} {s t : State} {r : Trap} (hw : WellFormed i) (h : exec i s = .fault (.trap r t)) :
    t = s ∧ Stop i s r := by
  cases i with
  | illegalCAddi4spnNzuimm0 _ => exact Stop.of_illegal (.inl rfl) h
  | cAddi4spn rd nzuimm => cases h
  | cFld rd rs1 uimm => exact Stop.of_loadF8 rfl rfl rfl (regAddr_eq _ _ _) rfl h
  | cLw rd rs1 uimm => exact Stop.of_loadX rfl rfl rfl (regAddr_eq _ _ _) h
  | cFlw rd rs1 uimm => exact Stop.of_loadF4 rfl rfl rfl (regAddr_eq _ _ _) rfl h
  | illegalQ0Funct3x100 _ => exact Stop.of_illegal (.inl rfl) h
  | cFsd rs2 rs1 uimm => exact Stop.of_storeF8 rfl rfl rfl (regAddr_eq _ _ _) rfl h
  | cSw rs2 rs1 uimm => exact Stop.of_store4 rfl rfl rfl (regAddr_eq _ _ _) h
  | cFsw rs2 rs1 uimm => exact Stop.of_storeF4 rfl rfl rfl (regAddr_eq _ _ _) rfl h
  | cNop => cases h
  | hintCNopImmNonzero _ => cases h
  | hintCAddiImm0 _ => cases h
  | cAddi rd nzimm => cases h
  | cJal offset => cases h
  | hintCLiRd0 _ => cases h
  | cLi rd imm => cases h
  | illegalCAddi16spImm0 => exact Stop.of_illegal (.inl rfl) h
  | cAddi16sp imm => cases h
  | illegalCLuiImm0 _ => exact Stop.of_illegal (.inl rfl) h
  | hintCLuiRd0 _ => cases h
  | cLui rd imm => cases h
  | illegalCSrliCSraiShamt5 _ _ _ => exact Stop.of_illegal (.inl rfl) h
  | cSrli rd y => cases h
  | cSrai rd y => cases h
  | cAndi rd y => cases h
  | cSub rd y => cases h
  | cXor rd y => cases h
  | cOr rd y => cases h
  | cAnd rd y => cases h
  | illegalCSubw _ _ => exact Stop.of_illegal (.inl rfl) h
  | illegalCAddw _ _ => exact Stop.of_illegal (.inl rfl) h
  | illegalQ1Reserved _ _ _ => exact Stop.of_illegal (.inl rfl) h
  | cJ offset => cases h
  | cBeqz rs1 offset => cases h
  | cBnez rs1 offset => cases h
  | illegalCSlliShamt5 _ _ => exact Stop.of_illegal (.inl rfl) h
  | hintCSlliRd0 _ => cases h
  | cSlli rd shamt => cases h
  | cFldsp rd uimm => exact Stop.of_loadF8 rfl rfl rfl (spAddr_eq _ _) rfl h
  | illegalCLwspRd0 _ => exact Stop.of_illegal (.inl rfl) h
  | cLwsp rd uimm => exact Stop.of_loadX rfl rfl rfl (spAddr_eq _ _) h
  | cFlwsp rd uimm => exact Stop.of_loadF4 rfl rfl rfl (spAddr_eq _ _) rfl h
  | illegalCJrRs1x0 => exact Stop.of_illegal (.inl rfl) h
  | cJr rs1 => cases h
  | hintCMvRd0 _ => cases h
  | cMv rd rs2 => cases h
  | cEbreak => obtain ⟨rfl, rfl⟩ := raise_fault h; exact ⟨rfl, .breakpoint rfl⟩
  | cJalr rs1 => cases h
  | hintCAddRd0 _ => cases h
  | cAdd rd rs2 => cases h
  | cFsdsp rs2 uimm => exact Stop.of_storeF8 rfl rfl rfl (spAddr_eq _ _) rfl h
  | cSwsp rs2 uimm => exact Stop.of_store4 rfl rfl rfl (spAddr_eq _ _) h
  | cFswsp rs2 uimm => exact Stop.of_storeF4 rfl rfl rfl (spAddr_eq _ _) rfl h
  | refusedQ3 _ => cases h
  | cLd _ _ _ => cases hw
  | cSd _ _ _ => cases hw
  | cAddiw _ _ => cases hw
  | cSubw _ _ => cases hw
  | cAddw _ _ => cases hw
  | cLdsp _ _ => cases hw
  | cSdsp _ _ => cases hw

end Sys2Proof.Laws
end

