-- ==== Sys2Proof/Laws/PerInstr.lean ====
section
/-! SUPPORT. The statements made of every instruction as syntax, one lemma per constructor. -/

namespace Sys2Proof.Laws.CarriesTableBits

/-- The encoding of an instruction carries the fixed bits of its row of spec/opcode_table.json (R85, R95). -/
def Statement (i : Instr) : Prop :=
  ∀ r : TableRow, opcodeTable[tableRow i]? = some r → encode i &&& r.mask = r.pattern

/-- The sixteen bits of a parcel, one by one. -/
theorem of_row {i : Instr} (r : TableRow) (hr : opcodeTable[tableRow i]? = some r)
    (h : ∀ k : Fin 16, ((encode i).getLsbD k && r.mask.getLsbD k) = r.pattern.getLsbD k) : Statement i := by
  intro r' hr'
  obtain rfl : r = r' := Option.some.inj (hr.symm.trans hr')
  apply BitVec.eq_of_getLsbD_eq
  intro k hk
  simpa using h ⟨k, hk⟩

theorem illegalCAddi4spnNzuimm0 (rd : RegP) : Statement (.illegalCAddi4spnNzuimm0 rd) := by
  refine of_row _ rfl ?_
  rintro ⟨_ | _ | _ | _ | _ | _ | _ | _ | _ | _ | _ | _ | _ | _ | _ | _ | k, hk⟩ <;>
    simp only [encode, BitVec.getLsbD_append] <;> simp

theorem cAddi4spn (rd : RegP) (nzuimm : BitVec 10) : Statement (.cAddi4spn rd nzuimm) := by
  refine of_row _ rfl ?_
  rintro ⟨_ | _ | _ | _ | _ | _ | _ | _ | _ | _ | _ | _ | _ | _ | _ | _ | k, hk⟩ <;>
    simp only [encode, BitVec.getLsbD_append] <;> simp

theorem cFld (rd rs1 : RegP) (uimm : BitVec 8) : Statement (.cFld rd rs1 uimm) := by
  refine of_row _ rfl ?_
  rintro ⟨_ | _ | _ | _ | _ | _ | _ | _ | _ | _ | _ | _ | _ | _ | _ | _ | k, hk⟩ <;>
    simp only [encode, BitVec.getLsbD_append] <;> simp

theorem cLw (rd rs1 : RegP) (uimm : BitVec 7) : Statement (.cLw rd rs1 uimm) := by
  refine of_row _ rfl ?_
  rintro ⟨_ | _ | _ | _ | _ | _ | _ | _ | _ | _ | _ | _ | _ | _ | _ | _ | k, hk⟩ <;>
    simp only [encode, BitVec.getLsbD_append] <;> simp

theorem cFlw (rd rs1 : RegP) (uimm : BitVec 7) : Statement (.cFlw rd rs1 uimm) := by
  refine of_row _ rfl ?_
  rintro ⟨_ | _ | _ | _ | _ | _ | _ | _ | _ | _ | _ | _ | _ | _ | _ | _ | k, hk⟩ <;>
    simp only [encode, BitVec.getLsbD_append] <;> simp

theorem illegalQ0Funct3x100 (rest : BitVec 11) : Statement (.illegalQ0Funct3x100 rest) := by
  refine of_row _ rfl ?_
  rintro ⟨_ | _ | _ | _ | _ | _ | _ | _ | _ | _ | _ | _ | _ | _ | _ | _ | k, hk⟩ <;>
    simp only [encode, BitVec.getLsbD_append] <;> simp

theorem cFsd (rs2 rs1 : RegP) (uimm : BitVec 8) : Statement (.cFsd rs2 rs1 uimm) := by
  refine of_row _ rfl ?_
  rintro ⟨_ | _ | _ | _ | _ | _ | _ | _ | _ | _ | _ | _ | _ | _ | _ | _ | k, hk⟩ <;>
    simp only [encode, BitVec.getLsbD_append] <;> simp

theorem cSw (rs2 rs1 : RegP) (uimm : BitVec 7) : Statement (.cSw rs2 rs1 uimm) := by
  refine of_row _ rfl ?_
  rintro ⟨_ | _ | _ | _ | _ | _ | _ | _ | _ | _ | _ | _ | _ | _ | _ | _ | k, hk⟩ <;>
    simp only [encode, BitVec.getLsbD_append] <;> simp

theorem cFsw (rs2 rs1 : RegP) (uimm : BitVec 7) : Statement (.cFsw rs2 rs1 uimm) := by
  refine of_row _ rfl ?_
  rintro ⟨_ | _ | _ | _ | _ | _ | _ | _ | _ | _ | _ | _ | _ | _ | _ | _ | k, hk⟩ <;>
    simp only [encode, BitVec.getLsbD_append] <;> simp

theorem cNop : Statement (.cNop) := by
  refine of_row _ rfl ?_
  rintro ⟨_ | _ | _ | _ | _ | _ | _ | _ | _ | _ | _ | _ | _ | _ | _ | _ | k, hk⟩ <;>
    simp only [encode, BitVec.getLsbD_append] <;> simp

theorem hintCNopImmNonzero (imm : BitVec 6) : Statement (.hintCNopImmNonzero imm) := by
  refine of_row _ rfl ?_
  rintro ⟨_ | _ | _ | _ | _ | _ | _ | _ | _ | _ | _ | _ | _ | _ | _ | _ | k, hk⟩ <;>
    simp only [encode, BitVec.getLsbD_append] <;> simp

theorem hintCAddiImm0 (rd : Reg) : Statement (.hintCAddiImm0 rd) := by
  refine of_row _ rfl ?_
  rintro ⟨_ | _ | _ | _ | _ | _ | _ | _ | _ | _ | _ | _ | _ | _ | _ | _ | k, hk⟩ <;>
    simp only [encode, BitVec.getLsbD_append] <;> simp

theorem cAddi (rd : Reg) (nzimm : BitVec 6) : Statement (.cAddi rd nzimm) := by
  refine of_row _ rfl ?_
  rintro ⟨_ | _ | _ | _ | _ | _ | _ | _ | _ | _ | _ | _ | _ | _ | _ | _ | k, hk⟩ <;>
    simp only [encode, BitVec.getLsbD_append] <;> simp

theorem cJal (offset : BitVec 12) : Statement (.cJal offset) := by
  refine of_row _ rfl ?_
  rintro ⟨_ | _ | _ | _ | _ | _ | _ | _ | _ | _ | _ | _ | _ | _ | _ | _ | k, hk⟩ <;>
    simp only [encode, encodeCJ, BitVec.getLsbD_append] <;> simp

theorem hintCLiRd0 (imm : BitVec 6) : Statement (.hintCLiRd0 imm) := by
  refine of_row _ rfl ?_
  rintro ⟨_ | _ | _ | _ | _ | _ | _ | _ | _ | _ | _ | _ | _ | _ | _ | _ | k, hk⟩ <;>
    simp only [encode, BitVec.getLsbD_append] <;> simp

theorem cLi (rd : Reg) (imm : BitVec 6) : Statement (.cLi rd imm) := by
  refine of_row _ rfl ?_
  rintro ⟨_ | _ | _ | _ | _ | _ | _ | _ | _ | _ | _ | _ | _ | _ | _ | _ | k, hk⟩ <;>
    simp only [encode, BitVec.getLsbD_append] <;> simp

theorem illegalCAddi16spImm0 : Statement (.illegalCAddi16spImm0) := by
  refine of_row _ rfl ?_
  rintro ⟨_ | _ | _ | _ | _ | _ | _ | _ | _ | _ | _ | _ | _ | _ | _ | _ | k, hk⟩ <;>
    simp only [encode, BitVec.getLsbD_append] <;> simp

theorem cAddi16sp (imm : BitVec 10) : Statement (.cAddi16sp imm) := by
  refine of_row _ rfl ?_
  rintro ⟨_ | _ | _ | _ | _ | _ | _ | _ | _ | _ | _ | _ | _ | _ | _ | _ | k, hk⟩ <;>
    simp only [encode, BitVec.getLsbD_append] <;> simp

theorem illegalCLuiImm0 (rd : Reg) : Statement (.illegalCLuiImm0 rd) := by
  refine of_row _ rfl ?_
  rintro ⟨_ | _ | _ | _ | _ | _ | _ | _ | _ | _ | _ | _ | _ | _ | _ | _ | k, hk⟩ <;>
    simp only [encode, BitVec.getLsbD_append] <;> simp

theorem hintCLuiRd0 (imm : BitVec 18) : Statement (.hintCLuiRd0 imm) := by
  refine of_row _ rfl ?_
  rintro ⟨_ | _ | _ | _ | _ | _ | _ | _ | _ | _ | _ | _ | _ | _ | _ | _ | k, hk⟩ <;>
    simp only [encode, BitVec.getLsbD_append] <;> simp

theorem cLui (rd : Reg) (imm : BitVec 18) : Statement (.cLui rd imm) := by
  refine of_row _ rfl ?_
  rintro ⟨_ | _ | _ | _ | _ | _ | _ | _ | _ | _ | _ | _ | _ | _ | _ | _ | k, hk⟩ <;>
    simp only [encode, BitVec.getLsbD_append] <;> simp

theorem illegalCSrliCSraiShamt5 (arith : BitVec 1) (rd : RegP) (shamtLow : BitVec 5) : Statement (.illegalCSrliCSraiShamt5 arith rd shamtLow) := by
  refine of_row _ rfl ?_
  rintro ⟨_ | _ | _ | _ | _ | _ | _ | _ | _ | _ | _ | _ | _ | _ | _ | _ | k, hk⟩ <;>
    simp only [encode, BitVec.getLsbD_append] <;> simp

theorem cSrli (rd : RegP) (shamt : BitVec 5) : Statement (.cSrli rd shamt) := by
  refine of_row _ rfl ?_
  rintro ⟨_ | _ | _ | _ | _ | _ | _ | _ | _ | _ | _ | _ | _ | _ | _ | _ | k, hk⟩ <;>
    simp only [encode, BitVec.getLsbD_append] <;> simp

theorem cSrai (rd : RegP) (shamt : BitVec 5) : Statement (.cSrai rd shamt) := by
  refine of_row _ rfl ?_
  rintro ⟨_ | _ | _ | _ | _ | _ | _ | _ | _ | _ | _ | _ | _ | _ | _ | _ | k, hk⟩ <;>
    simp only [encode, BitVec.getLsbD_append] <;> simp

theorem cAndi (rd : RegP) (imm : BitVec 6) : Statement (.cAndi rd imm) := by
  refine of_row _ rfl ?_
  rintro ⟨_ | _ | _ | _ | _ | _ | _ | _ | _ | _ | _ | _ | _ | _ | _ | _ | k, hk⟩ <;>
    simp only [encode, BitVec.getLsbD_append] <;> simp

theorem cSub (rd rs2 : RegP) : Statement (.cSub rd rs2) := by
  refine of_row _ rfl ?_
  rintro ⟨_ | _ | _ | _ | _ | _ | _ | _ | _ | _ | _ | _ | _ | _ | _ | _ | k, hk⟩ <;>
    simp only [encode, BitVec.getLsbD_append] <;> simp

theorem cXor (rd rs2 : RegP) : Statement (.cXor rd rs2) := by
  refine of_row _ rfl ?_
  rintro ⟨_ | _ | _ | _ | _ | _ | _ | _ | _ | _ | _ | _ | _ | _ | _ | _ | k, hk⟩ <;>
    simp only [encode, BitVec.getLsbD_append] <;> simp

theorem cOr (rd rs2 : RegP) : Statement (.cOr rd rs2) := by
  refine of_row _ rfl ?_
  rintro ⟨_ | _ | _ | _ | _ | _ | _ | _ | _ | _ | _ | _ | _ | _ | _ | _ | k, hk⟩ <;>
    simp only [encode, BitVec.getLsbD_append] <;> simp

theorem cAnd (rd rs2 : RegP) : Statement (.cAnd rd rs2) := by
  refine of_row _ rfl ?_
  rintro ⟨_ | _ | _ | _ | _ | _ | _ | _ | _ | _ | _ | _ | _ | _ | _ | _ | k, hk⟩ <;>
    simp only [encode, BitVec.getLsbD_append] <;> simp

theorem illegalCSubw (rd rs2 : RegP) : Statement (.illegalCSubw rd rs2) := by
  refine of_row _ rfl ?_
  rintro ⟨_ | _ | _ | _ | _ | _ | _ | _ | _ | _ | _ | _ | _ | _ | _ | _ | k, hk⟩ <;>
    simp only [encode, BitVec.getLsbD_append] <;> simp

theorem illegalCAddw (rd rs2 : RegP) : Statement (.illegalCAddw rd rs2) := by
  refine of_row _ rfl ?_
  rintro ⟨_ | _ | _ | _ | _ | _ | _ | _ | _ | _ | _ | _ | _ | _ | _ | _ | k, hk⟩ <;>
    simp only [encode, BitVec.getLsbD_append] <;> simp

theorem illegalQ1Reserved (hi : BitVec 3) (bit5 : BitVec 1) (lo : BitVec 3) : Statement (.illegalQ1Reserved hi bit5 lo) := by
  refine of_row _ rfl ?_
  rintro ⟨_ | _ | _ | _ | _ | _ | _ | _ | _ | _ | _ | _ | _ | _ | _ | _ | k, hk⟩ <;>
    simp only [encode, BitVec.getLsbD_append] <;> simp

theorem cJ (offset : BitVec 12) : Statement (.cJ offset) := by
  refine of_row _ rfl ?_
  rintro ⟨_ | _ | _ | _ | _ | _ | _ | _ | _ | _ | _ | _ | _ | _ | _ | _ | k, hk⟩ <;>
    simp only [encode, encodeCJ, BitVec.getLsbD_append] <;> simp

theorem cBeqz (rs1 : RegP) (offset : BitVec 9) : Statement (.cBeqz rs1 offset) := by
  refine of_row _ rfl ?_
  rintro ⟨_ | _ | _ | _ | _ | _ | _ | _ | _ | _ | _ | _ | _ | _ | _ | _ | k, hk⟩ <;>
    simp only [encode, BitVec.getLsbD_append] <;> simp

theorem cBnez (rs1 : RegP) (offset : BitVec 9) : Statement (.cBnez rs1 offset) := by
  refine of_row _ rfl ?_
  rintro ⟨_ | _ | _ | _ | _ | _ | _ | _ | _ | _ | _ | _ | _ | _ | _ | _ | k, hk⟩ <;>
    simp only [encode, BitVec.getLsbD_append] <;> simp

theorem illegalCSlliShamt5 (rd : Reg) (shamtLow : BitVec 5) : Statement (.illegalCSlliShamt5 rd shamtLow) := by
  refine of_row _ rfl ?_
  rintro ⟨_ | _ | _ | _ | _ | _ | _ | _ | _ | _ | _ | _ | _ | _ | _ | _ | k, hk⟩ <;>
    simp only [encode, BitVec.getLsbD_append] <;> simp

theorem hintCSlliRd0 (shamt : BitVec 5) : Statement (.hintCSlliRd0 shamt) := by
  refine of_row _ rfl ?_
  rintro ⟨_ | _ | _ | _ | _ | _ | _ | _ | _ | _ | _ | _ | _ | _ | _ | _ | k, hk⟩ <;>
    simp only [encode, BitVec.getLsbD_append] <;> simp

theorem cSlli (rd : Reg) (shamt : BitVec 5) : Statement (.cSlli rd shamt) := by
  refine of_row _ rfl ?_
  rintro ⟨_ | _ | _ | _ | _ | _ | _ | _ | _ | _ | _ | _ | _ | _ | _ | _ | k, hk⟩ <;>
    simp only [encode, BitVec.getLsbD_append] <;> simp

theorem cFldsp (rd : Reg) (uimm : BitVec 9) : Statement (.cFldsp rd uimm) := by
  refine of_row _ rfl ?_
  rintro ⟨_ | _ | _ | _ | _ | _ | _ | _ | _ | _ | _ | _ | _ | _ | _ | _ | k, hk⟩ <;>
    simp only [encode, BitVec.getLsbD_append] <;> simp

theorem illegalCLwspRd0 (uimm : BitVec 8) : Statement (.illegalCLwspRd0 uimm) := by
  refine of_row _ rfl ?_
  rintro ⟨_ | _ | _ | _ | _ | _ | _ | _ | _ | _ | _ | _ | _ | _ | _ | _ | k, hk⟩ <;>
    simp only [encode, BitVec.getLsbD_append] <;> simp

theorem cLwsp (rd : Reg) (uimm : BitVec 8) : Statement (.cLwsp rd uimm) := by
  refine of_row _ rfl ?_
  rintro ⟨_ | _ | _ | _ | _ | _ | _ | _ | _ | _ | _ | _ | _ | _ | _ | _ | k, hk⟩ <;>
    simp only [encode, BitVec.getLsbD_append] <;> simp

theorem cFlwsp (rd : Reg) (uimm : BitVec 8) : Statement (.cFlwsp rd uimm) := by
  refine of_row _ rfl ?_
  rintro ⟨_ | _ | _ | _ | _ | _ | _ | _ | _ | _ | _ | _ | _ | _ | _ | _ | k, hk⟩ <;>
    simp only [encode, BitVec.getLsbD_append] <;> simp

theorem illegalCJrRs1x0 : Statement (.illegalCJrRs1x0) := by
  refine of_row _ rfl ?_
  rintro ⟨_ | _ | _ | _ | _ | _ | _ | _ | _ | _ | _ | _ | _ | _ | _ | _ | k, hk⟩ <;>
    simp only [encode, BitVec.getLsbD_append] <;> simp

theorem cJr (rs1 : Reg) : Statement (.cJr rs1) := by
  refine of_row _ rfl ?_
  rintro ⟨_ | _ | _ | _ | _ | _ | _ | _ | _ | _ | _ | _ | _ | _ | _ | _ | k, hk⟩ <;>
    simp only [encode, BitVec.getLsbD_append] <;> simp

theorem hintCMvRd0 (rs2 : Reg) : Statement (.hintCMvRd0 rs2) := by
  refine of_row _ rfl ?_
  rintro ⟨_ | _ | _ | _ | _ | _ | _ | _ | _ | _ | _ | _ | _ | _ | _ | _ | k, hk⟩ <;>
    simp only [encode, BitVec.getLsbD_append] <;> simp

theorem cMv (rd rs2 : Reg) : Statement (.cMv rd rs2) := by
  refine of_row _ rfl ?_
  rintro ⟨_ | _ | _ | _ | _ | _ | _ | _ | _ | _ | _ | _ | _ | _ | _ | _ | k, hk⟩ <;>
    simp only [encode, BitVec.getLsbD_append] <;> simp

theorem cEbreak : Statement (.cEbreak) := by
  refine of_row _ rfl ?_
  rintro ⟨_ | _ | _ | _ | _ | _ | _ | _ | _ | _ | _ | _ | _ | _ | _ | _ | k, hk⟩ <;>
    simp only [encode, BitVec.getLsbD_append] <;> simp

theorem cJalr (rs1 : Reg) : Statement (.cJalr rs1) := by
  refine of_row _ rfl ?_
  rintro ⟨_ | _ | _ | _ | _ | _ | _ | _ | _ | _ | _ | _ | _ | _ | _ | _ | k, hk⟩ <;>
    simp only [encode, BitVec.getLsbD_append] <;> simp

theorem hintCAddRd0 (rs2 : Reg) : Statement (.hintCAddRd0 rs2) := by
  refine of_row _ rfl ?_
  rintro ⟨_ | _ | _ | _ | _ | _ | _ | _ | _ | _ | _ | _ | _ | _ | _ | _ | k, hk⟩ <;>
    simp only [encode, BitVec.getLsbD_append] <;> simp

theorem cAdd (rd rs2 : Reg) : Statement (.cAdd rd rs2) := by
  refine of_row _ rfl ?_
  rintro ⟨_ | _ | _ | _ | _ | _ | _ | _ | _ | _ | _ | _ | _ | _ | _ | _ | k, hk⟩ <;>
    simp only [encode, BitVec.getLsbD_append] <;> simp

theorem cFsdsp (rs2 : Reg) (uimm : BitVec 9) : Statement (.cFsdsp rs2 uimm) := by
  refine of_row _ rfl ?_
  rintro ⟨_ | _ | _ | _ | _ | _ | _ | _ | _ | _ | _ | _ | _ | _ | _ | _ | k, hk⟩ <;>
    simp only [encode, BitVec.getLsbD_append] <;> simp

theorem cSwsp (rs2 : Reg) (uimm : BitVec 8) : Statement (.cSwsp rs2 uimm) := by
  refine of_row _ rfl ?_
  rintro ⟨_ | _ | _ | _ | _ | _ | _ | _ | _ | _ | _ | _ | _ | _ | _ | _ | k, hk⟩ <;>
    simp only [encode, BitVec.getLsbD_append] <;> simp

theorem cFswsp (rs2 : Reg) (uimm : BitVec 8) : Statement (.cFswsp rs2 uimm) := by
  refine of_row _ rfl ?_
  rintro ⟨_ | _ | _ | _ | _ | _ | _ | _ | _ | _ | _ | _ | _ | _ | _ | _ | k, hk⟩ <;>
    simp only [encode, BitVec.getLsbD_append] <;> simp

theorem refusedQ3 (rest : BitVec 14) : Statement (.refusedQ3 rest) := by
  refine of_row _ rfl ?_
  rintro ⟨_ | _ | _ | _ | _ | _ | _ | _ | _ | _ | _ | _ | _ | _ | _ | _ | k, hk⟩ <;>
    simp only [encode, BitVec.getLsbD_append] <;> simp

theorem cLd (rd rs1 : RegP) (uimm : BitVec 8) : Statement (.cLd rd rs1 uimm) := by
  refine of_row _ rfl ?_
  rintro ⟨_ | _ | _ | _ | _ | _ | _ | _ | _ | _ | _ | _ | _ | _ | _ | _ | k, hk⟩ <;>
    simp only [encode, BitVec.getLsbD_append] <;> simp

theorem cSd (rs2 rs1 : RegP) (uimm : BitVec 8) : Statement (.cSd rs2 rs1 uimm) := by
  refine of_row _ rfl ?_
  rintro ⟨_ | _ | _ | _ | _ | _ | _ | _ | _ | _ | _ | _ | _ | _ | _ | _ | k, hk⟩ <;>
    simp only [encode, BitVec.getLsbD_append] <;> simp

theorem cAddiw (rd : Reg) (imm : BitVec 6) : Statement (.cAddiw rd imm) := by
  refine of_row _ rfl ?_
  rintro ⟨_ | _ | _ | _ | _ | _ | _ | _ | _ | _ | _ | _ | _ | _ | _ | _ | k, hk⟩ <;>
    simp only [encode, BitVec.getLsbD_append] <;> simp

theorem cSubw (rd rs2 : RegP) : Statement (.cSubw rd rs2) := by
  refine of_row _ rfl ?_
  rintro ⟨_ | _ | _ | _ | _ | _ | _ | _ | _ | _ | _ | _ | _ | _ | _ | _ | k, hk⟩ <;>
    simp only [encode, BitVec.getLsbD_append] <;> simp

theorem cAddw (rd rs2 : RegP) : Statement (.cAddw rd rs2) := by
  refine of_row _ rfl ?_
  rintro ⟨_ | _ | _ | _ | _ | _ | _ | _ | _ | _ | _ | _ | _ | _ | _ | _ | k, hk⟩ <;>
    simp only [encode, BitVec.getLsbD_append] <;> simp

theorem cLdsp (rd : Reg) (uimm : BitVec 9) : Statement (.cLdsp rd uimm) := by
  refine of_row _ rfl ?_
  rintro ⟨_ | _ | _ | _ | _ | _ | _ | _ | _ | _ | _ | _ | _ | _ | _ | _ | k, hk⟩ <;>
    simp only [encode, BitVec.getLsbD_append] <;> simp

theorem cSdsp (rs2 : Reg) (uimm : BitVec 9) : Statement (.cSdsp rs2 uimm) := by
  refine of_row _ rfl ?_
  rintro ⟨_ | _ | _ | _ | _ | _ | _ | _ | _ | _ | _ | _ | _ | _ | _ | _ | k, hk⟩ <;>
    simp only [encode, BitVec.getLsbD_append] <;> simp

end Sys2Proof.Laws.CarriesTableBits
end

