-- ==== Sys2Proof/Tests/Slice0.lean ====
section
/-! SUPPORT. The model's own tests. Expected values are the spec's: the words are written out bit by bit from the encodings
of `30_encoding.md` to `42_quadrant2.md`, the results are the Example and Corner case lines of each rule. The last part
shows, for every statement of Obligations.lean that has hypotheses, values that meet them. -/

namespace Sys2Proof.Tests

open Sys2Proof Sys2Proof.Machine

/-! ## Small states -/

/-- Text at 0x1000 to 0x10FF, data at 0x2000 to 0x3FFF and at the two ends of the address space. -/
def testMap : MemMap :=
  [⟨0x1000, 0x100, ⟨true, false, true⟩⟩, ⟨0x2000, 0x2000, ⟨true, true, false⟩⟩, ⟨0, 0x100, ⟨true, true, false⟩⟩,
    ⟨0xFFFFFF00, 0x100, ⟨true, true, false⟩⟩, ⟨0x5000, 0x100, ⟨true, false, false⟩⟩]

/-- All registers 0, `FLEN` = 64, no program. -/
def blank : State := ⟨Vector.replicate 32 0, 0x1000, .double (Vector.replicate 32 0), [], testMap⟩

def withX (r : Reg) (v : Word) (s : State := blank) : State := s.writeX r v
def withF (r : Reg) (v : DWord) (s : State := blank) : State := s.writeF64 r v
def withBytes (a : Word) (l : List Byte) (s : State := blank) : State := s.storeBytes a l
def noF (s : State) : State := { s with f := .absent }
def onlyF (s : State) : State := { s with f := .single (Vector.replicate 32 0) }

def nextOf (o : Result) : Option State :=
  match o with
  | .next t => some t
  | .fault _ => none
  | .refused _ => none

def trapOf (o : Result) : Option Trap :=
  match o with
  | .next _ => none
  | .fault (.trap r _) => some r
  | .refused _ => none

def refusalOf (o : Result) : Option Refusal :=
  match o with
  | .next _ => none
  | .fault _ => none
  | .refused q => some q

def isFinished (o : RunOutcome) : Bool :=
  match o with
  | .finished _ _ => true
  | .faulted _ _ => false
  | .refused _ => false
  | .stillRunning _ => false

theorem exists_next {o : Result} (h : (nextOf o).isSome = true) : ∃ t, o = .next t := by
  cases o with
  | next t => exact ⟨t, rfl⟩
  | fault r => simp [nextOf] at h
  | refused q => simp [nextOf] at h

theorem exists_trap {o : Result} {r : Trap} (h : trapOf o = some r) : ∃ t, o = .fault (.trap r t) := by
  cases o with
  | next t => simp [trapOf] at h
  | fault q => obtain ⟨r', t⟩ := q; simp [trapOf] at h; subst h; exact ⟨t, rfl⟩
  | refused q => simp [trapOf] at h

theorem of_refusal {o : Result} {q : Refusal} (h : refusalOf o = some q) : o = .refused q := by
  cases o <;> simp [refusalOf] at h; rw [h]

/-- The bytes of a 4-byte load or store, read back. -/
def bytes4 (s : State) (a : Word) : List Byte := [s.byteAt a, s.byteAt (a + 1), s.byteAt (a + 2), s.byteAt (a + 3)]

/-! ## Decoding: one word per row, written out from its encoding -/

theorem test_decode_cAddi4spn : decodeParcel 0b000_00000001_010_00#16 = .cAddi4spn 2 8 := by decide
theorem test_decode_cFld : decodeParcel 0b001_001_000_00_001_00#16 = .cFld 1 0 8 := by decide
theorem test_decode_cLw : decodeParcel 0b010_000_000_10_001_00#16 = .cLw 1 0 4 := by decide
theorem test_decode_cFlw : decodeParcel 0b011_000_000_10_001_00#16 = .cFlw 1 0 4 := by decide
theorem test_decode_cFsd : decodeParcel 0b101_001_000_00_001_00#16 = .cFsd 1 0 8 := by decide
theorem test_decode_cSw : decodeParcel 0b110_001_000_00_001_00#16 = .cSw 1 0 8 := by decide
theorem test_decode_cFsw : decodeParcel 0b111_000_000_10_001_00#16 = .cFsw 1 0 4 := by decide
theorem test_decode_cNop : decodeParcel 0b000_0_00000_00000_01#16 = .cNop := by decide
theorem test_decode_cAddi : decodeParcel 0b000_1_01011_11111_01#16 = .cAddi 11 (-1) := by decide
theorem test_decode_cJal : decodeParcel 0b001_00000001000_01#16 = .cJal 8 := by decide
theorem test_decode_cLi : decodeParcel 0b010_1_01010_11111_01#16 = .cLi 10 (-1) := by decide
theorem test_decode_cAddi16sp : decodeParcel 0b011_1_00010_01111_01#16 = .cAddi16sp (-32) := by decide
theorem test_decode_cLui : decodeParcel 0b011_1_01010_00000_01#16 = .cLui 10 0x20000 := by decide
theorem test_decode_cSrli : decodeParcel 0b100_0_00_001_00100_01#16 = .cSrli 1 4 := by decide
theorem test_decode_cSrai : decodeParcel 0b100_0_01_010_10000_01#16 = .cSrai 2 16 := by decide
theorem test_decode_cAndi : decodeParcel 0b100_1_10_000_00000_01#16 = .cAndi 0 (-32) := by decide
theorem test_decode_cSub : decodeParcel 0b100011_010_00_011_01#16 = .cSub 2 3 := by decide
theorem test_decode_cXor : decodeParcel 0b100011_000_01_001_01#16 = .cXor 0 1 := by decide
theorem test_decode_cOr : decodeParcel 0b100011_000_10_001_01#16 = .cOr 0 1 := by decide
theorem test_decode_cAnd : decodeParcel 0b100011_000_11_001_01#16 = .cAnd 0 1 := by decide
theorem test_decode_cJ : decodeParcel 0b101_11111111011_01#16 = .cJ (-6) := by decide
theorem test_decode_cBeqz : decodeParcel 0b110_001_000_00000_01#16 = .cBeqz 0 8 := by decide
theorem test_decode_cBnez : decodeParcel 0b111_111_011_11101_01#16 = .cBnez 3 (-4) := by decide
theorem test_decode_cSlli : decodeParcel 0b000_0_01010_00010_10#16 = .cSlli 10 2 := by decide
theorem test_decode_cFldsp : decodeParcel 0b001_0_11111_10000_10#16 = .cFldsp 31 16 := by decide
theorem test_decode_cLwsp : decodeParcel 0b010_0_01010_00100_10#16 = .cLwsp 10 4 := by decide
theorem test_decode_cFlwsp : decodeParcel 0b011_0_00000_01000_10#16 = .cFlwsp 0 8 := by decide
theorem test_decode_cJr : decodeParcel 0b100_0_00001_00000_10#16 = .cJr 1 := by decide
theorem test_decode_cMv : decodeParcel 0b100_0_01010_01011_10#16 = .cMv 10 11 := by decide
theorem test_decode_cEbreak : decodeParcel 0b100_1_00000_00000_10#16 = .cEbreak := by decide
theorem test_decode_cJalr : decodeParcel 0b100_1_00101_00000_10#16 = .cJalr 5 := by decide
theorem test_decode_cAdd : decodeParcel 0b100_1_01010_01011_10#16 = .cAdd 10 11 := by decide
theorem test_decode_cFsdsp : decodeParcel 0b101_001000_01000_10#16 = .cFsdsp 8 8 := by decide
theorem test_decode_cSwsp : decodeParcel 0b110_011100_00001_10#16 = .cSwsp 1 28 := by decide
theorem test_decode_cFswsp : decodeParcel 0b111_000100_01000_10#16 = .cFswsp 8 4 := by decide
theorem test_decode_hintCNopImmNonzero : decodeParcel 0b000_0_00000_00001_01#16 = .hintCNopImmNonzero 1 := by decide
theorem test_decode_hintCAddiImm0 : decodeParcel 0b000_0_00101_00000_01#16 = .hintCAddiImm0 5 := by decide
theorem test_decode_hintCLiRd0 : decodeParcel 0b010_0_00000_00111_01#16 = .hintCLiRd0 7 := by decide
theorem test_decode_hintCLuiRd0 : decodeParcel 0b011_0_00000_00001_01#16 = .hintCLuiRd0 0x1000 := by decide
theorem test_decode_hintCSlliRd0 : decodeParcel 0b000_0_00000_00011_10#16 = .hintCSlliRd0 3 := by decide
theorem test_decode_hintCMvRd0 : decodeParcel 0b100_0_00000_00110_10#16 = .hintCMvRd0 6 := by decide
theorem test_decode_hintCAddRd0 : decodeParcel 0b100_1_00000_00110_10#16 = .hintCAddRd0 6 := by decide
theorem test_decode_illegalCAddi4spnNzuimm0 :
    decodeParcel 0b000_00000000_000_00#16 = .illegalCAddi4spnNzuimm0 0 := by decide
theorem test_decode_illegalQ0Funct3x100 : decodeParcel 0b100_00000000001_00#16 = .illegalQ0Funct3x100 1 := by decide
theorem test_decode_illegalCAddi16spImm0 : decodeParcel 0b011_0_00010_00000_01#16 = .illegalCAddi16spImm0 := by decide
theorem test_decode_illegalCLuiImm0 : decodeParcel 0b011_0_00011_00000_01#16 = .illegalCLuiImm0 3 := by decide
theorem test_decode_illegalCSrliCSraiShamt5 :
    decodeParcel 0b100_1_01_010_00011_01#16 = .illegalCSrliCSraiShamt5 1 2 3 := by decide
theorem test_decode_illegalCSubw : decodeParcel 0b100111_010_00_011_01#16 = .illegalCSubw 2 3 := by decide
theorem test_decode_illegalCAddw : decodeParcel 0b100111_010_01_011_01#16 = .illegalCAddw 2 3 := by decide
theorem test_decode_illegalQ1Reserved : decodeParcel 0b100_1_11_010_11_011_01#16 = .illegalQ1Reserved 2 1 3 := by decide
theorem test_decode_illegalCSlliShamt5 : decodeParcel 0b000_1_00101_00011_10#16 = .illegalCSlliShamt5 5 3 := by decide
theorem test_decode_illegalCLwspRd0 : decodeParcel 0b010_0_00000_00100_10#16 = .illegalCLwspRd0 4 := by decide
theorem test_decode_illegalCJrRs1x0 : decodeParcel 0b100_0_00000_00000_10#16 = .illegalCJrRs1x0 := by decide
theorem test_decode_refusedQ3 : decodeParcel 0b00000000000100_11#16 = .refusedQ3 4 := by decide
/-- R94: on RV32C these bits are the RV32C entry. -/
theorem test_bits_of_cLd : decodeParcel 0b011_000_000_10_001_00#16 = .cFlw 1 0 4 := by decide
/-- R94: on RV32C these bits are the RV32C entry. -/
theorem test_bits_of_cSd : decodeParcel 0b111_000_000_10_001_00#16 = .cFsw 1 0 4 := by decide
/-- R94: on RV32C these bits are the RV32C entry. -/
theorem test_bits_of_cAddiw : decodeParcel 0b001_0_00000_00001_01#16 = .cJal 32 := by decide
/-- R94: on RV32C these bits are the RV32C entry. -/
theorem test_bits_of_cLdsp : decodeParcel 0b011_0_00000_01000_10#16 = .cFlwsp 0 8 := by decide
/-- R94: on RV32C these bits are the RV32C entry. -/
theorem test_bits_of_cSdsp : decodeParcel 0b111_000100_01000_10#16 = .cFswsp 8 4 := by decide
theorem test_bits_of_cSubw_cAddw :
    encode (.cSubw 2 3) = 0b100111_010_00_011_01#16 ∧ encode (.cAddw 2 3) = 0b100111_010_01_011_01#16 := by decide
/-- Low byte first (R51, R63). -/
theorem test_decode_bytes :
    decode [0x44, 0x40, 0x07] = .ok (.cLw 1 0 4, [0x07]) ∧ decode [0x44] = .error .truncated := ⟨rfl, rfl⟩

/-! ## WellFormed: an ill-formed term for each check -/

theorem test_illformed_cAddi4spn_scale : ¬ WellFormed (.cAddi4spn 0 6) := by decide
theorem test_illformed_cAddi4spn_zero : ¬ WellFormed (.cAddi4spn 0 0) := by decide
theorem test_illformed_cFld_scale : ¬ WellFormed (.cFld 0 0 4) := by decide
theorem test_illformed_cLw_scale : ¬ WellFormed (.cLw 0 0 2) := by decide
theorem test_illformed_cFlw_scale : ¬ WellFormed (.cFlw 0 0 1) := by decide
theorem test_illformed_cFsd_scale : ¬ WellFormed (.cFsd 0 0 12) := by decide
theorem test_illformed_cSw_scale : ¬ WellFormed (.cSw 0 0 3) := by decide
theorem test_illformed_cFsw_scale : ¬ WellFormed (.cFsw 0 0 6) := by decide
theorem test_illformed_hintCNop_zero : ¬ WellFormed (.hintCNopImmNonzero 0) := by decide
theorem test_illformed_hintCAddi_rd : ¬ WellFormed (.hintCAddiImm0 0) := by decide
theorem test_illformed_cAddi_rd : ¬ WellFormed (.cAddi 0 1) := by decide
theorem test_illformed_cAddi_zero : ¬ WellFormed (.cAddi 1 0) := by decide
theorem test_illformed_cJal_odd : ¬ WellFormed (.cJal 3) := by decide
theorem test_illformed_cLi_rd : ¬ WellFormed (.cLi 0 1) := by decide
theorem test_illformed_cAddi16sp_scale : ¬ WellFormed (.cAddi16sp 8) := by decide
theorem test_illformed_cAddi16sp_zero : ¬ WellFormed (.cAddi16sp 0) := by decide
theorem test_illformed_illegalCLui_rd : ¬ WellFormed (.illegalCLuiImm0 2) := by decide
theorem test_illformed_hintCLui_scale : ¬ WellFormed (.hintCLuiRd0 0x800) := by decide
theorem test_illformed_hintCLui_zero : ¬ WellFormed (.hintCLuiRd0 0) := by decide
theorem test_illformed_cLui_rd0 : ¬ WellFormed (.cLui 0 0x1000) := by decide
theorem test_illformed_cLui_rd2 : ¬ WellFormed (.cLui 2 0x1000) := by decide
theorem test_illformed_cLui_scale : ¬ WellFormed (.cLui 1 1) := by decide
theorem test_illformed_cLui_zero : ¬ WellFormed (.cLui 1 0) := by decide
theorem test_illformed_cJ_odd : ¬ WellFormed (.cJ 1) := by decide
theorem test_illformed_cBeqz_odd : ¬ WellFormed (.cBeqz 0 1) := by decide
theorem test_illformed_cBnez_odd : ¬ WellFormed (.cBnez 0 255) := by decide
theorem test_illformed_cSlli_rd : ¬ WellFormed (.cSlli 0 1) := by decide
theorem test_illformed_cFldsp_scale : ¬ WellFormed (.cFldsp 0 4) := by decide
theorem test_illformed_illegalCLwsp_scale : ¬ WellFormed (.illegalCLwspRd0 2) := by decide
theorem test_illformed_cLwsp_rd : ¬ WellFormed (.cLwsp 0 4) := by decide
theorem test_illformed_cLwsp_scale : ¬ WellFormed (.cLwsp 1 2) := by decide
theorem test_illformed_cFlwsp_scale : ¬ WellFormed (.cFlwsp 0 2) := by decide
theorem test_illformed_cJr_rs1 : ¬ WellFormed (.cJr 0) := by decide
theorem test_illformed_hintCMv_rs2 : ¬ WellFormed (.hintCMvRd0 0) := by decide
theorem test_illformed_cMv_rd : ¬ WellFormed (.cMv 0 1) := by decide
theorem test_illformed_cMv_rs2 : ¬ WellFormed (.cMv 1 0) := by decide
theorem test_illformed_cJalr_rs1 : ¬ WellFormed (.cJalr 0) := by decide
theorem test_illformed_hintCAdd_rs2 : ¬ WellFormed (.hintCAddRd0 0) := by decide
theorem test_illformed_cAdd_rd : ¬ WellFormed (.cAdd 0 1) := by decide
theorem test_illformed_cAdd_rs2 : ¬ WellFormed (.cAdd 1 0) := by decide
theorem test_illformed_cFsdsp_scale : ¬ WellFormed (.cFsdsp 0 4) := by decide
theorem test_illformed_cSwsp_scale : ¬ WellFormed (.cSwsp 0 2) := by decide
theorem test_illformed_cFswsp_scale : ¬ WellFormed (.cFswsp 0 1) := by decide
theorem test_illformed_cLd : ¬ WellFormed (.cLd 0 0 0) := by decide
theorem test_illformed_cSd : ¬ WellFormed (.cSd 0 0 0) := by decide
theorem test_illformed_cAddiw : ¬ WellFormed (.cAddiw 1 1) := by decide
theorem test_illformed_cSubw : ¬ WellFormed (.cSubw 0 0) := by decide
theorem test_illformed_cAddw : ¬ WellFormed (.cAddw 0 0) := by decide
theorem test_illformed_cLdsp : ¬ WellFormed (.cLdsp 1 0) := by decide
theorem test_illformed_cSdsp : ¬ WellFormed (.cSdsp 0 0) := by decide

/-! ## One step of each instruction (the spec's Example and Corner case lines) -/

theorem test_cAddi4spn :
    (nextOf (exec (.cAddi4spn 2 8) (withX 2 0x1000))).map (fun t => (t.readX 10, t.pc)) = some (0x1008, 0x1002) := by decide
theorem test_cAddi4spn_wraps :
    (nextOf (exec (.cAddi4spn 2 1020) (withX 2 0xFFFFFFFC))).map (fun t => (t.readX 10, t.pc)) = some (0x3F8, 0x1002) := by decide
theorem test_cNop : (nextOf (exec (.cNop) (withX 5 7))).map (fun t => (t.readX 5, t.pc)) = some (7, 0x1002) := by decide
theorem test_cAddi :
    (nextOf (exec (.cAddi 11 (-1)) (withX 11 5))).map (fun t => (t.readX 11, t.pc)) = some (4, 0x1002) := by decide
theorem test_cAddi_wraps :
    (nextOf (exec (.cAddi 2 31) (withX 2 0x7FFFFFFF))).map (fun t => (t.readX 2, t.pc)) = some (0x8000001E, 0x1002) := by decide
theorem test_cLi :
    (nextOf (exec (.cLi 10 (-32)) (withX 10 5))).map (fun t => (t.readX 10, t.pc)) = some (0xFFFFFFE0, 0x1002) := by decide
theorem test_cAddi16sp :
    (nextOf (exec (.cAddi16sp (-512)) (withX 2 0x10000))).map (fun t => (t.readX 2, t.pc)) = some (0xFE00, 0x1002) := by decide
theorem test_cAddi16sp_wraps :
    (nextOf (exec (.cAddi16sp 16) (withX 2 0xFFFFFFF0))).map (fun t => (t.readX 2, t.pc)) = some (0, 0x1002) := by decide
theorem test_cLui :
    (nextOf (exec (.cLui 8 0x1F000) blank)).map (fun t => (t.readX 8, t.pc)) = some (0x1F000, 0x1002) := by decide
theorem test_cLui_negative :
    (nextOf (exec (.cLui 10 0x20000) blank)).map (fun t => (t.readX 10, t.pc)) = some (0xFFFE0000, 0x1002) := by decide
theorem test_cSrli :
    (nextOf (exec (.cSrli 1 4) (withX 9 0x0001EFFF))).map (fun t => (t.readX 9, t.pc)) = some (0x1EFF, 0x1002) := by decide
theorem test_cSrli_31 :
    (nextOf (exec (.cSrli 1 31) (withX 9 0x80000000))).map (fun t => (t.readX 9, t.pc)) = some (1, 0x1002) := by decide
theorem test_cSrai :
    (nextOf (exec (.cSrai 2 16) (withX 10 0xFFFE0000))).map (fun t => (t.readX 10, t.pc)) = some (0xFFFFFFFE, 0x1002) := by decide
theorem test_cSrai_31 :
    (nextOf (exec (.cSrai 2 31) (withX 10 0x7FFFFFFF))).map (fun t => (t.readX 10, t.pc)) = some (0, 0x1002) := by decide
theorem test_cAndi :
    (nextOf (exec (.cAndi 0 (-32)) (withX 8 0x12345678))).map (fun t => (t.readX 8, t.pc)) = some (0x12345660, 0x1002) := by decide
theorem test_cSub :
    (nextOf (exec (.cSub 2 3) (withX 10 7 (withX 11 9)))).map (fun t => (t.readX 10, t.pc)) = some (0xFFFFFFFE, 0x1002) := by decide
theorem test_cXor :
    (nextOf (exec (.cXor 0 1) (withX 8 0xFF00FF00 (withX 9 0x0FF00FF0)))).map (fun t => (t.readX 8, t.pc)) = some (0xF0F0F0F0, 0x1002) := by decide
theorem test_cOr :
    (nextOf (exec (.cOr 0 1) (withX 8 0xFF00FF00 (withX 9 0x0FF00FF0)))).map (fun t => (t.readX 8, t.pc)) = some (0xFFF0FFF0, 0x1002) := by decide
theorem test_cAnd :
    (nextOf (exec (.cAnd 0 1) (withX 8 0xFF00FF00 (withX 9 0x0FF00FF0)))).map (fun t => (t.readX 8, t.pc)) = some (0x0F000F00, 0x1002) := by decide
theorem test_cSlli :
    (nextOf (exec (.cSlli 10 2) (withX 10 0xC0000003))).map (fun t => (t.readX 10, t.pc)) = some (0xC, 0x1002) := by decide
theorem test_cMv :
    (nextOf (exec (.cMv 10 11) (withX 11 0x12345678))).map (fun t => (t.readX 10, t.pc)) = some (0x12345678, 0x1002) := by decide
theorem test_cAdd :
    (nextOf (exec (.cAdd 10 10) (withX 10 0x40000000))).map (fun t => (t.readX 10, t.pc)) = some (0x80000000, 0x1002) := by decide
theorem test_cAdd_wraps :
    (nextOf (exec (.cAdd 10 11) (withX 10 0xFFFFFFFF (withX 11 2)))).map (fun t => (t.readX 10, t.pc)) = some (1, 0x1002) := by decide
theorem test_cJ :
    (nextOf (exec (.cJ (-6)) (blank.setPc 0x1006))).map (fun t => (t.readX 1, t.pc)) = some (0, 0x1000) := by decide
theorem test_cJal :
    (nextOf (exec (.cJal 8) (blank.setPc 0x3002))).map (fun t => (t.readX 1, t.pc)) = some (0x3004, 0x300A) := by decide
theorem test_cJal_wraps :
    (nextOf (exec (.cJal 2) (blank.setPc 0xFFFFFFFE))).map (fun t => (t.readX 1, t.pc)) = some (0, 0) := by decide
theorem test_cBeqz_taken : (nextOf (exec (.cBeqz 0 8) blank)).map (fun t => t.pc) = some 0x1008 := by decide
theorem test_cBeqz_not_taken : (nextOf (exec (.cBeqz 0 8) (withX 8 1))).map (fun t => t.pc) = some 0x1002 := by decide
theorem test_cBnez_taken :
    (nextOf (exec (.cBnez 3 (-4)) (withX 11 0x80000000 (blank.setPc 0x1008)))).map (fun t => t.pc) = some 0x1004 := by decide
theorem test_cBnez_not_taken :
    (nextOf (exec (.cBnez 3 (-4)) (blank.setPc 0x1008))).map (fun t => t.pc) = some 0x100A := by decide
theorem test_cJr :
    (nextOf (exec (.cJr 1) (withX 1 0x2001))).map (fun t => (t.readX 1, t.pc)) = some (0x2001, 0x2000) := by decide
theorem test_cJalr :
    (nextOf (exec (.cJalr 5) (withX 5 0x600C (blank.setPc 0x6004)))).map (fun t => (t.readX 1, t.pc)) = some (0x6006, 0x600C) := by decide
theorem test_cJalr_x1 :
    (nextOf (exec (.cJalr 1) (withX 1 0x3005))).map (fun t => (t.readX 1, t.pc)) = some (0x1002, 0x3004) := by decide
theorem test_cLw_own_base :
    (nextOf (exec (.cLw 0 0 124) (withX 8 0xFFFFFFF0 (withBytes 0x6C [1, 2, 3, 4])))).map (fun t => (t.readX 8, t.pc)) = some (0x04030201, 0x1002) := by decide
theorem test_cLwsp :
    (nextOf (exec (.cLwsp 2 0) (withX 2 0x3000 (withBytes 0x3000 [0xEF, 0xBE, 0xAD, 0xDE])))).map (fun t => (t.readX 2, t.pc)) = some (0xDEADBEEF, 0x1002) := by decide
theorem test_cSw :
    (nextOf (exec (.cSw 1 0 8) (withX 8 0x2000 (withX 9 0xDEADBEEF)))).map (fun t => (bytes4 t 0x2008, t.pc)) = some ([0xEF, 0xBE, 0xAD, 0xDE], 0x1002) := by decide
theorem test_cSwsp :
    (nextOf (exec (.cSwsp 1 28) (withX 2 0xFFFFFFE0 (withX 1 0x12345678)))).map (fun t => (bytes4 t 0xFFFFFFFC, t.pc)) = some ([0x78, 0x56, 0x34, 0x12], 0x1002) := by decide
theorem test_cSwsp_x0 :
    (nextOf (exec (.cSwsp 0 0) (withX 2 0x3000 (withBytes 0x3000 [1, 2, 3, 4])))).map (fun t => (bytes4 t 0x3000, t.mem)) = some ([0, 0, 0, 0], []) := by decide
theorem test_cFld :
    (nextOf (exec (.cFld 1 0 8) (withX 8 0x2000 (withBytes 0x2008 [0x18, 0x2D, 0x44, 0x54, 0xFB, 0x21, 0x09, 0x40])))).map (fun t => t.readF64 9) = some (some 0x400921FB54442D18) := by decide
theorem test_cFldsp :
    (nextOf (exec (.cFldsp 31 16) (withX 2 0x3000 (withBytes 0x3010 [1, 2, 3, 4, 5, 6, 7, 8])))).map (fun t => t.readF64 31) = some (some 0x0807060504030201) := by decide
theorem test_cFlw :
    (nextOf (exec (.cFlw 1 0 4) (withX 8 0x2000 (withBytes 0x2004 [0, 0, 0x80, 0x3F])))).map (fun t => t.readF64 9) = some (some 0xFFFFFFFF3F800000) := by decide
theorem test_cFlw_flen32 :
    (nextOf (exec (.cFlw 1 0 4) (onlyF (withX 8 0x2000 (withBytes 0x2004 [0, 0, 0x80, 0x3F]))))).map (fun t => (t.readF32 9, t.readF64 9)) = some (some 0x3F800000, none) := by decide
theorem test_cFlwsp :
    (nextOf (exec (.cFlwsp 0 8) (withX 2 0x3000 (withBytes 0x3008 [0, 0, 0, 0xC0])))).map (fun t => t.readF64 0) = some (some 0xFFFFFFFFC0000000) := by decide
theorem test_cFsd :
    (nextOf (exec (.cFsd 1 0 8) (withX 8 0x2000 (withF 9 0x400921FB54442D18)))).map (fun t => (bytes4 t 0x2008, bytes4 t 0x200C)) = some ([0x18, 0x2D, 0x44, 0x54], [0xFB, 0x21, 0x09, 0x40]) := by decide
theorem test_cFsdsp :
    (nextOf (exec (.cFsdsp 8 8) (withX 2 0x3000 (withF 8 0xBFF0000000000000)))).map (fun t => (bytes4 t 0x3008, bytes4 t 0x300C)) = some ([0, 0, 0, 0], [0, 0, 0xF0, 0xBF]) := by decide
theorem test_cFsw :
    (nextOf (exec (.cFsw 1 0 4) (withX 8 0x2000 (withF 9 0x1234567840490FDB)))).map (fun t => (bytes4 t 0x2004, bytes4 t 0x2008)) = some ([0xDB, 0x0F, 0x49, 0x40], [0, 0, 0, 0]) := by decide
theorem test_cFswsp :
    (nextOf (exec (.cFswsp 8 4) (withX 2 0x3000 (withF 8 0xFFFFFFFFBF800000)))).map (fun t => bytes4 t 0x3004) = some [0, 0, 0x80, 0xBF] := by decide
theorem test_hintCNopImmNonzero :
    (nextOf (exec (.hintCNopImmNonzero 1) (withX 5 9))).map (fun t => (t.readX 0, t.readX 5, t.pc)) = some (0, 9, 0x1002) := by decide
theorem test_hintCAddiImm0 :
    (nextOf (exec (.hintCAddiImm0 5) (withX 5 9))).map (fun t => (t.readX 0, t.readX 5, t.pc)) = some (0, 9, 0x1002) := by decide
theorem test_hintCLiRd0 :
    (nextOf (exec (.hintCLiRd0 7) (withX 5 9))).map (fun t => (t.readX 0, t.readX 5, t.pc)) = some (0, 9, 0x1002) := by decide
theorem test_hintCLuiRd0 :
    (nextOf (exec (.hintCLuiRd0 0x1000) (withX 5 9))).map (fun t => (t.readX 0, t.readX 5, t.pc)) = some (0, 9, 0x1002) := by decide
theorem test_hintCSlliRd0 :
    (nextOf (exec (.hintCSlliRd0 3) (withX 5 9))).map (fun t => (t.readX 0, t.readX 5, t.pc)) = some (0, 9, 0x1002) := by decide
theorem test_hintCMvRd0 :
    (nextOf (exec (.hintCMvRd0 5) (withX 5 9))).map (fun t => (t.readX 0, t.readX 5, t.pc)) = some (0, 9, 0x1002) := by decide
theorem test_hintCAddRd0 :
    (nextOf (exec (.hintCAddRd0 5) (withX 5 9))).map (fun t => (t.readX 0, t.readX 5, t.pc)) = some (0, 9, 0x1002) := by decide
theorem test_cLd :
    (nextOf (exec (.cLd 1 0 64) (withX 8 0x2000 (withBytes 0x2040 [1, 2, 3, 4])))).map (fun t => t.readF32 9) = some (some 0x04030201) := by decide
theorem test_cSd :
    (nextOf (exec (.cSd 1 0 64) (withX 8 0x2000 (withF 9 0x04030201)))).map (fun t => bytes4 t 0x2040) = some [1, 2, 3, 4] := by decide
theorem test_cAddiw :
    (nextOf (exec (.cAddiw 0 1) (blank.setPc 0x1000))).map (fun t => (t.readX 1, t.pc)) = some (0x1002, 0x1020) := by decide
theorem test_cLdsp :
    (nextOf (exec (.cLdsp 0 8) (withX 2 0x3000 (withBytes 0x3008 [0, 0, 0, 0xC0])))).map (fun t => t.readF32 0) = some (some 0xC0000000) := by decide
theorem test_cSdsp :
    (nextOf (exec (.cSdsp 8 128) (withX 2 0x3000 (withF 8 7)))).map (fun t => bytes4 t 0x3080) = some [7, 0, 0, 0] := by decide

/-! ## Stops -/

theorem test_cEbreak : trapOf (exec .cEbreak (blank.setPc 0x100A)) = some ⟨.breakpoint, 0x100A, 0x100A⟩ := by decide
theorem test_lw_misaligned_before_unmapped :
    trapOf (exec (.cLw 0 0 0) (withX 8 0x9002)) = some ⟨.loadAddressMisaligned, 0x1000, 0x9002⟩ := by decide
theorem test_lwsp_unmapped :
    trapOf (exec (.cLwsp 1 0) (withX 2 0x9000)) = some ⟨.loadAccessFault, 0x1000, 0x9000⟩ := by decide
theorem test_fld_misaligned_by_4 :
    trapOf (exec (.cFld 0 0 0) (withX 8 0x2004)) = some ⟨.loadAddressMisaligned, 0x1000, 0x2004⟩ := by decide
theorem test_sw_to_text :
    trapOf (exec (.cSw 0 0 0) (withX 8 0x1000)) = some ⟨.storeAccessFault, 0x1000, 0x1000⟩ := by decide
theorem test_fsdsp_to_read_only :
    trapOf (exec (.cFsdsp 0 0) (withX 2 0x5000)) = some ⟨.storeAccessFault, 0x1000, 0x5000⟩ := by decide
theorem test_fswsp_misaligned :
    trapOf (exec (.cFswsp 0 0) (withX 2 0x3001)) = some ⟨.storeAddressMisaligned, 0x1000, 0x3001⟩ := by decide
theorem test_fsw_without_f :
    trapOf (exec (.cFsw 1 0 4) (noF (withX 8 0x9001))) = some ⟨.illegalInstruction, 0x1000, 0xE044⟩ := by decide
theorem test_fsd_without_d :
    trapOf (exec (.cFsd 1 0 8) (onlyF (withX 8 0x9001))) = some ⟨.illegalInstruction, 0x1000, 0xA404⟩ := by decide
theorem test_zero_parcel : trapOf (step (blank.withFetchWord 16 0)) = some ⟨.illegalInstruction, 0x1000, 0⟩ := by decide
theorem test_first_fetch_from_reset :
    trapOf (step State.reset) = some ⟨.instructionAccessFault, 0x1000, 0x1000⟩ := by decide
theorem test_stops_illegalCAddi4spnNzuimm0 :
    trapOf (exec (.illegalCAddi4spnNzuimm0 1) blank) = some ⟨.illegalInstruction, 0x1000, 0x0004⟩ := by decide
theorem test_stops_illegalQ0Funct3x100 :
    trapOf (exec (.illegalQ0Funct3x100 1) blank) = some ⟨.illegalInstruction, 0x1000, 0x8004⟩ := by decide
theorem test_stops_illegalCAddi16spImm0 :
    trapOf (exec .illegalCAddi16spImm0 blank) = some ⟨.illegalInstruction, 0x1000, 0x6101⟩ := by decide
theorem test_stops_illegalCLuiImm0 :
    trapOf (exec (.illegalCLuiImm0 3) blank) = some ⟨.illegalInstruction, 0x1000, 0x6181⟩ := by decide
theorem test_stops_illegalCSrliCSraiShamt5 :
    trapOf (exec (.illegalCSrliCSraiShamt5 1 2 3) blank) = some ⟨.illegalInstruction, 0x1000, 0x950D⟩ := by decide
theorem test_stops_illegalCSubw :
    trapOf (exec (.illegalCSubw 2 3) blank) = some ⟨.illegalInstruction, 0x1000, 0x9D0D⟩ := by decide
theorem test_stops_illegalCAddw :
    trapOf (exec (.illegalCAddw 2 3) blank) = some ⟨.illegalInstruction, 0x1000, 0x9D2D⟩ := by decide
theorem test_stops_illegalQ1Reserved :
    trapOf (exec (.illegalQ1Reserved 2 1 3) blank) = some ⟨.illegalInstruction, 0x1000, 0x9D6D⟩ := by decide
theorem test_stops_illegalCSlliShamt5 :
    trapOf (exec (.illegalCSlliShamt5 5 3) blank) = some ⟨.illegalInstruction, 0x1000, 0x128E⟩ := by decide
theorem test_stops_illegalCLwspRd0 :
    trapOf (exec (.illegalCLwspRd0 4) blank) = some ⟨.illegalInstruction, 0x1000, 0x4012⟩ := by decide
theorem test_stops_illegalCJrRs1x0 :
    trapOf (exec .illegalCJrRs1x0 blank) = some ⟨.illegalInstruction, 0x1000, 0x8002⟩ := by decide
theorem test_stops_cSubw : trapOf (exec (.cSubw 2 3) blank) = some ⟨.illegalInstruction, 0x1000, 0x9D0D⟩ := by decide
theorem test_stops_cAddw : trapOf (exec (.cAddw 2 3) blank) = some ⟨.illegalInstruction, 0x1000, 0x9D2D⟩ := by decide
theorem test_stops_refusedQ3 :
    refusalOf (exec (.refusedQ3 4) blank) = some (.thirtyTwoBitInstruction 0x0013) := by decide

/-! ## Placing and running a word; reset -/

theorem test_placed_word_runs :
    (nextOf (step (State.reset.withFetchWord 16 0x557D))).map (fun t => (t.readX 10, t.pc)) = some (0xFFFFFFFF, 0x1002) := by decide
theorem test_placed_word_decodes : decodeTableWord 16 0x557D = some (.cLi 10 (-1)) := by decide
theorem test_odd_pc : refusalOf (step (blank.setPc 0x1001)) = some (.oddPc 0x1001) := by decide

/-! ## The hypotheses of the statements can be met -/

/-- `c.addi x11, -1` placed at 0x1000. -/
def adding : State := blank.withFetchWord 16 0x15FD

/-- `c.ebreak` placed at 0x1000. -/
def breaking : State := blank.withFetchWord 16 0x9002

/-- The parcel 0x0013 (quadrant 3) placed at 0x1000. -/
def refusing : State := blank.withFetchWord 16 0x0013

/-- `c.lw x9, 4(x8)` placed at 0x1000, with `x8 = a`. -/
def loading (a : Word) : State := withX 8 a (blank.withFetchWord 16 0x4044)

/-- `c.sw x9, 8(x8)` placed at 0x1000, with `x8 = a`. -/
def storing (a : Word) : State := withX 8 a (blank.withFetchWord 16 0xC404)

/-- A launch with text at 0x4000 and an image that loads one address twice. -/
def someLaunch : LaunchArgs :=
  ⟨.absent, 0x4000, Vector.replicate 31 7, [⟨0x4000, 2, ⟨true, false, true⟩⟩], [(0x4000, 1), (0x4001, 2), (0x4000, 3)]⟩

theorem of_ok {ε α : Type} {o : Except ε α} (h : o.toOption.isSome = true) : ∃ t, o = .ok t := by
  cases o with
  | ok t => exact ⟨t, rfl⟩
  | error e => simp [Except.toOption] at h

theorem test_hyps_DecodeEncode :
    WellFormed (.cLw 7 7 124) ∧
      WellFormed (.cLui 31 0x3F000) ∧
      WellFormed (.cAddi16sp (-512)) ∧
      WellFormed (.refusedQ3 0x3FFF) :=
  ⟨by decide, by decide, by decide, by decide⟩
theorem test_hyps_StepRunsDecodedInstruction :
    adding.pc.toNat % 2 = 0 ∧
      Fetchable adding ∧
      decode [adding.byteAt adding.pc, adding.byteAt (adding.pc + 1)] = .ok (.cAddi 11 (-1), []) ∧
      WellFormed (.cAddi 11 (-1)) :=
  ⟨by decide, by decide, rfl, by decide⟩
theorem test_hyps_FetchTakesTwoBytes :
    Fetchable adding ∧
      Fetchable (adding.setPc 0x10FE) ∧
      ¬ Fetchable (adding.setPc 0x1100) ∧
      ¬ Fetchable State.reset ∧
      (adding.setPc 0x10FE).pc.toNat % 2 = 0 ∧
      State.reset.pc.toNat % 2 = 0 :=
  ⟨by decide, by decide, by decide, by decide, by decide, by decide⟩
theorem test_hyps_OddPcIsRefused :
    (blank.setPc 0x1001).pc.toNat % 2 = 1 ∧
      (blank.setPc 0xFFFFFFFF).pc.toNat % 2 = 1 :=
  ⟨by decide, by decide⟩
theorem test_hyps_PlacedWordRuns :
    State.reset.pc.toNat % 2 = 0 ∧
      (blank.setPc 0xFFFFFFFE).pc.toNat % 2 = 0 ∧
      ((0x1002 : Word) ≠ State.reset.pc ∧ (0x1002 : Word) ≠ State.reset.pc + 1) :=
  ⟨by decide, by decide, by decide⟩
theorem test_hyps_StepKeepsInvariant :
    adding.Inv ∧
      (∃ t, step adding = .next t) :=
  ⟨by decide, exists_next (by decide)⟩
theorem test_hyps_LaunchGivesInvariant :
    (∃ t, launch someLaunch = .ok t) :=
  of_ok (by decide)
theorem test_hyps_LaunchRejectsOddPc :
    ({ someLaunch with resetPc := 0xFFFFFFFF } : LaunchArgs).resetPc.toNat % 2 = 1 ∧
      (∃ t, launch someLaunch = .ok t) :=
  ⟨by decide, of_ok (by decide)⟩
theorem test_hyps_LaunchStateHoldsTheArguments :
    someLaunch.resetPc.toNat % 2 = 0 ∧
      MemMap.exclusive someLaunch.map = true ∧
      someLaunch.image = [(0x4000, 1)] ++ (0x4001, 2) :: [(0x4000, 3)] ∧
      (∀ c : Byte, ((0x4001 : Word), c) ∉ [((0x4000 : Word), (3 : Byte))]) ∧
      someLaunch.image = [(0x4000, 1), (0x4001, 2)] ++ (0x4000, 3) :: [] ∧
      (∀ c : Byte, ((0x4000 : Word), c) ∉ ([] : List (Word × Byte))) ∧
      (∀ c : Byte, ((0 : Word), c) ∉ someLaunch.image) :=
  ⟨by decide, by decide, rfl, by simp, rfl, by simp, by simp [someLaunch]⟩
theorem test_hyps_PcStaysEven :
    (∃ t, launch someLaunch = .ok t) ∧
      adding.pc.toNat % 2 = 0 ∧
      (∃ t, step adding = .next t) ∧
      (∃ t, step breaking = .fault (.trap ⟨.breakpoint, 0x1000, 0x1000⟩ t)) :=
  ⟨of_ok (by decide), by decide, exists_next (by decide), exists_trap (by decide)⟩
theorem test_hyps_TextIsImmutable :
    MemMap.exclusive adding.map = true ∧
      (∃ t, step adding = .next t) ∧
      (MemMap.executable adding.map 0x1000 = true ∧ MemMap.executable adding.map 0x10FF = true) ∧
      ((profile (.cSw 1 0 8)).access = some ⟨true, 4, 8, 8⟩ ∧ (profile (.cSw 1 0 8)).needs.met (withX 8 0x10F4) = true) ∧
      (((⟨true, 4, 8, 8⟩ : Access).address (withX 8 0x10F4)) = 0x10FC ∧ (0x10FC : Word).toNat % 4 = 0) ∧
      (MemMap.executable (withX 8 0x10F4).map (0x10FC + BitVec.ofNat 32 3) = true ∧ MemMap.exclusive (withX 8 0x10F4).map = true) :=
  ⟨by decide, exists_next (by decide), by decide, by decide, by decide, by decide⟩
theorem test_hyps_TrapHandsOutUnchangedState :
    (∃ t, step breaking = .fault (.trap ⟨.breakpoint, 0x1000, 0x1000⟩ t)) :=
  exists_trap (by decide)
theorem test_hyps_TrapValue :
    (∃ t, step State.reset = .fault (.trap ⟨.instructionAccessFault, 0x1000, 0x1000⟩ t)) ∧
      (∃ t, step (blank.withFetchWord 16 0x6101) = .fault (.trap ⟨.illegalInstruction, 0x1000, 0x6101⟩ t)) ∧
      (∃ t, step breaking = .fault (.trap ⟨.breakpoint, 0x1000, 0x1000⟩ t)) ∧
      (∃ t, step (loading 0x2001) = .fault (.trap ⟨.loadAddressMisaligned, 0x1000, 0x2005⟩ t)) ∧
      (∃ t, step (loading 0x3FFC) = .fault (.trap ⟨.loadAccessFault, 0x1000, 0x4000⟩ t)) ∧
      (∃ t, step (storing 0x2001) = .fault (.trap ⟨.storeAddressMisaligned, 0x1000, 0x2009⟩ t)) ∧
      (∃ t, step (storing 0x3FF8) = .fault (.trap ⟨.storeAccessFault, 0x1000, 0x4000⟩ t)) :=
  ⟨exists_trap (by decide), exists_trap (by decide), exists_trap (by decide), exists_trap (by decide), exists_trap (by decide), exists_trap (by decide), exists_trap (by decide)⟩
theorem test_hyps_WhoRaisesWhat :
    (WellFormed (.cFld 0 0 248) ∧ WellFormed (.cSw 1 0 8) ∧ WellFormed .cEbreak ∧ WellFormed .illegalCJrRs1x0) ∧
      (∃ t, exec (.cFld 0 0 248) (withX 8 4) = .fault (.trap ⟨.loadAddressMisaligned, 0x1000, 0xFC⟩ t)) ∧
      (∃ t, exec (.cSw 1 0 8) (withX 8 0x3FF8) = .fault (.trap ⟨.storeAccessFault, 0x1000, 0x4000⟩ t)) ∧
      (∃ t, exec .cEbreak blank = .fault (.trap ⟨.breakpoint, 0x1000, 0x1000⟩ t)) ∧
      (∃ t, exec .illegalCJrRs1x0 blank = .fault (.trap ⟨.illegalInstruction, 0x1000, 0x8002⟩ t)) ∧
      ((profile (.cJalr 1)).role = .runs ∧ (profile (.cJalr 1)).access = none) ∧
      (State.reset.pc.toNat % 2 = 0 ∧ ¬ Fetchable State.reset) :=
  ⟨by decide, exists_trap (by decide), exists_trap (by decide), exists_trap (by decide), exists_trap (by decide), by decide, by decide⟩
theorem test_hyps_StepStopsInTheSpecifiedOrder :
    (adding.pc.toNat % 2 = 0 ∧ ¬ Fetchable State.reset) ∧
      (Fetchable refusing ∧ (refusing.byteAt (refusing.pc + 1) ++ refusing.byteAt refusing.pc).toNat % 4 = 3) ∧
      (Fetchable (blank.withFetchWord 16 0x6101) ∧ IllegalHere (decodeParcel 0x6101) blank) ∧
      (IllegalHere (decodeParcel 0x4044) blank → False) ∧
      IllegalHere (decodeParcel 0x6044) (noF blank) ∧
      (Fetchable breaking ∧ decodeParcel (breaking.byteAt (breaking.pc + 1) ++ breaking.byteAt breaking.pc) = .cEbreak) ∧
      (Fetchable (loading 0x3FF8) ∧ (profile (decodeParcel 0x4044)).access = some ⟨false, 4, 8, 4⟩) ∧
      ((⟨false, 4, 8, 4⟩ : Access).address (loading 0x3FF8) = 0x3FFC ∧ (0x3FFC : Word).toNat % 4 = 0 ∧ Readable (loading 0x3FF8) 0x3FFC 4) ∧
      ((0x3FFD : Word).toNat % 4 ≠ 0 ∧ ¬ Readable (loading 0x3FFC) 0x4000 4) ∧
      (Fetchable (storing 0x3FF4) ∧ (profile (decodeParcel 0xC404)).access = some ⟨true, 4, 8, 8⟩) ∧
      ((⟨true, 4, 8, 8⟩ : Access).address (storing 0x3FF4) = 0x3FFC ∧ Writable (storing 0x3FF4) 0x3FFC 4 ∧ ¬ Writable (storing 0x3FF8) 0x4000 4) ∧
      ((profile (decodeParcel 0x15FD)).role = .runs ∧ (profile (decodeParcel 0x15FD)).access = none) :=
  ⟨by decide, by decide, ⟨by decide, Or.inl (by decide)⟩, by rintro (h | h) <;> exact absurd h (by decide), Or.inr (by decide), by decide, by decide, by decide, by decide, by decide, by decide, by decide⟩
theorem test_hyps_RunStopsAtTheFirstTrap :
    (Host.Core.run Sys2Proof.core 0 breaking = .next breaking) ∧
      (∃ t, step breaking = .fault (.trap ⟨.breakpoint, 0x1000, 0x1000⟩ t)) ∧
      (∃ t, step State.reset = .fault (.trap ⟨.instructionAccessFault, 0x1000, 0x1000⟩ t)) ∧
      step refusing = .refused (.thirtyTwoBitInstruction 0x0013) ∧
      (∃ t, step adding = .next t) :=
  ⟨rfl, exists_trap (by decide), exists_trap (by decide), of_refusal (by decide), exists_next (by decide)⟩
theorem test_hyps_RunStopsAtTheFirstTrap_ends :
    (⟨.breakpoint, 0x1000, 0x1000⟩ : Trap).EndsAt [0x1000] ∧
      ¬ (⟨.breakpoint, 0x1000, 0x1000⟩ : Trap).EndsAt [0x1002] ∧
      ¬ (⟨.instructionAccessFault, 0x1000, 0x1000⟩ : Trap).EndsAt [0x1000] :=
  ⟨by decide, by decide, by decide⟩
/-- R230, D27: a Breakpoint finishes the run at the program's end alone. -/
theorem test_run_ends :
    isFinished (runOutcome [0x1000] 1 breaking) = true ∧ isFinished (runOutcome [0x1002] 1 breaking) = false ∧
      isFinished (runOutcome [] 1 breaking) = false := by decide
theorem test_hyps_NextPcTable :
    (WellFormed (.cBeqz 0 (-256)) ∧ WellFormed (.cJ 2046) ∧ WellFormed .cEbreak) ∧
      (∃ t, exec (.cBeqz 0 (-256)) blank = .next t) ∧
      (∃ t, exec (.cJ 2046) blank = .next t) ∧
      (∃ t, exec .cEbreak blank = .fault (.trap ⟨.breakpoint, 0x1000, 0x1000⟩ t)) :=
  ⟨by decide, exists_next (by decide), exists_next (by decide), exists_trap (by decide)⟩
theorem test_hyps_RegistersReadAndWritten :
    (WellFormed (.cMv 10 11) ∧ (profile (.cMv 10 11)).destX ≠ some 11 ∧ (10 : Reg) ∉ (profile (.cMv 10 11)).readsX) ∧
      WellFormed (.cJalr 1) ∧
      (∃ t, exec (.cJalr 1) (withX 1 0x3005) = .next t) ∧
      (∃ t, exec (.cMv 10 11) blank = .next t) ∧
      ((profile (.cMv 10 11)).destX = some 10 ∧ (0 : Reg) ∉ (profile (.cMv 10 11)).readsX) :=
  ⟨by decide, by decide, exists_next (by decide), exists_next (by decide), by decide⟩
theorem test_hyps_EveryInstructionFrame :
    (WellFormed (.cSw 1 0 8) ∧ WellFormed (.cFlw 1 0 4)) ∧
      (∃ t, exec (.cSw 1 0 8) (withX 8 0x3FF4) = .next t) ∧
      (∃ t, exec (.cFlw 1 0 4) (withX 8 0x2000) = .next t) ∧
      ((profile (.cSw 1 0 8)).destX ≠ some 8 ∧ (profile (.cFlw 1 0 4)).destF ≠ some 8) ∧
      (∀ k : Access, (profile (.cSw 1 0 8)).access = some k → k.store = true →
        k.size ≤ ((0x4000 : Word) - k.address (withX 8 0x3FF4)).toNat) :=
  ⟨by decide, exists_next (by decide), exists_next (by decide), by decide, by intro k hk _; obtain rfl := Option.some.inj hk; decide⟩
theorem test_hyps_XZeroIsHardWired :
    (1 : Reg) ≠ 0 ∧ (31 : Reg) ≠ 0 :=
  by decide
theorem test_hyps_MemReadIsLittleEndian :
    ((0xFFFFFFFC : Word).toNat % 4 = 0 ∧ Readable blank 0xFFFFFFFC 4) ∧
      ((0xFFFFFFF8 : Word).toNat % 8 = 0 ∧ Readable blank 0xFFFFFFF8 8) ∧
      ((0xFFFFFFFD : Word).toNat % 4 ≠ 0 ∧ (0xFFFFFFFC : Word).toNat % 8 ≠ 0) ∧
      (¬ Readable blank 0x4000 4 ∧ ¬ Readable blank 0x4000 8) :=
  ⟨by decide, by decide, by decide, by decide⟩
theorem test_hyps_MemWriteIsLittleEndian :
    ((0xFFFFFFFC : Word).toNat % 4 = 0 ∧ Writable blank 0xFFFFFFFC 4) ∧
      ((0xFFFFFFF8 : Word).toNat % 8 = 0 ∧ Writable blank 0xFFFFFFF8 8) ∧
      ((0xFFFFFFFD : Word).toNat % 4 ≠ 0 ∧ (0xFFFFFFFC : Word).toNat % 8 ≠ 0) ∧
      (¬ Writable blank 0x4000 4 ∧ ¬ Writable blank 0x4000 8) :=
  ⟨by decide, by decide, by decide, by decide⟩
theorem test_hyps_MixedWidthAccesses :
    (∃ t, memWrite8 0xFFFFFFF8 0x0102030405060708 blank = .ok t) ∧
      (∀ t, memWrite8 0xFFFFFFF8 0x0102030405060708 blank = .ok t → Readable t 0xFFFFFFF8 8) ∧
      (∃ t, memWrite4 0xFFFFFFFC 0x01020304 blank = .ok t) :=
  ⟨of_ok (by decide), by intro t h; obtain rfl := Except.ok.inj h; decide, of_ok (by decide)⟩
theorem test_hyps_LoadReadsTheLatestStore :
    (∃ t, exec (.cSw 1 0 8) (storing 0x3FF4) = .next t ∧ plus (t.readX (primed 0)) 8 = plus ((storing 0x3FF4).readX (primed 0)) 8 ∧
        Readable t (plus ((storing 0x3FF4).readX (primed 0)) 8) 4) :=
  ⟨_, rfl, by decide, by decide⟩
theorem test_hyps_CanonicalMemoryIsDetermined :
    Memory.wf [(0, 1), (0xFFFFFFFF, 5)] = true ∧
      (Memory.wf [(1, 0)] = false ∧ Memory.wf [(1, 2), (1, 3)] = false ∧ Memory.wf [(0x100000000, 3)] = false) :=
  ⟨by decide, by decide⟩
theorem test_hyps_NopAndHintsOnlyAdvance :
    ((63 : BitVec 6) ≠ 0 ∧ (31 : Reg) ≠ 0) ∧
      ((0x3F000 : BitVec 18).toNat % 2 ^ 12 = 0 ∧ (0x3F000 : BitVec 18) ≠ 0) :=
  ⟨by decide, by decide⟩
theorem test_hyps_CAddi4spnResult :
    ((4 : BitVec 10).toNat % 4 = 0 ∧ (4 : BitVec 10) ≠ 0) ∧
      ((1020 : BitVec 10).toNat % 4 = 0 ∧ (1020 : BitVec 10) ≠ 0) :=
  ⟨by decide, by decide⟩
theorem test_hyps_CAddiResult :
    ((1 : Reg) ≠ 0 ∧ (-32 : BitVec 6) ≠ 0) ∧
      ((31 : Reg) ≠ 0 ∧ (31 : BitVec 6) ≠ 0) :=
  ⟨by decide, by decide⟩
theorem test_hyps_CLiResult :
    (1 : Reg) ≠ 0 ∧ (31 : Reg) ≠ 0 :=
  by decide
theorem test_hyps_CAddi16spResult :
    ((-512 : BitVec 10).toNat % 16 = 0 ∧ (-512 : BitVec 10) ≠ 0) ∧
      ((496 : BitVec 10).toNat % 16 = 0 ∧ (496 : BitVec 10) ≠ 0) :=
  ⟨by decide, by decide⟩
theorem test_hyps_CLuiResult :
    ((1 : Reg) ≠ 0 ∧ (1 : Reg) ≠ 2 ∧ (0x1000 : BitVec 18).toNat % 2 ^ 12 = 0 ∧ (0x1000 : BitVec 18) ≠ 0) ∧
      ((31 : Reg) ≠ 2 ∧ (0x3F000 : BitVec 18).toNat % 2 ^ 12 = 0 ∧ (0x3F000 : BitVec 18) ≠ 0) :=
  ⟨by decide, by decide⟩
theorem test_hyps_CSlliResult :
    (1 : Reg) ≠ 0 ∧ (31 : Reg) ≠ 0 :=
  by decide
theorem test_hyps_CMvResult_CAddResult_RegisterJumpResults :
    (1 : Reg) ≠ 0 ∧ (31 : Reg) ≠ 0 :=
  by decide
theorem test_hyps_PcRelativeJumpResults :
    (2046 : BitVec 12).toNat % 2 = 0 ∧ (-2048 : BitVec 12).toNat % 2 = 0 :=
  by decide
theorem test_hyps_BranchResults :
    (254 : BitVec 9).toNat % 2 = 0 ∧ (-256 : BitVec 9).toNat % 2 = 0 :=
  by decide
theorem test_hyps_CLwResult :
    ((124 : BitVec 7).toNat % 4 = 0 ∧ (0 : BitVec 7).toNat % 4 = 0) ∧
      (plus ((withX 8 (0x4000 - 4 - 124)).readX (primed 0)) 124 = 0x4000 - 4 ∧ (0x4000 - 4 : Word).toNat % 4 = 0 ∧
        Readable (withX 8 (0x4000 - 4 - 124)) (0x4000 - 4) 4) ∧
      ((0x4000 - 4 + 1 : Word).toNat % 4 ≠ 0 ∧ (0x4000 : Word).toNat % 4 = 0 ∧ ¬ Readable (withX 8 (0x4000 - 124)) 0x4000 4) :=
  ⟨by decide, by decide, by decide⟩
theorem test_hyps_CLwspResult :
    ((252 : BitVec 8).toNat % 4 = 0 ∧ (0 : BitVec 8).toNat % 4 = 0) ∧
      (plus ((withX 2 (0x4000 - 4 - 252)).readX 2) 252 = 0x4000 - 4 ∧ (0x4000 - 4 : Word).toNat % 4 = 0 ∧
        Readable (withX 2 (0x4000 - 4 - 252)) (0x4000 - 4) 4) ∧
      ((0x4000 - 4 + 1 : Word).toNat % 4 ≠ 0 ∧ (0x4000 : Word).toNat % 4 = 0 ∧ ¬ Readable (withX 2 (0x4000 - 252)) 0x4000 4) :=
  ⟨by decide, by decide, by decide⟩
theorem test_hyps_CSwResult :
    ((124 : BitVec 7).toNat % 4 = 0 ∧ (0 : BitVec 7).toNat % 4 = 0) ∧
      (plus ((withX 8 (0x4000 - 4 - 124)).readX (primed 0)) 124 = 0x4000 - 4 ∧ (0x4000 - 4 : Word).toNat % 4 = 0 ∧
        Writable (withX 8 (0x4000 - 4 - 124)) (0x4000 - 4) 4) ∧
      ((0x4000 - 4 + 1 : Word).toNat % 4 ≠ 0 ∧ (0x4000 : Word).toNat % 4 = 0 ∧ ¬ Writable (withX 8 (0x4000 - 124)) 0x4000 4) :=
  ⟨by decide, by decide, by decide⟩
theorem test_hyps_CSwspResult :
    ((252 : BitVec 8).toNat % 4 = 0 ∧ (0 : BitVec 8).toNat % 4 = 0) ∧
      (plus ((withX 2 (0x4000 - 4 - 252)).readX 2) 252 = 0x4000 - 4 ∧ (0x4000 - 4 : Word).toNat % 4 = 0 ∧
        Writable (withX 2 (0x4000 - 4 - 252)) (0x4000 - 4) 4) ∧
      ((0x4000 - 4 + 1 : Word).toNat % 4 ≠ 0 ∧ (0x4000 : Word).toNat % 4 = 0 ∧ ¬ Writable (withX 2 (0x4000 - 252)) 0x4000 4) :=
  ⟨by decide, by decide, by decide⟩
theorem test_hyps_FloatDoubleLoadResults :
    ((248 : BitVec 8).toNat % 8 = 0 ∧ (0 : BitVec 8).toNat % 8 = 0) ∧
      (plus ((withX 8 (0x4000 - 8 - 248)).readX (primed 0)) 248 = 0x4000 - 8 ∧ (0x4000 - 8 : Word).toNat % 8 = 0 ∧
        Readable (withX 8 (0x4000 - 8 - 248)) (0x4000 - 8) 8) ∧
      ((0x4000 - 8 + 1 : Word).toNat % 8 ≠ 0 ∧ (0x4000 : Word).toNat % 8 = 0 ∧ ¬ Readable (withX 8 (0x4000 - 248)) 0x4000 8) :=
  ⟨by decide, by decide, by decide⟩
theorem test_hyps_FloatDoubleLoadResults_sp :
    ((504 : BitVec 9).toNat % 8 = 0 ∧ (0 : BitVec 9).toNat % 8 = 0) ∧
      (plus ((withX 2 (0x4000 - 8 - 504)).readX 2) 504 = 0x4000 - 8 ∧ (0x4000 - 8 : Word).toNat % 8 = 0 ∧
        Readable (withX 2 (0x4000 - 8 - 504)) (0x4000 - 8) 8) ∧
      ((0x4000 - 8 + 1 : Word).toNat % 8 ≠ 0 ∧ (0x4000 : Word).toNat % 8 = 0 ∧ ¬ Readable (withX 2 (0x4000 - 504)) 0x4000 8) :=
  ⟨by decide, by decide, by decide⟩
theorem test_hyps_FloatSingleLoadResults :
    ((124 : BitVec 7).toNat % 4 = 0 ∧ (0 : BitVec 7).toNat % 4 = 0) ∧
      (plus ((withX 8 (0x4000 - 4 - 124)).readX (primed 0)) 124 = 0x4000 - 4 ∧ (0x4000 - 4 : Word).toNat % 4 = 0 ∧
        Readable (withX 8 (0x4000 - 4 - 124)) (0x4000 - 4) 4) ∧
      ((0x4000 - 4 + 1 : Word).toNat % 4 ≠ 0 ∧ (0x4000 : Word).toNat % 4 = 0 ∧ ¬ Readable (withX 8 (0x4000 - 124)) 0x4000 4) :=
  ⟨by decide, by decide, by decide⟩
theorem test_hyps_FloatDoubleStoreResults :
    ((248 : BitVec 8).toNat % 8 = 0 ∧ (0 : BitVec 8).toNat % 8 = 0) ∧
      (plus ((withX 8 (0x4000 - 8 - 248)).readX (primed 0)) 248 = 0x4000 - 8 ∧ (0x4000 - 8 : Word).toNat % 8 = 0 ∧
        Writable (withX 8 (0x4000 - 8 - 248)) (0x4000 - 8) 8) ∧
      ((0x4000 - 8 + 1 : Word).toNat % 8 ≠ 0 ∧ (0x4000 : Word).toNat % 8 = 0 ∧ ¬ Writable (withX 8 (0x4000 - 248)) 0x4000 8) :=
  ⟨by decide, by decide, by decide⟩
theorem test_hyps_FloatDoubleStoreResults_sp :
    ((504 : BitVec 9).toNat % 8 = 0 ∧ (0 : BitVec 9).toNat % 8 = 0) ∧
      (plus ((withX 2 (0x4000 - 8 - 504)).readX 2) 504 = 0x4000 - 8 ∧ (0x4000 - 8 : Word).toNat % 8 = 0 ∧
        Writable (withX 2 (0x4000 - 8 - 504)) (0x4000 - 8) 8) ∧
      ((0x4000 - 8 + 1 : Word).toNat % 8 ≠ 0 ∧ (0x4000 : Word).toNat % 8 = 0 ∧ ¬ Writable (withX 2 (0x4000 - 504)) 0x4000 8) :=
  ⟨by decide, by decide, by decide⟩
theorem test_hyps_FloatSingleStoreResults :
    ((124 : BitVec 7).toNat % 4 = 0 ∧ (0 : BitVec 7).toNat % 4 = 0) ∧
      (plus ((withX 8 (0x4000 - 4 - 124)).readX (primed 0)) 124 = 0x4000 - 4 ∧ (0x4000 - 4 : Word).toNat % 4 = 0 ∧
        Writable (withX 8 (0x4000 - 4 - 124)) (0x4000 - 4) 4) ∧
      ((0x4000 - 4 + 1 : Word).toNat % 4 ≠ 0 ∧ (0x4000 : Word).toNat % 4 = 0 ∧ ¬ Writable (withX 8 (0x4000 - 124)) 0x4000 4) :=
  ⟨by decide, by decide, by decide⟩
theorem test_hyps_FloatEntriesWithoutRegisters :
    ((noF blank).hasF = false ∧ (noF blank).hasD = false ∧ (onlyF blank).hasD = false ∧ (onlyF blank).hasF = true ∧ blank.hasD = true) ∧
      ((0x7FFC#16 &&& 0xE003#16 = 0x6000#16) ∧ (0xFFFC#16 &&& 0xE003#16 = 0xE000#16) ∧ (0x7FFE#16 &&& 0xE003#16 = 0x6002#16) ∧ (0xFFFE#16 &&& 0xE003#16 = 0xE002#16)) ∧
      ((0x3FFC#16 &&& 0xE003#16 = 0x2000#16) ∧ (0xBFFC#16 &&& 0xE003#16 = 0xA000#16) ∧ (0x3FFE#16 &&& 0xE003#16 = 0x2002#16) ∧ (0xBFFE#16 &&& 0xE003#16 = 0xA002#16)) :=
  ⟨by decide, by decide, by decide⟩
theorem test_hyps_ReservedParcelsAreIllegal :
    (31 : Reg) ≠ 2 ∧ (252 : BitVec 8).toNat % 4 = 0 :=
  by decide
theorem test_hyps_QuadrantThreeIsRefused :
    (0xFFFE : Parcel).toNat % 4 ≠ 3 ∧ (0x0000 : Parcel).toNat % 4 ≠ 3 :=
  by decide
theorem test_hyps_RvSixtyFourEntriesMeanTheirBits :
    (blank.hasF = true ∧ (0x3FFC : Word).toNat % 4 = 0 ∧ Readable blank 0x3FFC 4 ∧ Writable blank 0x3FFC 4) ∧
      (∃ (uimm : BitVec 8) (off : BitVec 7), off = (uimm.extractLsb 6 6 ++ uimm.extractLsb 5 3 ++ uimm.extractLsb 7 7 ++ 0b00#2) ∧
        plus ((withX 8 (0x3FFC - 124)).readX (primed 0)) off.toNat = 0x3FFC) :=
  ⟨by decide, ⟨248, 124, by decide, by decide⟩⟩

end Sys2Proof.Tests
end

section
/-! SUPPORT. The decoder bit by bit: a parcel is the encoding of what it decodes to, and what it decodes to is
well-formed. -/

namespace Sys2Proof.Machine

/-! ## A parcel bit by bit -/

theorem eq_iff_bits {n : Nat} (v w : BitVec n) : v = w ↔ ∀ k : Fin n, v.getLsbD k = w.getLsbD k :=
  ⟨fun h _ => h ▸ rfl, fun h => BitVec.eq_of_getLsbD_eq fun k hk => h ⟨k, hk⟩⟩

/-- Two parcels are equal exactly when their sixteen bits are. -/
theorem parcel_eq_iff (v w : Parcel) : v = w ↔
    v.getLsbD 0 = w.getLsbD 0 ∧ v.getLsbD 1 = w.getLsbD 1 ∧ v.getLsbD 2 = w.getLsbD 2 ∧ v.getLsbD 3 = w.getLsbD 3 ∧
    v.getLsbD 4 = w.getLsbD 4 ∧ v.getLsbD 5 = w.getLsbD 5 ∧ v.getLsbD 6 = w.getLsbD 6 ∧ v.getLsbD 7 = w.getLsbD 7 ∧
    v.getLsbD 8 = w.getLsbD 8 ∧ v.getLsbD 9 = w.getLsbD 9 ∧ v.getLsbD 10 = w.getLsbD 10 ∧
    v.getLsbD 11 = w.getLsbD 11 ∧ v.getLsbD 12 = w.getLsbD 12 ∧ v.getLsbD 13 = w.getLsbD 13 ∧
    v.getLsbD 14 = w.getLsbD 14 ∧ v.getLsbD 15 = w.getLsbD 15 := by
  rw [eq_iff_bits]
  simp [Fin.forall_fin_succ]

/-- A field of a parcel has a given value exactly when each of its bits has. -/
theorem extractLsb_eq_iff (w : Parcel) {hi lo : Nat} (c : BitVec (hi - lo + 1)) :
    w.extractLsb hi lo = c ↔ ∀ k : Fin (hi - lo + 1), w.getLsbD (lo + k) = c.getLsbD k := by
  have bit (k : Fin (hi - lo + 1)) : (w.extractLsb hi lo).getLsbD k = w.getLsbD (lo + k) := by
    rw [BitVec.getLsbD_extractLsb, decide_eq_true k.isLt, Bool.true_and]
  rw [eq_iff_bits]
  simp only [bit]

theorem quadrant_iff (w : Parcel) (c : BitVec 2) : w.extractLsb 1 0 = c ↔
    w.getLsbD 0 = c.getLsbD 0 ∧ w.getLsbD 1 = c.getLsbD 1 := by
  rw [extractLsb_eq_iff]; simp [Fin.forall_fin_succ]

theorem funct3_iff (w : Parcel) (c : BitVec 3) : w.extractLsb 15 13 = c ↔
    w.getLsbD 13 = c.getLsbD 0 ∧ w.getLsbD 14 = c.getLsbD 1 ∧ w.getLsbD 15 = c.getLsbD 2 := by
  rw [extractLsb_eq_iff]; simp [Fin.forall_fin_succ]

theorem bit12_iff (w : Parcel) (c : BitVec 1) : w.extractLsb 12 12 = c ↔ w.getLsbD 12 = c.getLsbD 0 := by
  rw [extractLsb_eq_iff]; simp

theorem bits11_iff (w : Parcel) (c : BitVec 2) : w.extractLsb 11 10 = c ↔
    w.getLsbD 10 = c.getLsbD 0 ∧ w.getLsbD 11 = c.getLsbD 1 := by
  rw [extractLsb_eq_iff]; simp [Fin.forall_fin_succ]

theorem bits6_iff (w : Parcel) (c : BitVec 2) : w.extractLsb 6 5 = c ↔
    w.getLsbD 5 = c.getLsbD 0 ∧ w.getLsbD 6 = c.getLsbD 1 := by
  rw [extractLsb_eq_iff]; simp [Fin.forall_fin_succ]

theorem fieldRd_iff (w : Parcel) (c : Reg) : fieldRd w = c ↔
    w.getLsbD 7 = c.getLsbD 0 ∧ w.getLsbD 8 = c.getLsbD 1 ∧ w.getLsbD 9 = c.getLsbD 2 ∧
      w.getLsbD 10 = c.getLsbD 3 ∧ w.getLsbD 11 = c.getLsbD 4 := by
  unfold fieldRd
  rw [extractLsb_eq_iff]; simp [Fin.forall_fin_succ]

theorem fieldRs2_iff (w : Parcel) (c : Reg) : fieldRs2 w = c ↔
    w.getLsbD 2 = c.getLsbD 0 ∧ w.getLsbD 3 = c.getLsbD 1 ∧ w.getLsbD 4 = c.getLsbD 2 ∧
      w.getLsbD 5 = c.getLsbD 3 ∧ w.getLsbD 6 = c.getLsbD 4 := by
  unfold fieldRs2
  rw [extractLsb_eq_iff]; simp [Fin.forall_fin_succ]

/-- The immediate of R89 bit by bit. -/
theorem imm6_iff (w : Parcel) (c : BitVec 6) : imm6 w = c ↔
    w.getLsbD 2 = c.getLsbD 0 ∧ w.getLsbD 3 = c.getLsbD 1 ∧ w.getLsbD 4 = c.getLsbD 2 ∧
      w.getLsbD 5 = c.getLsbD 3 ∧ w.getLsbD 6 = c.getLsbD 4 ∧ w.getLsbD 12 = c.getLsbD 5 := by
  rw [eq_iff_bits]
  simp only [imm6, BitVec.getLsbD_append, BitVec.getLsbD_extractLsb]
  simp [Fin.forall_fin_succ]

theorem bits_of_nzuimmCIW_eq_zero {w : Parcel} (h : nzuimmCIW w = 0) :
    w.getLsbD 5 = false ∧ w.getLsbD 6 = false ∧ w.getLsbD 7 = false ∧ w.getLsbD 8 = false ∧ w.getLsbD 9 = false ∧
      w.getLsbD 10 = false ∧ w.getLsbD 11 = false ∧ w.getLsbD 12 = false := by
  have bit (k : Nat) : (nzuimmCIW w).getLsbD k = false := by rw [h]; exact BitVec.getLsbD_zero
  simp only [nzuimmCIW, BitVec.getLsbD_append, BitVec.getLsbD_extractLsb] at bit
  exact ⟨bit 3, bit 2, bit 6, bit 7, bit 8, bit 9, bit 4, bit 5⟩

theorem one_bit_cases (b : BitVec 1) : b = 0b0#1 ∨ b = 0b1#1 := by
  revert b; decide

theorem two_bits_cases (q : BitVec 2) : q = 0b00#2 ∨ q = 0b01#2 ∨ q = 0b10#2 ∨ q = 0b11#2 := by
  revert q; decide

theorem three_bits_cases (f : BitVec 3) : f = 0b000#3 ∨ f = 0b001#3 ∨ f = 0b010#3 ∨ f = 0b011#3 ∨ f = 0b100#3 ∨
    f = 0b101#3 ∨ f = 0b110#3 ∨ f = 0b111#3 := by
  revert f; decide

/-! ## Encoding what was decoded -/

/-- The jump offset is the field it is assembled from, put in another order (R91). -/
theorem encodeCJ_offsetCJ (w : Parcel) : encodeCJ (offsetCJ w) = w.extractLsb 12 2 := by
  refine BitVec.eq_of_getLsbD_eq fun k hk => ?_
  simp only [encodeCJ, offsetCJ, BitVec.getLsbD_append, BitVec.getLsbD_extractLsb]
  match k, hk with
  | 0, _ | 1, _ | 2, _ | 3, _ | 4, _ | 5, _ | 6, _ | 7, _ | 8, _ | 9, _ | 10, _ => rfl

/-! Each proof below splits along the decoder's own conditions. In every leaf the sixteen bits of the encoding are bits of
`w`, put back in their places, or fixed bits that the conditions say `w` has. -/

theorem encode_decodeQuadrant0 (w : Parcel) (hq : w.extractLsb 1 0 = 0b00#2) : encode (decodeQuadrant0 w) = w := by
  have hb := (quadrant_iff w _).1 hq
  unfold decodeQuadrant0
  obtain h | h | h | h | h | h | h | h := three_bits_cases (w.extractLsb 15 13) <;>
    have hf := (funct3_iff w _).1 h <;>
    simp only [h, BitVec.reduceEq, if_false, if_true]
  case inl => -- funct3 is 000
    split
    · next hz =>
      have hi := bits_of_nzuimmCIW_eq_zero hz
      rw [parcel_eq_iff]
      simp only [encode, BitVec.getLsbD_append, BitVec.getLsbD_extractLsb, fieldP42, hb, hf, hi]
      and_intros <;> rfl
    · rw [parcel_eq_iff]
      simp only [encode, BitVec.getLsbD_append, BitVec.getLsbD_extractLsb, fieldP42, nzuimmCIW, hb, hf]
      and_intros <;> rfl
  all_goals
    rw [parcel_eq_iff]
    simp only [encode, BitVec.getLsbD_append, BitVec.getLsbD_extractLsb, fieldP42, fieldP97, uimmCL4, uimmCL8, hb, hf]
    and_intros <;> rfl

theorem encode_decodeQuadrant1Arith (w : Parcel) (hq : w.extractLsb 1 0 = 0b01#2) (hf : w.extractLsb 15 13 = 0b100#3) :
    encode (decodeQuadrant1Arith w) = w := by
  rw [quadrant_iff] at hq
  rw [funct3_iff] at hf
  unfold decodeQuadrant1Arith
  obtain h11 | h11 | h11 | h11 := two_bits_cases (w.extractLsb 11 10) <;>
    obtain h12 | h12 := one_bit_cases (w.extractLsb 12 12) <;>
    simp only [h11, h12, BitVec.reduceEq, if_false, if_true] <;> rw [bits11_iff] at h11 <;> rw [bit12_iff] at h12
  case inr.inr.inr.inl | inr.inr.inr.inr => -- `inst[11:10]` is 11: `inst[6:5]` selects the row
    obtain h6 | h6 | h6 | h6 := two_bits_cases (w.extractLsb 6 5) <;>
      simp only [h6, BitVec.reduceEq, if_false, if_true] <;> rw [bits6_iff] at h6
    all_goals
      rw [parcel_eq_iff]
      simp only [encode, BitVec.getLsbD_append, BitVec.getLsbD_extractLsb, fieldP42, fieldP97, hq, hf, h11, h12, h6]
      and_intros <;> rfl
  all_goals
    rw [parcel_eq_iff]
    simp only [encode, BitVec.getLsbD_append, BitVec.getLsbD_extractLsb, fieldP97, imm6, hq, hf, h11, h12]
    and_intros <;> rfl

theorem encode_decodeQuadrant1 (w : Parcel) (hq : w.extractLsb 1 0 = 0b01#2) : encode (decodeQuadrant1 w) = w := by
  have hb := (quadrant_iff w _).1 hq
  unfold decodeQuadrant1
  obtain h | h | h | h | h | h | h | h := three_bits_cases (w.extractLsb 15 13) <;>
    have hf := (funct3_iff w _).1 h <;>
    simp only [h, BitVec.reduceEq, if_false, if_true, fieldRd_iff, imm6_iff]
  case inr.inr.inr.inr.inl => -- funct3 is 100
    exact encode_decodeQuadrant1Arith w hq h
  all_goals
    repeat' split
    all_goals
      rw [parcel_eq_iff]
      simp only [encode, encodeCJ_offsetCJ, BitVec.getLsbD_append, BitVec.getLsbD_extractLsb, fieldRd, fieldP97, imm6,
        immLui, immAddi16sp, offsetCB, *]
      and_intros <;> rfl

theorem encode_decodeQuadrant2Jump (w : Parcel) (hq : w.extractLsb 1 0 = 0b10#2) (hf : w.extractLsb 15 13 = 0b100#3) :
    encode (decodeQuadrant2Jump w) = w := by
  rw [quadrant_iff] at hq
  rw [funct3_iff] at hf
  unfold decodeQuadrant2Jump
  obtain h12 | h12 := one_bit_cases (w.extractLsb 12 12) <;>
    simp only [h12, BitVec.reduceEq, if_false, if_true, fieldRs2_iff, fieldRd_iff] <;> rw [bit12_iff] at h12
  all_goals
    repeat' split
    all_goals
      rw [parcel_eq_iff]
      simp only [encode, BitVec.getLsbD_append, BitVec.getLsbD_extractLsb, fieldRs2, fieldRd, *]
      and_intros <;> rfl

theorem encode_decodeQuadrant2 (w : Parcel) (hq : w.extractLsb 1 0 = 0b10#2) : encode (decodeQuadrant2 w) = w := by
  have hb := (quadrant_iff w _).1 hq
  unfold decodeQuadrant2
  obtain h | h | h | h | h | h | h | h := three_bits_cases (w.extractLsb 15 13) <;>
    have hf := (funct3_iff w _).1 h <;>
    simp only [h, BitVec.reduceEq, if_false, if_true, fieldRd_iff]
  case inr.inr.inr.inr.inl => -- funct3 is 100
    exact encode_decodeQuadrant2Jump w hq h
  case inl => -- funct3 is 000
    obtain h12 | h12 := one_bit_cases (w.extractLsb 12 12) <;>
      simp only [h12, BitVec.reduceEq, if_false, if_true] <;> rw [bit12_iff] at h12
    all_goals
      repeat' split
      all_goals
        rw [parcel_eq_iff]
        simp only [encode, BitVec.getLsbD_append, BitVec.getLsbD_extractLsb, fieldRd, *]
        and_intros <;> rfl
  all_goals
    repeat' split
    all_goals
      rw [parcel_eq_iff]
      simp only [encode, BitVec.getLsbD_append, BitVec.getLsbD_extractLsb, fieldRd, fieldRs2, uimmCI4, uimmCI8,
        uimmCSS4, uimmCSS8, *]
      and_intros <;> rfl

/-- Every parcel is the encoding of what it decodes to (R82, R85). -/
theorem encode_decodeParcel (w : Parcel) : encode (decodeParcel w) = w := by
  unfold decodeParcel
  obtain h | h | h | h := two_bits_cases (w.extractLsb 1 0)
  · rw [if_pos h, encode_decodeQuadrant0 w h]
  · rw [h, if_neg (by decide), if_pos rfl, encode_decodeQuadrant1 w h]
  · rw [h, if_neg (by decide), if_neg (by decide), if_pos rfl, encode_decodeQuadrant2 w h]
  · rw [h, if_neg (by decide), if_neg (by decide), if_neg (by decide), parcel_eq_iff]
    rw [quadrant_iff] at h
    simp only [encode, BitVec.getLsbD_append, BitVec.getLsbD_extractLsb, h]
    and_intros <;> rfl

/-! ## What the decoder answers is well-formed -/

/-- The low `k` bits of an immediate that ends in `k` zeros are 0. -/
theorem scaledBy_append_zero {n k : Nat} (v : BitVec n) : scaledBy k (v ++ 0#k) = true := by
  simp [scaledBy, BitVec.toNat_append, Nat.shiftLeft_eq]

@[simp] theorem scaledBy_nzuimmCIW (w : Parcel) : scaledBy 2 (nzuimmCIW w) = true := scaledBy_append_zero _
@[simp] theorem scaledBy_uimmCL4 (w : Parcel) : scaledBy 2 (uimmCL4 w) = true := scaledBy_append_zero _
@[simp] theorem scaledBy_uimmCL8 (w : Parcel) : scaledBy 3 (uimmCL8 w) = true := scaledBy_append_zero _
@[simp] theorem scaledBy_immLui (w : Parcel) : scaledBy 12 (immLui w) = true := scaledBy_append_zero _
@[simp] theorem scaledBy_immAddi16sp (w : Parcel) : scaledBy 4 (immAddi16sp w) = true := scaledBy_append_zero _
@[simp] theorem scaledBy_offsetCJ (w : Parcel) : scaledBy 1 (offsetCJ w) = true := scaledBy_append_zero _
@[simp] theorem scaledBy_offsetCB (w : Parcel) : scaledBy 1 (offsetCB w) = true := scaledBy_append_zero _
@[simp] theorem scaledBy_uimmCI4 (w : Parcel) : scaledBy 2 (uimmCI4 w) = true := scaledBy_append_zero _
@[simp] theorem scaledBy_uimmCI8 (w : Parcel) : scaledBy 3 (uimmCI8 w) = true := scaledBy_append_zero _
@[simp] theorem scaledBy_uimmCSS4 (w : Parcel) : scaledBy 2 (uimmCSS4 w) = true := scaledBy_append_zero _
@[simp] theorem scaledBy_uimmCSS8 (w : Parcel) : scaledBy 3 (uimmCSS8 w) = true := scaledBy_append_zero _

theorem immLui_eq_zero {w : Parcel} (h : immLui w = 0) : imm6 w = 0 := by
  refine BitVec.eq_of_getLsbD_eq fun k _ => ?_
  have bit : (immLui w).getLsbD (k + 12) = false := by rw [h]; exact BitVec.getLsbD_zero
  rw [immLui, BitVec.getLsbD_append] at bit
  simpa using bit

theorem immAddi16sp_eq_zero {w : Parcel} (h : immAddi16sp w = 0) : imm6 w = 0 := by
  have bit (k : Nat) : (immAddi16sp w).getLsbD k = false := by rw [h]; exact BitVec.getLsbD_zero
  simp only [immAddi16sp, BitVec.getLsbD_append, BitVec.getLsbD_extractLsb] at bit
  exact (imm6_iff w 0).2 ⟨bit 5, bit 7, bit 8, bit 6, bit 4, bit 9⟩

theorem wellFormed_decodeQuadrant0 (w : Parcel) : wellFormed (decodeQuadrant0 w) = true := by
  unfold decodeQuadrant0
  repeat' split
  all_goals simp_all [wellFormed]

theorem wellFormed_decodeQuadrant1Arith (w : Parcel) : wellFormed (decodeQuadrant1Arith w) = true := by
  unfold decodeQuadrant1Arith
  repeat' split
  all_goals rfl

theorem wellFormed_decodeQuadrant1 (w : Parcel) : wellFormed (decodeQuadrant1 w) = true := by
  have hl := mt (immLui_eq_zero (w := w))
  have ha := mt (immAddi16sp_eq_zero (w := w))
  unfold decodeQuadrant1
  obtain h | h | h | h | h | h | h | h := three_bits_cases (w.extractLsb 15 13) <;>
    simp only [h, BitVec.reduceEq, if_false, if_true]
  case inr.inr.inr.inr.inl => -- funct3 is 100
    exact wellFormed_decodeQuadrant1Arith w
  all_goals
    repeat' split
    all_goals simp_all [wellFormed]

theorem wellFormed_decodeQuadrant2Jump (w : Parcel) : wellFormed (decodeQuadrant2Jump w) = true := by
  unfold decodeQuadrant2Jump
  repeat' split
  all_goals simp_all [wellFormed]

theorem wellFormed_decodeQuadrant2 (w : Parcel) : wellFormed (decodeQuadrant2 w) = true := by
  unfold decodeQuadrant2
  obtain h | h | h | h | h | h | h | h := three_bits_cases (w.extractLsb 15 13) <;>
    simp only [h, BitVec.reduceEq, if_false, if_true]
  case inr.inr.inr.inr.inl => -- funct3 is 100
    exact wellFormed_decodeQuadrant2Jump w
  all_goals
    repeat' split
    all_goals simp_all [wellFormed]

/-- Every parcel decodes to a well-formed instruction (R85). -/
theorem wellFormed_decodeParcel (w : Parcel) : WellFormed (decodeParcel w) := by
  unfold decodeParcel
  split
  · exact wellFormed_decodeQuadrant0 w
  · split
    · exact wellFormed_decodeQuadrant1 w
    · split
      · exact wellFormed_decodeQuadrant2 w
      · rfl

end Sys2Proof.Machine
end

section
/-! SUPPORT. What depends on the `f` registers alone, and memories in canonical form. -/

namespace Sys2Proof.Machine

/-! ## The `f` registers under the other updates -/

section
variable {s t : State}

theorem State.readF32_congr (h : t.f = s.f) (r : Reg) : t.readF32 r = s.readF32 r := by simp [State.readF32, h]

theorem State.readF64_congr (h : t.f = s.f) (r : Reg) : t.readF64 r = s.readF64 r := by simp [State.readF64, h]

theorem State.hasF_congr (h : t.f = s.f) : t.hasF = s.hasF := by simp [State.hasF, h]

theorem State.hasD_congr (h : t.f = s.f) : t.hasD = s.hasD := by simp [State.hasD, h]

end

@[simp] theorem State.writeX_readF32 (s : State) (i : Reg) (v : Word) (r : Reg) :
    (s.writeX i v).readF32 r = s.readF32 r := State.readF32_congr (by simp) r
@[simp] theorem State.writeX_readF64 (s : State) (i : Reg) (v : Word) (r : Reg) :
    (s.writeX i v).readF64 r = s.readF64 r := State.readF64_congr (by simp) r
@[simp] theorem State.writeX_hasF (s : State) (i : Reg) (v : Word) : (s.writeX i v).hasF = s.hasF :=
  State.hasF_congr (by simp)
@[simp] theorem State.writeX_hasD (s : State) (i : Reg) (v : Word) : (s.writeX i v).hasD = s.hasD :=
  State.hasD_congr (by simp)
@[simp] theorem State.storeBytes_readF32 (s : State) (a : Word) (l : List Byte) (r : Reg) :
    (s.storeBytes a l).readF32 r = s.readF32 r := rfl
@[simp] theorem State.storeBytes_readF64 (s : State) (a : Word) (l : List Byte) (r : Reg) :
    (s.storeBytes a l).readF64 r = s.readF64 r := rfl
@[simp] theorem State.storeBytes_hasF (s : State) (a : Word) (l : List Byte) : (s.storeBytes a l).hasF = s.hasF := rfl
@[simp] theorem State.storeBytes_hasD (s : State) (a : Word) (l : List Byte) : (s.storeBytes a l).hasD = s.hasD := rfl

/-! ## Canonical memory -/

/-- A canonical memory lists nothing below its bound. -/
theorem Memory.read_of_lt {m : Memory} {lo a : Nat} (hm : Memory.wfFrom lo m = true) (ha : a < lo) :
    Memory.read m a = Config.unlistedByte := by
  induction m generalizing lo with
  | nil => rfl
  | cons e m ih =>
    obtain ⟨k, c⟩ := e
    obtain ⟨hk, -, -, htail⟩ := Memory.wfFrom_cons.1 hm
    rw [Memory.read_cons, if_neg (by omega), ih htail (by omega)]

/-- A canonical memory with an entry does not read at its address as one that has nothing up to there. -/
theorem Memory.read_ne_of_lt {m n : Memory} {lo k : Nat} {c : Byte} (hm : Memory.wfFrom lo ((k, c) :: m) = true)
    (hn : Memory.wfFrom (k + 1) n = true) : Memory.read ((k, c) :: m) k ≠ Memory.read n k := by
  obtain ⟨-, -, hc, -⟩ := Memory.wfFrom_cons.1 hm
  rw [Memory.read_cons, if_pos rfl, Memory.read_of_lt hn (Nat.lt_succ_self k)]
  exact hc

/-- Canonical memories that read alike are equal. -/
theorem Memory.eq_of_read_eq {m n : Memory} {lo : Nat} (hm : Memory.wfFrom lo m = true)
    (hn : Memory.wfFrom lo n = true) (h : ∀ a < 2 ^ 32, Memory.read m a = Memory.read n a) : m = n := by
  induction m generalizing n lo with
  | nil =>
    cases n with
    | nil => rfl
    | cons e n =>
      obtain ⟨k, c⟩ := e
      obtain ⟨-, hk, -, -⟩ := Memory.wfFrom_cons.1 hn
      exact absurd (h k hk).symm (Memory.read_ne_of_lt hn rfl)
  | cons e m ih =>
    obtain ⟨k, c⟩ := e
    obtain ⟨hlo, hk, -, hmt⟩ := Memory.wfFrom_cons.1 hm
    cases n with
    | nil => exact absurd (h k hk) (Memory.read_ne_of_lt hm rfl)
    | cons e' n =>
      obtain ⟨k', c'⟩ := e'
      obtain ⟨hlo', hk', hc', hnt⟩ := Memory.wfFrom_cons.1 hn
      obtain hlt | rfl | hgt := Nat.lt_trichotomy k k'
      · exact absurd (h k hk) (Memory.read_ne_of_lt hm (Memory.wfFrom_cons.2 ⟨hlt, hk', hc', hnt⟩))
      · have hcc : c = c' := by simpa [Memory.read_cons] using h k hk
        have htail : ∀ a < 2 ^ 32, Memory.read m a = Memory.read n a := by
          intro a ha
          by_cases hka : k = a
          · rw [Memory.read_of_lt hmt (by omega), Memory.read_of_lt hnt (by omega)]
          · simpa [Memory.read_cons, hka] using h a ha
        rw [hcc, ih hmt hnt htail]
      · obtain ⟨-, -, hc, -⟩ := Memory.wfFrom_cons.1 hm
        exact absurd (h k' hk').symm (Memory.read_ne_of_lt hn (Memory.wfFrom_cons.2 ⟨hgt, hk, hc, hmt⟩))

end Sys2Proof.Machine
end

section
/-! SUPPORT. What a step does, what each effect of an instruction changes, and that `pc` stays even. -/

namespace Sys2Proof.Laws

open Sys2Proof.Machine

/-! ## The fetch and the step -/

/-- From an odd pc nothing is fetched (log 9). -/
theorem step_of_odd {s : State} (h : s.pc.toNat % 2 = 1) : step s = .refused (.oddPc s.pc) := by
  have hp : aligned 2 s.pc = false := by simp [aligned, h]
  simp [step, memFetch_eq, hp]

/-- A fetch that fails raises Instruction access fault (R63). -/
theorem step_of_not_fetchable {s : State} (he : s.pc.toNat % 2 = 0) (hf : ¬ Fetchable s) :
    step s = raise .instructionAccessFault s.pc s := by
  have hp := (aligned_iff 2 s.pc).2 he
  rw [fetchable_iff, Bool.not_eq_true] at hf
  simp [step, memFetch_eq, hp, hf]

/-- A fetch that succeeds runs what the parcel at pc decodes to (R28, R63). -/
theorem step_of_fetchable {s : State} (he : s.pc.toNat % 2 = 0) (hf : Fetchable s) :
    step s = exec (decodeParcel (s.parcelAt s.pc)) s := by
  have hp := (aligned_iff 2 s.pc).2 he
  rw [fetchable_iff] at hf
  simp [step, memFetch_eq, hp, hf]

/-- A step that answers a next state had an even pc, and an instruction that it ran. -/
theorem step_next {s t : State} (h : step s = .next t) :
    s.pc.toNat % 2 = 0 ∧ exec (decodeParcel (s.parcelAt s.pc)) s = .next t := by
  obtain he | ho := Nat.mod_two_eq_zero_or_one s.pc.toNat
  · by_cases hf : Fetchable s
    · exact ⟨he, step_of_fetchable he hf ▸ h⟩
    · rw [step_of_not_fetchable he hf] at h
      exact absurd h (raise_ne_next _ _ _ _)
  · rw [step_of_odd ho] at h
    cases h

/-- A step that answers a next state had the effect of the instruction at pc. -/
theorem step_effect {s t : State} (h : step s = .next t) : Effect (decodeParcel (s.parcelAt s.pc)) s t :=
  exec_next (wellFormed_decodeParcel _) (step_next h).2

/-- A step that traps handed out the state as it was, for a failed fetch or for a stop of the instruction at pc. -/
theorem step_fault {s t : State} {r : Trap} (h : step s = .fault (.trap r t)) : t = s ∧
    (¬ Fetchable s ∧ r = ⟨.instructionAccessFault, s.pc, s.pc⟩ ∨ Stop (decodeParcel (s.parcelAt s.pc)) s r) := by
  obtain he | ho := Nat.mod_two_eq_zero_or_one s.pc.toNat
  · by_cases hf : Fetchable s
    · rw [step_of_fetchable he hf] at h
      obtain ⟨ht, hr⟩ := exec_fault (wellFormed_decodeParcel _) h
      exact ⟨ht, .inr hr⟩
    · rw [step_of_not_fetchable he hf] at h
      obtain ⟨hr, ht⟩ := raise_fault h
      exact ⟨ht, .inl ⟨hf, hr⟩⟩
  · rw [step_of_odd ho] at h
    cases h

/-! ## What each effect changes -/

namespace Effect

variable {i : Instr} {s t : State}

theorem pc_eq (h : Effect i s t) : t.pc = (profile i).next.target s := by
  cases h <;> rfl

theorem map_eq (h : Effect i s t) : t.map = s.map := by
  cases h <;> simp

theorem x_zero (h : Effect i s t) : t.x[0] = s.x[0] := by
  cases h <;> simp

theorem wf_mem (h : Effect i s t) (hm : Memory.wf s.mem = true) : Memory.wf t.mem = true := by
  cases h with
  | store k l => exact Memory.wf_writeBytes _ l hm
  | _ => simpa using hm

theorem readX_eq (h : Effect i s t) {r : Reg} (hr : (profile i).destX ≠ some r) : t.readX r = s.readX r := by
  cases h with
  | x rd v hd =>
    have hne : r ≠ rd := fun e => hr (e ▸ hd)
    simp [State.readX_writeX_ne s v hne]
  | _ => simp

theorem readF_eq (h : Effect i s t) {r : Reg} (hr : (profile i).destF ≠ some r) :
    t.readF32 r = s.readF32 r ∧ t.readF64 r = s.readF64 r := by
  have hne {rd : Reg} (hd : (profile i).destF = some rd) : r ≠ rd := fun e => hr (e ▸ hd)
  cases h with
  | f32 rd v hd => simpa using State.writeF32_other s v (hne hd)
  | f64 rd v hd => simpa using State.writeF64_other s v (hne hd)
  | _ => simp

theorem hasF_eq (h : Effect i s t) : t.hasF = s.hasF := by
  cases h <;> simp

theorem hasD_eq (h : Effect i s t) : t.hasD = s.hasD := by
  cases h <;> simp

theorem byteAt_eq (h : Effect i s t) {b : Word}
    (hb : ∀ k : Access, (profile i).access = some k → k.store = true → k.size ≤ (b - k.address s).toNat) :
    t.byteAt b = s.byteAt b := by
  cases h with
  | store k l hk hs hl h8 =>
    have hout := hb k hk hs
    rw [State.setPc_byteAt, State.byteAt_storeBytes _ _ _ _ (by omega), if_neg (by omega)]
  | _ => simp

end Effect

/-! ## pc stays even -/

theorem plus_even {a : Word} {n : Nat} (ha : a.toNat % 2 = 0) (hn : n % 2 = 0) : (plus a n).toNat % 2 = 0 := by
  simp only [plus, BitVec.toNat_ofNat]; omega

theorem pcPlus_even {s : State} {n : Int} (hs : s.pc.toNat % 2 = 0) (hn : n % 2 = 0) : (pcPlus s n).toNat % 2 = 0 := by
  simp only [pcPlus, BitVec.toNat_ofInt]; omega

theorem clearBit0_even (v : Word) : (clearBit0 v).toNat % 2 = 0 := by
  simp only [clearBit0, BitVec.toNat_ofNat]; omega

/-- A scaled offset is even as a signed number too (R91, R92). -/
theorem toInt_even {n : Nat} {b : BitVec (n + 1)} (h : scaledBy 1 b = true) : b.toInt % 2 = 0 := by
  have hb : b.toNat % 2 = 0 := by simpa [scaledBy] using h
  rw [BitVec.toInt_eq_toNat_cond, Nat.pow_succ]
  split <;> omega

/-- Where the table of R26 goes from an even pc is even (R27). -/
theorem target_even {i : Instr} {s : State} (hw : WellFormed i) (hs : s.pc.toNat % 2 = 0) :
    ((profile i).next.target s).toNat % 2 = 0 := by
  have hseq : (plus s.pc 2).toNat % 2 = 0 := plus_even hs rfl
  cases i with
  | cJal offset => exact pcPlus_even hs (toInt_even hw)
  | cJ offset => exact pcPlus_even hs (toInt_even hw)
  | cBeqz rs1 offset =>
    simp only [profile, NextPc.target]
    split
    · exact pcPlus_even hs (toInt_even hw)
    · exact hseq
  | cBnez rs1 offset =>
    simp only [profile, NextPc.target]
    split
    · exact hseq
    · exact pcPlus_even hs (toInt_even hw)
  | cJr rs1 => exact clearBit0_even _
  | cJalr rs1 => exact clearBit0_even _
  | _ => exact hseq

theorem launch_pc_even {args : LaunchArgs} {t : State} (h : launch args = .ok t) : t.pc.toNat % 2 = 0 := by
  unfold launch at h
  split at h
  · cases h
  · next ha =>
    split at h
    · cases h
    · cases h
      simpa [aligned_iff] using ha

/-- No instruction stops with Instruction address misaligned (R27). -/
theorem Stop.cause_ne_misaligned {i : Instr} {s : State} {r : Trap} (h : Stop i s r) :
    r.cause ≠ .instructionAddressMisaligned := by
  cases h with
  | illegal => simp
  | breakpoint => simp
  | load k c _ _ hc =>
    rintro rfl
    simp [loadCheck_eq_some] at hc
  | store k c _ _ hc =>
    rintro rfl
    simp [storeCheck_eq_some] at hc

/-! ## Loading a parcel -/

/-- The two bytes of a table word are the parcel of its low 16 bits, low byte first (R51, R63). -/
theorem parcel_of_tableBytes (w : Nat) :
    BitVec.ofNat 8 (w % 2 ^ 16 / 2 ^ 8) ++ BitVec.ofNat 8 (w % 2 ^ 16) = BitVec.ofNat 16 w := by
  apply BitVec.eq_of_toNat_eq
  rw [BitVec.toNat_append, Nat.shiftLeft_eq, Nat.mul_comm,
    ← Nat.two_pow_add_eq_or_of_lt (BitVec.isLt _)]
  simp only [BitVec.toNat_ofNat]
  omega

theorem decodeTableWord_eq (w : Nat) : decodeTableWord 16 w = some (decodeParcel (BitVec.ofNat 16 w)) := by
  rw [← parcel_of_tableBytes]; rfl

section
variable (s : State) (w : Nat)

/-- Loading a word changes the two bytes at pc (log 6). -/
theorem byteAt_withFetchWord (a : Word) : (s.withFetchWord 16 w).byteAt a =
    if (a - s.pc).toNat < 2 then (tableBytes 16 w).getD (a - s.pc).toNat 0 else s.byteAt a :=
  Memory.read_writeBytes s.mem s.pc a (tableBytes 16 w) (by simp [tableBytes])

theorem parcelAt_withFetchWord : (s.withFetchWord 16 w).parcelAt s.pc = BitVec.ofNat 16 w := by
  have h1 : s.pc + 1 - s.pc = 1 := by rw [BitVec.add_comm, BitVec.add_sub_cancel]
  rw [State.parcelAt, byteAt_withFetchWord, byteAt_withFetchWord, h1, BitVec.sub_self, ← parcel_of_tableBytes]
  rfl

/-- The word placed can be fetched: both its bytes are text (R68). -/
theorem fetchable_withFetchWord : Fetchable (s.withFetchWord 16 w) := by
  refine ⟨?_, ?_⟩ <;> rw [State.withFetchWord, State.loadText_map, State.loadText_pc] <;>
    simp only [MemMap.executable_makeText, decide_true, Bool.true_or, Bool.or_true]

end

end Sys2Proof.Laws
end

section
/-! SUPPORT. What an instruction does depends on no integer register but those it reads (R23). -/

namespace Sys2Proof.Laws

open Sys2Proof.Machine

/-! ## States that differ in one integer register -/

/-- `u` is `s` but for what register `r` holds. -/
structure SameBut (r : Reg) (s u : State) : Prop where
  pc : u.pc = s.pc
  f : u.f = s.f
  mem : u.mem = s.mem
  map : u.map = s.map
  readX : ∀ q : Reg, q ≠ r → u.readX q = s.readX q

namespace SameBut

variable {r : Reg} {s u : State}

theorem of_writeX (r : Reg) (v : Word) (s : State) : SameBut r s (s.writeX r v) where
  pc := by simp
  f := by simp
  mem := by simp
  map := by simp
  readX _ hq := State.readX_writeX_ne s v hq

theorem setPc (h : SameBut r s u) (a : Word) : SameBut r (s.setPc a) (u.setPc a) where
  pc := rfl
  f := h.f
  mem := h.mem
  map := h.map
  readX := h.readX

theorem advance (h : SameBut r s u) : SameBut r s.advance u.advance where
  pc := by simp [h.pc]
  f := h.f
  mem := h.mem
  map := h.map
  readX := h.readX

theorem writeX (h : SameBut r s u) (rd : Reg) (v : Word) : SameBut r (s.writeX rd v) (u.writeX rd v) where
  pc := by simp [h.pc]
  f := by simp [h.f]
  mem := by simp [h.mem]
  map := by simp [h.map]
  readX q hq := by simp [State.readX_writeX, h.readX q hq]

theorem writeF32 (h : SameBut r s u) (rd : Reg) (v : Word) : SameBut r (s.writeF32 rd v) (u.writeF32 rd v) where
  pc := by simp [h.pc]
  f := by unfold State.writeF32; rw [h.f]; split <;> simp [*, h.f]
  mem := by simp [h.mem]
  map := by simp [h.map]
  readX q hq := by simp [h.readX q hq]

theorem writeF64 (h : SameBut r s u) (rd : Reg) (v : DWord) : SameBut r (s.writeF64 rd v) (u.writeF64 rd v) where
  pc := by simp [h.pc]
  f := by unfold State.writeF64; rw [h.f]; split <;> simp [*, h.f]
  mem := by simp [h.mem]
  map := by simp [h.map]
  readX q hq := by simp [h.readX q hq]

theorem storeBytes (h : SameBut r s u) (a : Word) (l : List Byte) : SameBut r (s.storeBytes a l) (u.storeBytes a l) where
  pc := h.pc
  f := h.f
  mem := by simp [h.mem]
  map := h.map
  readX := h.readX

theorem loadCheck_eq (h : SameBut r s u) (n : Nat) (a : Word) : loadCheck n a u = loadCheck n a s := by
  simp [loadCheck, h.map]

theorem storeCheck_eq (h : SameBut r s u) (n : Nat) (a : Word) : storeCheck n a u = storeCheck n a s := by
  simp [storeCheck, h.map]

theorem wordAt_eq (h : SameBut r s u) (a : Word) : u.wordAt a = s.wordAt a := by
  simp [State.wordAt, State.byteAt, h.mem]

theorem dwordAt_eq (h : SameBut r s u) (a : Word) : u.dwordAt a = s.dwordAt a := by
  simp [State.dwordAt, h.wordAt_eq]

/-- A register that is listed is not the one that differs. -/
theorem readX_of_mem (h : SameBut r s u) {l : List Reg} (hr : r ∉ l) {q : Reg} (hq : q ∈ l) : u.readX q = s.readX q :=
  h.readX q fun e => hr (e ▸ hq)

end SameBut

/-! ## Outcomes from such states -/

/-- When `o` completes, so does `o'`, and they differ at most in register `r`, not even there when it is the destination
`d`. -/
def Follows (r : Reg) (d : Option Reg) (o o' : Result) : Prop :=
  ∀ t, o = .next t → ∃ u, o' = .next u ∧ SameBut r t u ∧ (d = some r → u.readX r = t.readX r)

namespace Follows

variable {r : Reg} {d : Option Reg} {s u : State}

theorem of_next (h : SameBut r s u) : Follows r none (.next s) (.next u) := by
  intro t ht
  obtain rfl := Host.Outcome.next.inj ht
  exact ⟨u, rfl, h, by simp⟩

theorem of_raise (c : Cause) (a : Word) (o' : Result) : Follows r d (raise c a s) o' :=
  fun _ ht => absurd ht (raise_ne_next _ _ _ _)

/-- Both states have the same value written to the destination, whatever follows. -/
theorem of_writeX {rd : Reg} {v a : Word} (hd : d = some rd) (h : SameBut r s u) :
    Follows r d (.next ((s.writeX rd v).setPc a)) (.next ((u.writeX rd v).setPc a)) := by
  intro t ht
  obtain rfl := Host.Outcome.next.inj ht
  refine ⟨_, rfl, (h.writeX rd v).setPc a, fun hr => ?_⟩
  obtain rfl : rd = r := Option.some.inj (hd.symm.trans hr)
  simp [State.readX_writeX_same]

theorem finishX {rd : Reg} {v v' : Word} (hd : d = some rd) (h : SameBut r s u) (hv : v' = v) :
    Follows r d (finishX rd v s) (finishX rd v' u) := by
  subst hv
  have hn : s.nextPc = u.nextPc := by simp [State.nextPc, h.pc]
  simpa [finishX_eq, State.advance, hn] using of_writeX (v := v') (a := u.nextPc) hd h

theorem jumpAndLink {a a' : Word} (h : SameBut r s u) (ha : a' = a) :
    Follows r (some 1#5) (jumpAndLink a s) (jumpAndLink a' u) := by
  subst ha
  rw [jumpAndLink_eq, jumpAndLink_eq, h.pc]
  exact of_writeX rfl h

theorem loadX {rd : Reg} {a a' : Word} (hd : d = some rd) (h : SameBut r s u) (ha : a' = a) :
    Follows r d (loadX rd a s) (loadX rd a' u) := by
  subst ha
  rw [loadX_eq, loadX_eq, h.loadCheck_eq, h.wordAt_eq]
  cases loadCheck 4 a' s with
  | some c => exact of_raise _ _ _
  | none => exact finishX hd h rfl

theorem loadF4 {w : Parcel} {rd : Reg} {a a' : Word} (h : SameBut r s u) (ha : a' = a) :
    Follows r none (loadF4 w rd a s) (loadF4 w rd a' u) := by
  subst ha
  rw [loadF4_eq, loadF4_eq, h.loadCheck_eq, h.wordAt_eq, State.hasF_congr h.f]
  split
  · exact of_raise _ _ _
  · cases loadCheck 4 a' s with
    | some c => exact of_raise _ _ _
    | none => exact of_next (h.writeF32 rd _).advance

theorem loadF8 {w : Parcel} {rd : Reg} {a a' : Word} (h : SameBut r s u) (ha : a' = a) :
    Follows r none (loadF8 w rd a s) (loadF8 w rd a' u) := by
  subst ha
  rw [loadF8_eq, loadF8_eq, h.loadCheck_eq, h.dwordAt_eq, State.hasD_congr h.f]
  split
  · exact of_raise _ _ _
  · cases loadCheck 8 a' s with
    | some c => exact of_raise _ _ _
    | none => exact of_next (h.writeF64 rd _).advance

theorem store4 {a a' v v' : Word} (h : SameBut r s u) (ha : a' = a) (hv : v' = v) :
    Follows r none (store4 a v s) (store4 a' v' u) := by
  subst ha hv
  rw [store4_eq, store4_eq, h.storeCheck_eq]
  cases storeCheck 4 a' s with
  | some c => exact of_raise _ _ _
  | none => exact of_next (h.storeBytes a' _).advance

theorem store8 {a a' : Word} {v : DWord} (h : SameBut r s u) (ha : a' = a) :
    Follows r none (store8 a v s) (store8 a' v u) := by
  subst ha
  rw [store8_eq, store8_eq, h.storeCheck_eq]
  cases storeCheck 8 a' s with
  | some c => exact of_raise _ _ _
  | none => exact of_next (h.storeBytes a' _).advance

theorem storeF4 {w : Parcel} {rs2 : Reg} {a a' : Word} (h : SameBut r s u) (ha : a' = a) :
    Follows r none (storeF4 w rs2 a s) (storeF4 w rs2 a' u) := by
  unfold Machine.storeF4
  rw [State.readF32_congr h.f]
  cases s.readF32 rs2 with
  | none => exact of_raise _ _ _
  | some v => exact store4 h ha rfl

theorem storeF8 {w : Parcel} {rs2 : Reg} {a a' : Word} (h : SameBut r s u) (ha : a' = a) :
    Follows r none (storeF8 w rs2 a s) (storeF8 w rs2 a' u) := by
  unfold Machine.storeF8
  rw [State.readF64_congr h.f]
  cases s.readF64 rs2 with
  | none => exact of_raise _ _ _
  | some v => exact store8 h ha

theorem jump {a a' : Word} (h : SameBut r s u) (ha : a' = a) :
    Follows r none (.next (s.setPc a)) (.next (u.setPc a')) := by
  subst ha
  exact of_next (h.setPc _)

theorem branch {b b' : Bool} {offset : Word} (h : SameBut r s u) (hb : b' = b) :
    Follows r none (branch b offset s) (branch b' offset u) := by
  subst hb
  rw [branch_eq, branch_eq, h.pc]
  cases b' with
  | true => exact of_next (h.setPc _)
  | false => exact of_next h.advance

end Follows

/-- An instruction does the same from two states that differ only in a register it does not read (R23). -/
theorem exec_follows {i : Instr} {r : Reg} {s u : State} (hw : WellFormed i) (hr : r ∉ (profile i).readsX)
    (h : SameBut r s u) : Follows r (profile i).destX (exec i s) (exec i u) := by
  have hx {q : Reg} (hq : q ∈ (profile i).readsX) : u.readX q = s.readX q := h.readX_of_mem hr hq
  have hp {q : RegP} (hq : primed q ∈ (profile i).readsX) : u.readX (regP q) = s.readX (regP q) :=
    primed_eq q ▸ hx hq
  have ha {q : RegP} {n : Nat} {uimm : BitVec n} (hq : primed q ∈ (profile i).readsX) :
      regAddr q uimm u = regAddr q uimm s := congrArg (· + zext uimm) (hp hq)
  have hsp {n : Nat} {uimm : BitVec n} (hq : 2#5 ∈ (profile i).readsX) :
      spAddr uimm u = spAddr uimm s := congrArg (· + zext uimm) (hx hq)
  have one {q : Reg} {l : List Reg} : q ∈ q :: l := List.mem_cons_self
  have two {p q : Reg} {l : List Reg} : q ∈ p :: q :: l := List.mem_cons_of_mem _ List.mem_cons_self
  have dest (rd : RegP) : some (primed rd) = some (regP rd) := congrArg some (primed_eq rd)
  cases i with
  | illegalCAddi4spnNzuimm0 _ => exact .of_raise _ _ _
  | cAddi4spn rd nzuimm => exact .finishX (dest rd) h (congrArg (· + _) (hx one))
  | cFld rd rs1 uimm => exact .loadF8 h (ha one)
  | cLw rd rs1 uimm => exact .loadX (dest rd) h (ha one)
  | cFlw rd rs1 uimm => exact .loadF4 h (ha one)
  | illegalQ0Funct3x100 _ => exact .of_raise _ _ _
  | cFsd rs2 rs1 uimm => exact .storeF8 h (ha one)
  | cSw rs2 rs1 uimm => exact .store4 h (ha one) (hp two)
  | cFsw rs2 rs1 uimm => exact .storeF4 h (ha one)
  | cNop => exact .of_next h.advance
  | hintCNopImmNonzero _ => exact .of_next h.advance
  | hintCAddiImm0 _ => exact .of_next h.advance
  | cAddi rd nzimm => exact .finishX rfl h (congrArg (· + _) (hx one))
  | cJal offset => exact .jumpAndLink h (congrArg (· + _) h.pc)
  | hintCLiRd0 _ => exact .of_next h.advance
  | cLi rd imm => exact .finishX rfl h rfl
  | illegalCAddi16spImm0 => exact .of_raise _ _ _
  | cAddi16sp imm => exact .finishX rfl h (congrArg (· + _) (hx one))
  | illegalCLuiImm0 _ => exact .of_raise _ _ _
  | hintCLuiRd0 _ => exact .of_next h.advance
  | cLui rd imm => exact .finishX rfl h rfl
  | illegalCSrliCSraiShamt5 _ _ _ => exact .of_raise _ _ _
  | cSrli rd shamt => exact .finishX (dest rd) h (congrArg (· >>> _) (hp one))
  | cSrai rd shamt => exact .finishX (dest rd) h (congrArg (BitVec.sshiftRight · _) (hp one))
  | cAndi rd imm => exact .finishX (dest rd) h (congrArg (· &&& _) (hp one))
  | cSub rd rs2 => exact .finishX (dest rd) h (congr (congrArg (· - ·) (hp one)) (hp two))
  | cXor rd rs2 => exact .finishX (dest rd) h (congr (congrArg (· ^^^ ·) (hp one)) (hp two))
  | cOr rd rs2 => exact .finishX (dest rd) h (congr (congrArg (· ||| ·) (hp one)) (hp two))
  | cAnd rd rs2 => exact .finishX (dest rd) h (congr (congrArg (· &&& ·) (hp one)) (hp two))
  | illegalCSubw _ _ => exact .of_raise _ _ _
  | illegalCAddw _ _ => exact .of_raise _ _ _
  | illegalQ1Reserved _ _ _ => exact .of_raise _ _ _
  | cJ offset => exact .jump h (congrArg (· + _) h.pc)
  | cBeqz rs1 offset => exact .branch h (congrArg isZero (hp one))
  | cBnez rs1 offset => exact .branch h (congrArg (!isZero ·) (hp one))
  | illegalCSlliShamt5 _ _ => exact .of_raise _ _ _
  | hintCSlliRd0 _ => exact .of_next h.advance
  | cSlli rd shamt => exact .finishX rfl h (congrArg (· <<< _) (hx one))
  | cFldsp rd uimm => exact .loadF8 h (hsp one)
  | illegalCLwspRd0 _ => exact .of_raise _ _ _
  | cLwsp rd uimm => exact .loadX rfl h (hsp one)
  | cFlwsp rd uimm => exact .loadF4 h (hsp one)
  | illegalCJrRs1x0 => exact .of_raise _ _ _
  | cJr rs1 => exact .jump h (congrArg (· &&& _) (hx one))
  | hintCMvRd0 _ => exact .of_next h.advance
  | cMv rd rs2 => exact .finishX rfl h (hx one)
  | cEbreak => exact .of_raise _ _ _
  | cJalr rs1 => exact .jumpAndLink h (congrArg (· &&& _) (hx one))
  | hintCAddRd0 _ => exact .of_next h.advance
  | cAdd rd rs2 => exact .finishX rfl h (congr (congrArg (· + ·) (hx one)) (hx two))
  | cFsdsp rs2 uimm => exact .storeF8 h (hsp one)
  | cSwsp rs2 uimm => exact .store4 h (hsp one) (hx two)
  | cFswsp rs2 uimm => exact .storeF4 h (hsp one)
  | refusedQ3 _ => intro t ht; cases ht
  | cLd _ _ _ => cases hw
  | cSd _ _ _ => cases hw
  | cAddiw _ _ => cases hw
  | cSubw _ _ => cases hw
  | cAddw _ _ => cases hw
  | cLdsp _ _ => cases hw
  | cSdsp _ _ => cases hw

end Sys2Proof.Laws
end

section
/-! SUPPORT. When an instruction stops and when it completes, in the order of R225. -/

namespace Sys2Proof.Laws

open Sys2Proof.Machine

/-! ## Why an instruction stops -/

/-- Without its registers, or as a reserved row, an instruction raises Illegal instruction (R96, R98, R100). -/
theorem exec_of_illegalHere {i : Instr} {s : State} (h : IllegalHere i s) : exec i s = raiseIllegal (encode i) s := by
  have absent4 {w : Parcel} {rd : Reg} {a : Word} (hf : s.hasF = false) : loadF4 w rd a s = raiseIllegal w s := by
    rw [loadF4_eq, if_pos hf]
  have absent8 {w : Parcel} {rd : Reg} {a : Word} (hd : s.hasD = false) : loadF8 w rd a s = raiseIllegal w s := by
    rw [loadF8_eq, if_pos hd]
  obtain hi | hn := h
  · cases i
    case illegalCAddi4spnNzuimm0 | illegalQ0Funct3x100 | illegalCAddi16spImm0 | illegalCLuiImm0 |
      illegalCSrliCSraiShamt5 | illegalCSubw | illegalCAddw | illegalQ1Reserved | illegalCSlliShamt5 |
      illegalCLwspRd0 | illegalCJrRs1x0 => rfl
    all_goals cases hi
  · cases i
    case cFlw | cFlwsp => exact absent4 hn
    case cFld | cFldsp => exact absent8 hn
    case cFsw | cFswsp => exact storeF4_of_absent hn
    case cFsd | cFsdsp => exact storeF8_of_absent hn
    all_goals cases hn

/-- An access at `a` whose checks answer `check` raises what they say, and completes when they pass. -/
structure Checked (o : Result) (s : State) (a : Word) (check : Option Cause) : Prop where
  stops : ∀ c, check = some c → o = raise c a s
  completes : check = none → ∃ t, o = .next t

namespace Checked

variable {s t : State} {a a' : Word}

theorem of_raise (c : Cause) : Checked (raise c a s) s a (some c) :=
  ⟨fun _ h => by rw [Option.some.inj h], nofun⟩

theorem of_next : Checked (.next t) s a none := ⟨nofun, fun _ => ⟨t, rfl⟩⟩

theorem loadX {rd : Reg} (ha : a' = a) : Checked (loadX rd a s) s a' (loadCheck 4 a' s) := by
  subst ha
  rw [loadX_eq]
  cases loadCheck 4 a' s with
  | some c => exact of_raise c
  | none => exact of_next

theorem loadF4 {w : Parcel} {rd : Reg} (hf : s.hasF = true) (ha : a' = a) :
    Checked (loadF4 w rd a s) s a' (loadCheck 4 a' s) := by
  subst ha
  rw [loadF4_eq, if_neg (by simp [hf])]
  cases loadCheck 4 a' s with
  | some c => exact of_raise c
  | none => exact of_next

theorem loadF8 {w : Parcel} {rd : Reg} (hd : s.hasD = true) (ha : a' = a) :
    Checked (loadF8 w rd a s) s a' (loadCheck 8 a' s) := by
  subst ha
  rw [loadF8_eq, if_neg (by simp [hd])]
  cases loadCheck 8 a' s with
  | some c => exact of_raise c
  | none => exact of_next

theorem store4 {v : Word} (ha : a' = a) : Checked (store4 a v s) s a' (storeCheck 4 a' s) := by
  subst ha
  rw [store4_eq]
  cases storeCheck 4 a' s with
  | some c => exact of_raise c
  | none => exact of_next

theorem store8 {v : DWord} (ha : a' = a) : Checked (store8 a v s) s a' (storeCheck 8 a' s) := by
  subst ha
  rw [store8_eq]
  cases storeCheck 8 a' s with
  | some c => exact of_raise c
  | none => exact of_next

theorem storeF4 {w : Parcel} {rs2 : Reg} (hf : s.hasF = true) (ha : a' = a) :
    Checked (storeF4 w rs2 a s) s a' (storeCheck 4 a' s) := by
  cases hv : s.readF32 rs2 with
  | none => rw [(State.readF32_eq_none s rs2).1 hv] at hf; cases hf
  | some v => rw [storeF4_of_read hv]; exact store4 ha

theorem storeF8 {w : Parcel} {rs2 : Reg} (hd : s.hasD = true) (ha : a' = a) :
    Checked (storeF8 w rs2 a s) s a' (storeCheck 8 a' s) := by
  cases hv : s.readF64 rs2 with
  | none => rw [(State.readF64_eq_none s rs2).1 hv] at hd; cases hd
  | some v => rw [storeF8_of_read hv]; exact store8 ha

/-- A load stops in the order of R52, and completes otherwise. -/
theorem loadStops {o : Result} {n : Nat} (h : Checked o s a (loadCheck n a s)) :
    LoadStops o s a n ∧ (a.toNat % n = 0 → Readable s a n → ∃ t, o = .next t) :=
  ⟨⟨fun hm => h.stops _ (loadCheck_misaligned hm), fun hm hr => h.stops _ (loadCheck_denied hm hr)⟩,
    fun hm hr => h.completes (loadCheck_ok hm hr)⟩

/-- A store stops in the order of R53, and completes otherwise. -/
theorem storeStops {o : Result} {n : Nat} (h : Checked o s a (storeCheck n a s)) :
    StoreStops o s a n ∧ (a.toNat % n = 0 → Writable s a n → ∃ t, o = .next t) :=
  ⟨⟨fun hm => h.stops _ (storeCheck_misaligned hm), fun hm hw => h.stops _ (storeCheck_denied hm hw)⟩,
    fun hm hw => h.completes (storeCheck_ok hm hw)⟩

end Checked

section
variable {i : Instr} {s : State} {k : Access}

theorem needs_met_of_not_illegalHere (h : ¬ IllegalHere i s) : (profile i).needs.met s = true :=
  (Bool.not_eq_false _).mp fun hn => h (.inr hn)

/-- An instruction that loads, with the registers it needs, does what the checks of its access say (R52). -/
theorem exec_checked_load (h : ¬ IllegalHere i s) (hk : (profile i).access = some k) (hs : k.store = false) :
    Checked (exec i s) s (k.address s) (loadCheck k.size (k.address s) s) := by
  have hn := needs_met_of_not_illegalHere h
  cases i
  case cLw => cases hk; exact .loadX (regAddr_eq _ _ _)
  case cLwsp => cases hk; exact .loadX (spAddr_eq _ _)
  case cFlw => cases hk; exact .loadF4 hn (regAddr_eq _ _ _)
  case cFlwsp => cases hk; exact .loadF4 hn (spAddr_eq _ _)
  case cFld => cases hk; exact .loadF8 hn (regAddr_eq _ _ _)
  case cFldsp => cases hk; exact .loadF8 hn (spAddr_eq _ _)
  case cSw | cSwsp | cFsw | cFswsp | cFsd | cFsdsp => cases hk; cases hs
  all_goals cases hk

/-- An instruction that stores, with the registers it needs, does what the checks of its access say (R53). -/
theorem exec_checked_store (h : ¬ IllegalHere i s) (hk : (profile i).access = some k) (hs : k.store = true) :
    Checked (exec i s) s (k.address s) (storeCheck k.size (k.address s) s) := by
  have hn := needs_met_of_not_illegalHere h
  cases i
  case cSw => cases hk; exact .store4 (regAddr_eq _ _ _)
  case cSwsp => cases hk; exact .store4 (spAddr_eq _ _)
  case cFsw => cases hk; exact .storeF4 hn (regAddr_eq _ _ _)
  case cFswsp => cases hk; exact .storeF4 hn (spAddr_eq _ _)
  case cFsd => cases hk; exact .storeF8 hn (regAddr_eq _ _ _)
  case cFsdsp => cases hk; exact .storeF8 hn (spAddr_eq _ _)
  case cLw | cLwsp | cFlw | cFlwsp | cFld | cFldsp => cases hk; cases hs
  all_goals cases hk

/-- An instruction that accesses no memory completes (R221). -/
theorem exec_completes (hr : (profile i).role = .runs) (hk : (profile i).access = none) : ∃ t, exec i s = .next t := by
  cases i
  case cSw | cSwsp | cFsw | cFswsp | cFsd | cFsdsp | cLw | cLwsp | cFlw | cFlwsp | cFld | cFldsp => cases hk
  case illegalCAddi4spnNzuimm0 | illegalQ0Funct3x100 | illegalCAddi16spImm0 | illegalCLuiImm0 |
    illegalCSrliCSraiShamt5 | illegalCSubw | illegalCAddw | illegalQ1Reserved | illegalCSlliShamt5 |
    illegalCLwspRd0 | illegalCJrRs1x0 | cEbreak | refusedQ3 | cLd | cSd | cAddiw | cSubw | cAddw | cLdsp |
    cSdsp => cases hr
  all_goals exact ⟨_, rfl⟩

end

/-- Quadrant 3 is refused with the parcel itself (R81). -/
theorem exec_of_quadrant3 {w : Parcel} (h : w.toNat % 4 = 3) (s : State) :
    exec (decodeParcel w) s = .refused (.thirtyTwoBitInstruction w) := by
  have hq : w.extractLsb 1 0 = 0b11#2 := BitVec.eq_of_toNat_eq (by simpa [BitVec.extractLsb_toNat] using h)
  have hd : decodeParcel w = .refusedQ3 (w.extractLsb 15 2) := by
    unfold decodeParcel
    rw [hq, if_neg (by decide), if_neg (by decide), if_neg (by decide)]
  have he : encode (.refusedQ3 (w.extractLsb 15 2)) = w := hd ▸ encode_decodeParcel w
  rw [hd]
  exact congrArg (fun p => Host.Outcome.refused (Refusal.thirtyTwoBitInstruction p)) he

end Sys2Proof.Laws
end

section
/-! The statements about state and step, settled. -/

namespace Sys2Proof.Proofs

open Sys2Proof.Machine Sys2Proof.Laws

/-- Settles O6: the parcel decoded is the one fetched. -/
theorem stepRunsDecodedInstruction : Obligations.StepRunsDecodedInstruction := by
  intro s i he hf hd _
  have hi : decodeParcel (s.parcelAt s.pc) = i := by
    simpa [decode, parcelOfBytes, State.parcelAt] using hd
  rw [step_of_fetchable he hf, hi]

/-- Settles O8, the fetch's first case. -/
theorem oddPcIsRefused : Obligations.OddPcIsRefused := fun _ => step_of_odd

/-- Settles O26, from the laws of the integer registers. -/
theorem xZeroIsHardWired : Obligations.XZeroIsHardWired := by
  refine fun s v => ⟨s.readX_zero, s.writeX_zero v, fun i j hi => ?_⟩
  rw [State.readX_writeX, if_neg hi]

/-- Settles O31, by induction on both lists. -/
theorem canonicalMemoryIsDetermined : Obligations.CanonicalMemoryIsDetermined := by
  intro m n hm hn h
  refine Memory.eq_of_read_eq hm hn fun a ha => ?_
  have hr := h (BitVec.ofNat 32 a)
  rwa [BitVec.toNat_ofNat, Nat.mod_eq_of_lt ha] at hr

/-- Settles O9: the two bytes placed are text, and together they are the word. -/
theorem placedWordRuns : Obligations.PlacedWordRuns := by
  rintro s t w he rfl
  refine ⟨decodeTableWord_eq w, ?_, rfl, rfl, rfl, fun a h0 h1 => ⟨?_, ?_⟩⟩
  · rw [step_of_fetchable (s := s.withFetchWord 16 w) he (fetchable_withFetchWord s w)]
    exact congrArg (fun p => exec (decodeParcel p) _) (parcelAt_withFetchWord s w)
  · rw [byteAt_withFetchWord, if_neg]
    bv_omega
  · rw [State.withFetchWord, State.loadText_map, MemMap.perms_makeText, if_neg h1, MemMap.perms_makeText, if_neg h0]

/-- Settles O16: the targets of R26 are even, and neither the fetch nor any stop has code 0. -/
theorem pcStaysEven : Obligations.PcStaysEven := by
  refine ⟨fun args t => launch_pc_even, fun s t he h => ?_, fun s t r h => ?_⟩
  · rw [(step_effect h).pc_eq]
    exact target_even (wellFormed_decodeParcel _) he
  · obtain ⟨-, ⟨-, rfl⟩ | hr⟩ := step_fault h
    · simp
    · exact hr.cause_ne_misaligned

/-- Settles O23, from the effects and the stops of `exec`. -/
theorem nextPcTable : Obligations.NextPcTable := by
  refine fun i s hw => ⟨fun t h => (exec_next hw h).pc_eq, fun r t h => ?_⟩
  rw [(exec_fault hw h).1]

/-- Settles O25, effect by effect. -/
theorem everyInstructionFrame : Obligations.EveryInstructionFrame := by
  intro i s t hw h
  have e := exec_next hw h
  exact ⟨fun _ => e.readX_eq, fun _ => e.readF_eq, e.hasF_eq, e.hasD_eq, e.map_eq, fun _ => e.byteAt_eq⟩

/-- Settles O24: the writes by the effects of `exec`, the reads by running it from two states that differ in one
register. -/
theorem registersReadAndWritten : Obligations.RegistersReadAndWritten := by
  intro i s t hw h
  refine ⟨fun r => (exec_next hw h).readX_eq, fun r v hr => ?_, fun rs1 hi => ?_⟩
  · obtain ⟨u, hu, hs, hd⟩ := exec_follows hw hr (SameBut.of_writeX r v s) t h
    exact ⟨u, hu, hs.pc, hs.f, hs.mem, hs.map, hs.readX, hd⟩
  · subst hi
    obtain rfl := Host.Outcome.next.inj h
    refine ⟨?_, (clearBit0_eq _).symm⟩
    rw [State.setPc_readX, State.readX_writeX_same, plus_two]
    rfl

/-- Settles O21: the fetch, then the row, then the checks of the one access. -/
theorem stepStopsInTheSpecifiedOrder : Obligations.StepStopsInTheSpecifiedOrder := by
  rintro s w i he rfl rfl
  refine ⟨fun hf => step_of_not_fetchable he hf, fun hf => ?_, fun hf => ?_, fun hf => ?_, fun hf => ?_, fun hf => ?_,
    fun hf => ?_⟩ <;> rw [step_of_fetchable he hf, State.parcelAt]
  · exact fun hq => exec_of_quadrant3 hq s
  · intro hi
    rw [exec_of_illegalHere hi, encode_decodeParcel, BitVec.ofNat_toNat]
    rfl
  · intro hi
    rw [hi]
    rfl
  · exact fun hi k hk hs => (exec_checked_load hi hk hs).loadStops
  · exact fun hi k hk hs => (exec_checked_store hi hk hs).storeStops
  · exact exec_completes

/-- Settles O10: each part of the invariant is kept by every effect an instruction can have. -/
theorem stepKeepsInvariant : Obligations.StepKeepsInvariant := by
  rintro s t ⟨hpc, hx, hm, hmap⟩ h
  have e := step_effect h
  rw [aligned_iff] at hpc
  refine ⟨(aligned_iff 2 t.pc).2 ?_, e.x_zero.trans hx, e.wf_mem hm, e.map_eq ▸ hmap⟩
  rw [e.pc_eq]
  exact target_even (wellFormed_decodeParcel _) hpc

end Sys2Proof.Proofs
end

section
/-! SUPPORT. What the memory primitives answer, what is read back after a store, and what no store reaches. -/

namespace Sys2Proof.Machine

/-! ## What the primitives answer -/

section
variable {s t : State} {a : Word} {c : Cause}

theorem memRead4_error (h : loadCheck 4 a s = some c) : memRead4 a s = .error c := by rw [memRead4, h]

theorem memRead4_ok (h : loadCheck 4 a s = none) : memRead4 a s = .ok (s.wordAt a) := by rw [memRead4, h]

theorem memRead8_error (h : loadCheck 8 a s = some c) : memRead8 a s = .error c := by rw [memRead8, h]

theorem memRead8_ok (h : loadCheck 8 a s = none) : memRead8 a s = .ok (s.dwordAt a) := by rw [memRead8, h]

theorem memWrite4_error (v : Word) (h : storeCheck 4 a s = some c) : memWrite4 a v s = .error c := by rw [memWrite4, h]

theorem memWrite4_ok (v : Word) (h : storeCheck 4 a s = none) :
    memWrite4 a v s = .ok (s.storeBytes a (bytesOfWord v)) := by rw [memWrite4, h]

theorem memWrite8_error (v : DWord) (h : storeCheck 8 a s = some c) : memWrite8 a v s = .error c := by rw [memWrite8, h]

theorem memWrite8_ok (v : DWord) (h : storeCheck 8 a s = none) :
    memWrite8 a v s = .ok (s.storeBytes a (bytesOfDWord v)) := by rw [memWrite8, h]

/-- If a 4-byte write answers a state, its checks passed and the state is that one. -/
theorem memWrite4_eq_ok {v : Word} (h : memWrite4 a v s = .ok t) :
    storeCheck 4 a s = none ∧ t = s.storeBytes a (bytesOfWord v) := by
  cases hc : storeCheck 4 a s with
  | some c => rw [memWrite4_error v hc] at h; cases h
  | none => rw [memWrite4_ok v hc] at h; exact ⟨rfl, (Except.ok.inj h).symm⟩

/-- If an 8-byte write answers a state, its checks passed and the state is that one. -/
theorem memWrite8_eq_ok {v : DWord} (h : memWrite8 a v s = .ok t) :
    storeCheck 8 a s = none ∧ t = s.storeBytes a (bytesOfDWord v) := by
  cases hc : storeCheck 8 a s with
  | some c => rw [memWrite8_error v hc] at h; cases h
  | none => rw [memWrite8_ok v hc] at h; exact ⟨rfl, (Except.ok.inj h).symm⟩

/-- A store that passed its checks is aligned (R53). -/
theorem mod_eq_zero_of_storeCheck {n : Nat} (h : storeCheck n a s = none) : a.toNat % n = 0 :=
  (aligned_iff n a).1 (storeCheck_eq_none.1 h).1

/-- A store that passed its checks finds every byte writable (R53). -/
theorem writable_of_storeCheck {n : Nat} (h : storeCheck n a s = none) : Writable s a n :=
  writable_iff.2 (storeCheck_eq_none.1 h).2

end

/-- An aligned access ends at the top of the address space or below it (R52). -/
theorem add_le_of_aligned {a : Word} {n : Nat} (hn : n ∣ 2 ^ 32) (h : a.toNat % n = 0) : a.toNat + n ≤ 2 ^ 32 := by
  have hlt : a.toNat < 2 ^ 32 := a.isLt
  obtain ⟨p, hp⟩ := hn
  obtain ⟨q, hq⟩ := Nat.dvd_of_mod_eq_zero h
  rw [hp, hq] at hlt
  rw [hp, hq]
  calc n * q + n = n * (q + 1) := (Nat.mul_succ n q).symm
    _ ≤ n * p := Nat.mul_le_mul_left n (Nat.lt_of_mul_lt_mul_left hlt)

/-- A range inside one that is readable is readable. -/
theorem readable_inside {s : State} {a : Word} {n k m : Nat} (h : Readable s a n) (hk : k + m ≤ n) :
    Readable s (a + BitVec.ofNat 32 k) m := by
  intro j hj
  rw [BitVec.add_assoc, ← BitVec.ofNat_add]
  exact h (k + j) (by omega)

/-! ## Reading back what was stored -/

/-- A field of a value is its number shifted down, as far as the field is wide. -/
theorem extractLsb_eq_ofNat {n : Nat} (v : BitVec n) (hi lo : Nat) :
    v.extractLsb hi lo = BitVec.ofNat (hi - lo + 1) (v.toNat / 2 ^ lo) := by
  rw [← Nat.shiftRight_eq_div_pow]
  rfl

/-- Two bytes as one value, least significant first (R63). -/
theorem parcelAt_eq (s : State) (a : Word) : BitVec.ofNat 16 (bytesValue s a 2) = s.parcelAt a := by
  have hlo : (s.byteAt a).toNat < 2 ^ 8 := (s.byteAt a).isLt
  have hhi : (s.byteAt (a + 1)).toNat < 2 ^ 8 := (s.byteAt (a + 1)).isLt
  apply BitVec.eq_of_toNat_eq
  rw [State.parcelAt, BitVec.toNat_append, Nat.shiftLeft_eq, Nat.mul_comm, ← Nat.two_pow_add_eq_or_of_lt hlo,
    BitVec.toNat_ofNat]
  simp only [bytesValue]
  omega

namespace OnlyStored

variable {s t : State} {a q : Word} {n v : Nat}

/-- The store itself, before `pc` moves on. -/
theorem of_advance (h : OnlyStored s t.advance a n v q) : OnlyStored s t a n v t.pc := by
  obtain ⟨hin, hout, -, hx, hf, hmap⟩ := h
  exact ⟨hin, hout, rfl, hx, hf, hmap⟩

/-- Each byte below the width of a store is the byte of the value stored there (R53). -/
theorem byteAt_eq (h : OnlyStored s t a n v q) (hn : n ≤ 2 ^ 32) {k : Nat} (hk : k < n) :
    t.byteAt (a + BitVec.ofNat 32 k) = BitVec.ofNat 8 (v / 2 ^ (8 * k)) := by
  have hd : (a + BitVec.ofNat 32 k - a).toNat = k := by
    rw [BitVec.add_comm, BitVec.add_sub_cancel, BitVec.toNat_ofNat, Nat.mod_eq_of_lt (by omega)]
  have e := h.1 (a + BitVec.ofNat 32 k)
  rw [hd] at e
  exact e hk

/-- A read of `m` bytes inside a store sees those bytes of the value stored (R70). -/
theorem bytesValue_eq (h : OnlyStored s t a n v q) (hn : n ≤ 2 ^ 32) {k m : Nat} (hk : k + m ≤ n) :
    bytesValue t (a + BitVec.ofNat 32 k) m = v / 2 ^ (8 * k) % 2 ^ (8 * m) := by
  induction m generalizing k with
  | zero => simp [bytesValue, Nat.mod_one]
  | succ m ih =>
    have hstep : a + BitVec.ofNat 32 k + 1 = a + BitVec.ofNat 32 (k + 1) := by
      rw [BitVec.ofNat_add, BitVec.add_assoc]
      rfl
    have hdiv : v / 2 ^ (8 * (k + 1)) = v / 2 ^ (8 * k) / 2 ^ 8 := by
      rw [Nat.div_div_eq_div_mul, ← Nat.pow_add, Nat.mul_succ]
    have hpow : 2 ^ (8 * (m + 1)) = 2 ^ 8 * 2 ^ (8 * m) := by rw [← Nat.pow_add]; congr 1; omega
    rw [bytesValue, hstep, ih (by omega), h.byteAt_eq hn (by omega), hdiv, hpow, Nat.mod_mul, BitVec.toNat_ofNat]

theorem parcelAt_eq (h : OnlyStored s t a n v q) (hn : n ≤ 2 ^ 32) {k : Nat} (hk : k + 2 ≤ n) :
    t.parcelAt (a + BitVec.ofNat 32 k) = BitVec.ofNat 16 (v / 2 ^ (8 * k)) := by
  rw [← Machine.parcelAt_eq, h.bytesValue_eq hn hk]
  exact BitVec.eq_of_toNat_eq (Nat.mod_mod _ _)

theorem wordAt_eq (h : OnlyStored s t a n v q) (hn : n ≤ 2 ^ 32) {k : Nat} (hk : k + 4 ≤ n) :
    t.wordAt (a + BitVec.ofNat 32 k) = BitVec.ofNat 32 (v / 2 ^ (8 * k)) := by
  rw [← Machine.wordAt_eq, h.bytesValue_eq hn hk]
  exact BitVec.eq_of_toNat_eq (Nat.mod_mod _ _)

/-- An aligned 4-byte read inside a store answers those bytes of the value stored (R70). -/
theorem memRead4_eq (h : OnlyStored s t a n v q) (hn : n ≤ 2 ^ 32) (hr : Readable t a n) {k : Nat} (hk : k + 4 ≤ n)
    (hal : (a + BitVec.ofNat 32 k).toNat % 4 = 0) :
    memRead4 (a + BitVec.ofNat 32 k) t = .ok (BitVec.ofNat 32 (v / 2 ^ (8 * k))) := by
  rw [memRead4_ok (loadCheck_ok hal (readable_inside hr hk)), h.wordAt_eq hn hk]

/-- A word inside a store of its own width is the word stored. -/
theorem wordAt_self {w : Word} (h : OnlyStored s t a 4 w.toNat q) : t.wordAt a = w := by
  simpa using h.wordAt_eq (by decide) (k := 0) (by decide)

end OnlyStored

/-! ## What no store reaches -/

/-- A byte at a distance below the width of a store is one of the bytes it asks to write. -/
theorem writable_of_covered {s : State} {a b : Word} {n : Nat} (h : Writable s a n) (hb : (b - a).toNat < n) :
    MemMap.writable s.map b = true := by
  have e : a + BitVec.ofNat 32 (b - a).toNat = b := by
    rw [BitVec.ofNat_toNat, BitVec.setWidth_eq, BitVec.add_comm, BitVec.sub_add_cancel]
  exact e ▸ h _ hb

end Sys2Proof.Machine

namespace Sys2Proof.Laws

open Sys2Proof.Machine

/-- An instruction that stores and completes passed the checks of its store (R53). -/
theorem Effect.storeCheck_eq_none {i : Instr} {s t : State} {k : Access} (h : Effect i s t)
    (hk : (profile i).access = some k) (hs : k.store = true) : storeCheck k.size (k.address s) s = none := by
  cases h with
  | onlyPc hnone => rw [hnone] at hk; cases hk
  | x rd v hd hload | f32 rd v hd hload | f64 rd v hd hload => rw [hload k hk] at hs; cases hs
  | store k' l hk' _ _ _ hc =>
    obtain rfl := Option.some.inj (hk.symm.trans hk')
    exact hc

/-- An instruction that completes leaves every byte as it was that is not writable (R53, R68). -/
theorem Effect.byteAt_eq_of_not_writable {i : Instr} {s t : State} {b : Word} (h : Effect i s t)
    (hb : MemMap.writable s.map b = false) : t.byteAt b = s.byteAt b := by
  refine h.byteAt_eq fun k hk hs => Nat.le_of_not_lt fun hlt => ?_
  have hw := writable_of_covered (writable_of_storeCheck (h.storeCheck_eq_none hk hs)) hlt
  rw [hb] at hw
  cases hw

/-- A reserved row accesses no memory (R56, R96). -/
theorem access_eq_none_of_illegal {i : Instr} (h : (profile i).role = .illegal) : (profile i).access = none := by
  cases i
  case illegalCAddi4spnNzuimm0 | illegalQ0Funct3x100 | illegalCAddi16spImm0 | illegalCLuiImm0 |
    illegalCSrliCSraiShamt5 | illegalCSubw | illegalCAddw | illegalQ1Reserved | illegalCSlliShamt5 |
    illegalCLwspRd0 | illegalCJrRs1x0 => rfl
  all_goals cases h

/-- A load or store with the registers it needs is not illegal (R96, R100). -/
theorem not_illegalHere_of_access {i : Instr} {s : State} {k : Access} (hk : (profile i).access = some k)
    (hn : (profile i).needs.met s = true) : ¬ IllegalHere i s := by
  rintro (hi | hi)
  · rw [access_eq_none_of_illegal hi] at hk; cases hk
  · rw [hn] at hi; cases hi

/-- `c.sw` completes only by its store, at the effective address of its profile (R136). -/
theorem exec_cSw_next {rs2 rs1 : RegP} {uimm : BitVec 7} {s t : State} (h : exec (.cSw rs2 rs1 uimm) s = .next t) :
    storeCheck 4 (plus (s.readX (primed rs1)) uimm.toNat) s = none ∧
      OnlyStored s t (plus (s.readX (primed rs1)) uimm.toNat) 4 (s.readX (primed rs2)).toNat (plus s.pc 2) := by
  rw [regAddr_eq, primed_eq]
  obtain ⟨hc, rfl⟩ := store4_next (show store4 _ _ s = .next t from h)
  exact ⟨hc, storeBytes4_onlyStored _ _ _⟩

/-- An aligned `c.lw` of readable bytes completes with the word at its effective address (R132). -/
theorem exec_cLw_completes {rd base : RegP} {off : BitVec 7} {s : State} {a : Word}
    (ha : plus (s.readX (primed base)) off.toNat = a) (hal : a.toNat % 4 = 0) (hr : Readable s a 4) :
    ∃ u, exec (.cLw rd base off) s = .next u ∧ u.readX (primed rd) = s.wordAt a := by
  subst ha
  rw [regAddr_eq] at *
  refine ⟨(s.writeX (regP rd) (s.wordAt (regAddr base off s))).advance, ?_, ?_⟩
  · exact (loadX_eq _ _ _).trans (by rw [loadCheck_ok hal hr])
  · rw [primed_eq, State.advance_readX, State.readX_writeX_same, if_neg (regP_ne_zero rd)]

end Sys2Proof.Laws
end

section
/-! The statements about memory, settled. -/

namespace Sys2Proof.Proofs

open Sys2Proof.Machine Sys2Proof.Laws

/-- Settles O7, the two cases of the fetch from an even pc. -/
theorem fetchTakesTwoBytes : Obligations.FetchTakesTwoBytes :=
  fun _ he => ⟨step_of_not_fetchable he, step_of_fetchable he⟩

/-- Settles O17: what is executable is not writable, so no completing store covers it and one that would is denied. -/
theorem textIsImmutable : Obligations.TextIsImmutable := by
  intro s hex
  refine ⟨fun t a h hx => ?_, fun i k n hk hs hn hal hlt hx => ?_⟩
  · have e := step_effect h
    exact ⟨e.byteAt_eq_of_not_writable (MemMap.not_writable_of_executable hex a hx), e.map_eq ▸ hx⟩
  · have denied : ¬ Writable s (k.address s) k.size := fun hw => by
      have hnot := MemMap.not_writable_of_executable hex _ hx
      rw [hw n hlt] at hnot
      cases hnot
    exact (exec_checked_store (not_illegalHere_of_access hk hn) hk hs).storeStops.1.2 hal denied

/-- Settles O27, by the outcome of the checks for each width. -/
theorem memReadIsLittleEndian : Obligations.MemReadIsLittleEndian := by
  refine fun s a => ⟨fun hm => ?_, fun hm hr => ?_, fun hm hr => ?_, fun hm => ?_, fun hm hr => ?_, fun hm hr => ?_⟩
  · exact memRead4_error (loadCheck_misaligned hm)
  · exact memRead4_error (loadCheck_denied hm hr)
  · exact ⟨add_le_of_aligned (by decide) hm, _, memRead4_ok (loadCheck_ok hm hr), wordAt_toNat s a⟩
  · exact memRead8_error (loadCheck_misaligned hm)
  · exact memRead8_error (loadCheck_denied hm hr)
  · exact ⟨add_le_of_aligned (by decide) hm, _, memRead8_ok (loadCheck_ok hm hr), dwordAt_toNat s a⟩

/-- Settles O28, by the outcome of the checks for each width. -/
theorem memWriteIsLittleEndian : Obligations.MemWriteIsLittleEndian := by
  refine ⟨fun s a v => ⟨fun hm => ?_, fun hm hw => ?_, fun hm hw => ?_⟩,
    fun s a v => ⟨fun hm => ?_, fun hm hw => ?_, fun hm hw => ?_⟩⟩
  · exact memWrite4_error v (storeCheck_misaligned hm)
  · exact memWrite4_error v (storeCheck_denied hm hw)
  · exact ⟨_, memWrite4_ok v (storeCheck_ok hm hw), (storeBytes4_onlyStored s a v).of_advance⟩
  · exact memWrite8_error v (storeCheck_misaligned hm)
  · exact memWrite8_error v (storeCheck_denied hm hw)
  · exact ⟨_, memWrite8_ok v (storeCheck_ok hm hw), (storeBytes8_onlyStored s a v).of_advance⟩

/-- Settles O29: what is read back is the part of the value stored that lies there, at distances 0 to 4. -/
theorem mixedWidthAccesses : Obligations.MixedWidthAccesses := by
  refine ⟨fun s t a v h hr => ?_, fun s t a w h => ?_⟩ <;> simp only [extractLsb_eq_ofNat]
  · obtain ⟨hc, rfl⟩ := memWrite8_eq_ok h
    have hal : a.toNat % 8 = 0 := mod_eq_zero_of_storeCheck hc
    have read {k : Nat} := (storeBytes8_onlyStored s a v).of_advance.memRead4_eq (by decide) hr (k := k)
    constructor
    · simpa using read (k := 0) (by decide) (by bv_omega)
    · exact read (k := 4) (by decide) (by bv_omega)
  · obtain ⟨-, rfl⟩ := memWrite4_eq_ok h
    have hst := (storeBytes4_onlyStored s a w).of_advance
    have byte {k : Nat} (hk : k < 4) := hst.byteAt_eq (by decide) hk
    have parcel {k : Nat} (hk : k + 2 ≤ 4) := hst.parcelAt_eq (by decide) hk
    refine ⟨?_, byte (k := 1) (by decide), byte (k := 2) (by decide), byte (k := 3) (by decide), ?_,
      parcel (k := 2) (by decide)⟩
    · simpa using byte (k := 0) (by decide)
    · simpa using parcel (k := 0) (by decide)

/-- Settles O30: the four bytes the `c.lw` reads are the four the `c.sw` stored. -/
theorem loadReadsTheLatestStore : Obligations.LoadReadsTheLatestStore := by
  intro rs2 rs1 rd base uimm off s t h ha hr
  obtain ⟨hc, hst⟩ := exec_cSw_next h
  obtain ⟨u, hu, hx⟩ := exec_cLw_completes (rd := rd) ha (mod_eq_zero_of_storeCheck hc) hr
  exact ⟨u, hu, hx.trans hst.wordAt_self⟩

end Sys2Proof.Proofs
end

section
/-! SUPPORT. The fields of a parcel: what each field of the decoder reads from a parcel put together in one of the
formats of R82, and what the fixed bits of a table row say of it. -/

namespace Sys2Proof.Machine

/-! ## Slices -/

/-- A field below the cut of a concatenation is a field of its low part. -/
theorem slice_low {m n : Nat} (x : BitVec m) (y : BitVec n) {lo k : Nat} (h : lo + k ≤ n) :
    (x ++ y).extractLsb' lo k = y.extractLsb' lo k :=
  BitVec.extractLsb'_append_eq_of_add_le h

/-- A field above the cut of a concatenation is a field of its high part. -/
theorem slice_high {m n : Nat} (x : BitVec m) (y : BitVec n) {lo k : Nat} (h : n ≤ lo) :
    (x ++ y).extractLsb' lo k = x.extractLsb' (lo - n) k :=
  BitVec.extractLsb'_append_eq_of_le h

/-- The slice that is the whole value. -/
theorem slice_self {n lo : Nat} (v : BitVec n) (h : lo = 0) : v.extractLsb' lo n = v := by
  rw [h, BitVec.extractLsb'_eq_self]

/-- Adjacent slices of a value join to one slice. -/
theorem join_slices {n a b k l : Nat} (v : BitVec n) (h : b = a + l) :
    v.extractLsb' b k ++ v.extractLsb' a l = v.extractLsb' a (k + l) :=
  BitVec.extractLsb'_append_extractLsb'_eq_extractLsb' h

/-- The low `k` bits of a scaled immediate are zeros. -/
theorem zeros_of_scaledBy {n k : Nat} {v : BitVec n} (h : scaledBy k v = true) : 0#k = v.extractLsb' 0 k := by
  symm
  apply BitVec.eq_of_toNat_eq
  simpa [scaledBy, BitVec.extractLsb'_toNat] using h

/-- Where the fixed bits of a row cover a field, a parcel that matches the row has the pattern's field. -/
theorem field_of_match {w m p : Parcel} (h : w &&& m = p) {hi lo : Nat} (hm : m.extractLsb hi lo = BitVec.allOnes _) :
    w.extractLsb hi lo = p.extractLsb hi lo := by
  rw [← h, BitVec.extractLsb_and, hm, BitVec.and_allOnes]

/-! ## The formats (R82)

`w` is a parcel written field by field, from bit 15 down; `f` and `q` stand for its fixed bits. The slices of an
immediate that its source label scattered are read back in their order, and join. -/

section
variable {f : BitVec 3} {q : BitVec 2} {w : Parcel}

theorem fieldP42_append {x : BitVec 11} {r : RegP} (hw : x ++ r ++ q = w) : fieldP42 w = r := by
  subst hw
  simp (disch := decide) only [fieldP42, BitVec.extractLsb, slice_low, slice_high, slice_self]

theorem fieldRs2_append {x : BitVec 9} {r : Reg} (hw : x ++ r ++ q = w) : fieldRs2 w = r := by
  subst hw
  simp (disch := decide) only [fieldRs2, BitVec.extractLsb, slice_low, slice_high, slice_self]

/-- CIW (R86). -/
theorem fields_CIW {rd : RegP} {v : BitVec 10} (hv : scaledBy 2 v = true)
    (hw : f ++ v.extractLsb 5 4 ++ v.extractLsb 9 6 ++ v.extractLsb 2 2 ++ v.extractLsb 3 3 ++ rd ++ q = w) :
    fieldP42 w = rd ∧ nzuimmCIW w = v := by
  refine ⟨fieldP42_append hw, ?_⟩
  subst hw
  rw [nzuimmCIW, zeros_of_scaledBy hv]
  simp (disch := decide) only [BitVec.extractLsb, slice_low, slice_high, slice_self, join_slices]

/-- CL and CS, 4-byte accesses (R87). -/
theorem fields_CL4 {rd rs1 : RegP} {v : BitVec 7} (hv : scaledBy 2 v = true)
    (hw : f ++ v.extractLsb 5 3 ++ rs1 ++ v.extractLsb 2 2 ++ v.extractLsb 6 6 ++ rd ++ q = w) :
    fieldP42 w = rd ∧ fieldP97 w = rs1 ∧ uimmCL4 w = v := by
  refine ⟨fieldP42_append hw, ?_, ?_⟩ <;> subst hw
  · simp (disch := decide) only [fieldP97, BitVec.extractLsb, slice_low, slice_high, slice_self]
  · rw [uimmCL4, zeros_of_scaledBy hv]
    simp (disch := decide) only [BitVec.extractLsb, slice_low, slice_high, slice_self, join_slices]

/-- CL and CS, 8-byte accesses (R88). -/
theorem fields_CL8 {rd rs1 : RegP} {v : BitVec 8} (hv : scaledBy 3 v = true)
    (hw : f ++ v.extractLsb 5 3 ++ rs1 ++ v.extractLsb 7 6 ++ rd ++ q = w) :
    fieldP42 w = rd ∧ fieldP97 w = rs1 ∧ uimmCL8 w = v := by
  refine ⟨fieldP42_append hw, ?_, ?_⟩ <;> subst hw
  · simp (disch := decide) only [fieldP97, BitVec.extractLsb, slice_low, slice_high, slice_self]
  · rw [uimmCL8, zeros_of_scaledBy hv]
    simp (disch := decide) only [BitVec.extractLsb, slice_low, slice_high, slice_self, join_slices]

/-- CI with one 6-bit immediate, and CR, whose bit 12 is fixed (R89). -/
theorem fields_CI {b : BitVec 1} {rd : Reg} {lo : BitVec 5} (hw : f ++ b ++ rd ++ lo ++ q = w) :
    fieldRd w = rd ∧ fieldRs2 w = lo ∧ imm6 w = b ++ lo := by
  refine ⟨?_, fieldRs2_append hw, ?_⟩ <;> subst hw
  · simp (disch := decide) only [fieldRd, BitVec.extractLsb, slice_low, slice_high, slice_self]
  · simp (disch := decide) only [imm6, BitVec.extractLsb, slice_low, slice_high, slice_self]

/-- CI with the immediate of R89. -/
theorem imm6_CI {rd : Reg} {v : BitVec 6} (hw : f ++ v.extractLsb 5 5 ++ rd ++ v.extractLsb 4 0 ++ q = w) :
    imm6 w = v := by
  subst hw
  simp (disch := decide) only [imm6, BitVec.extractLsb, slice_low, slice_high, slice_self, join_slices]

/-- `c.lui` (R89). -/
theorem immLui_CI {rd : Reg} {v : BitVec 18} (hv : scaledBy 12 v = true)
    (hw : f ++ v.extractLsb 17 17 ++ rd ++ v.extractLsb 16 12 ++ q = w) : immLui w = v := by
  subst hw
  rw [immLui, zeros_of_scaledBy hv]
  simp (disch := decide) only [imm6, BitVec.extractLsb, slice_low, slice_high, slice_self, join_slices]

/-- `c.addi16sp` (R90). -/
theorem immAddi16sp_CI {rd : Reg} {v : BitVec 10} (hv : scaledBy 4 v = true)
    (hw : f ++ v.extractLsb 9 9 ++ rd ++ v.extractLsb 4 4 ++ v.extractLsb 6 6 ++ v.extractLsb 8 7 ++
      v.extractLsb 5 5 ++ q = w) :
    immAddi16sp w = v := by
  subst hw
  rw [immAddi16sp, zeros_of_scaledBy hv]
  simp (disch := decide) only [BitVec.extractLsb, slice_low, slice_high, slice_self, join_slices]

/-- CJ (R91). -/
theorem offsetCJ_encodeCJ {v : BitVec 12} (hv : scaledBy 1 v = true) (hw : f ++ encodeCJ v ++ q = w) :
    offsetCJ w = v := by
  subst hw
  rw [offsetCJ, zeros_of_scaledBy hv]
  simp (disch := decide) only [encodeCJ, BitVec.extractLsb, slice_low, slice_high, slice_self, join_slices]

/-- CB branches (R92). -/
theorem fields_CB {rs1 : RegP} {v : BitVec 9} (hv : scaledBy 1 v = true)
    (hw : f ++ v.extractLsb 8 8 ++ v.extractLsb 4 3 ++ rs1 ++ v.extractLsb 7 6 ++ v.extractLsb 2 1 ++
      v.extractLsb 5 5 ++ q = w) :
    fieldP97 w = rs1 ∧ offsetCB w = v := by
  constructor <;> subst hw
  · simp (disch := decide) only [fieldP97, BitVec.extractLsb, slice_low, slice_high, slice_self]
  · rw [offsetCB, zeros_of_scaledBy hv]
    simp (disch := decide) only [BitVec.extractLsb, slice_low, slice_high, slice_self, join_slices]

/-- CB shifts and `c.andi`: the fields beside the immediate. -/
theorem fields_CB_shift {x : BitVec 6} {rd : RegP} {lo : BitVec 5} (hw : x ++ rd ++ lo ++ q = w) :
    fieldP97 w = rd ∧ w.extractLsb 6 2 = lo := by
  refine ⟨?_, fieldRs2_append hw⟩
  subst hw
  simp (disch := decide) only [fieldP97, BitVec.extractLsb, slice_low, slice_high, slice_self]

/-- `inst[10]`, which tells the two right shifts apart. -/
theorem bit10_append {x : BitVec 5} {b : BitVec 1} {rd : RegP} {lo : BitVec 5} (hw : x ++ b ++ rd ++ lo ++ q = w) :
    w.extractLsb 10 10 = b := by
  subst hw
  simp (disch := decide) only [BitVec.extractLsb, slice_low, slice_high, slice_self]

/-- CB with the immediate of R89. -/
theorem imm6_CB {g : BitVec 2} {rd : RegP} {v : BitVec 6}
    (hw : f ++ v.extractLsb 5 5 ++ g ++ rd ++ v.extractLsb 4 0 ++ q = w) : imm6 w = v := by
  subst hw
  simp (disch := decide) only [imm6, BitVec.extractLsb, slice_low, slice_high, slice_self, join_slices]

/-- CA. -/
theorem fields_CA {x : BitVec 6} {rd rs2 : RegP} {g : BitVec 2} (hw : x ++ rd ++ g ++ rs2 ++ q = w) :
    fieldP97 w = rd ∧ fieldP42 w = rs2 := by
  refine ⟨?_, fieldP42_append hw⟩
  subst hw
  simp (disch := decide) only [fieldP97, BitVec.extractLsb, slice_low, slice_high, slice_self]

/-- The reserved row of the CA format (R171). -/
theorem fields_CA_reserved {x : BitVec 6} {hi lo : BitVec 3} {a b : BitVec 1} (hw : x ++ hi ++ a ++ b ++ lo ++ q = w) :
    w.extractLsb 9 7 = hi ∧ w.extractLsb 5 5 = b ∧ w.extractLsb 4 2 = lo := by
  refine ⟨?_, ?_, fieldP42_append hw⟩ <;> subst hw <;>
    simp (disch := decide) only [BitVec.extractLsb, slice_low, slice_high, slice_self]

/-- CI loads of 4 bytes (R93). -/
theorem fields_CI4 {rd : Reg} {v : BitVec 8} (hv : scaledBy 2 v = true)
    (hw : f ++ v.extractLsb 5 5 ++ rd ++ v.extractLsb 4 2 ++ v.extractLsb 7 6 ++ q = w) :
    fieldRd w = rd ∧ uimmCI4 w = v := by
  constructor <;> subst hw
  · simp (disch := decide) only [fieldRd, BitVec.extractLsb, slice_low, slice_high, slice_self]
  · rw [uimmCI4, zeros_of_scaledBy hv]
    simp (disch := decide) only [BitVec.extractLsb, slice_low, slice_high, slice_self, join_slices]

/-- CI loads of 8 bytes (R93). -/
theorem fields_CI8 {rd : Reg} {v : BitVec 9} (hv : scaledBy 3 v = true)
    (hw : f ++ v.extractLsb 5 5 ++ rd ++ v.extractLsb 4 3 ++ v.extractLsb 8 6 ++ q = w) :
    fieldRd w = rd ∧ uimmCI8 w = v := by
  constructor <;> subst hw
  · simp (disch := decide) only [fieldRd, BitVec.extractLsb, slice_low, slice_high, slice_self]
  · rw [uimmCI8, zeros_of_scaledBy hv]
    simp (disch := decide) only [BitVec.extractLsb, slice_low, slice_high, slice_self, join_slices]

/-- CSS stores of 4 bytes (R93). -/
theorem fields_CSS4 {rs2 : Reg} {v : BitVec 8} (hv : scaledBy 2 v = true)
    (hw : f ++ v.extractLsb 5 2 ++ v.extractLsb 7 6 ++ rs2 ++ q = w) :
    fieldRs2 w = rs2 ∧ uimmCSS4 w = v := by
  refine ⟨fieldRs2_append hw, ?_⟩
  subst hw
  rw [uimmCSS4, zeros_of_scaledBy hv]
  simp (disch := decide) only [BitVec.extractLsb, slice_low, slice_high, slice_self, join_slices]

/-- CSS stores of 8 bytes (R93). -/
theorem fields_CSS8 {rs2 : Reg} {v : BitVec 9} (hv : scaledBy 3 v = true)
    (hw : f ++ v.extractLsb 5 3 ++ v.extractLsb 8 6 ++ rs2 ++ q = w) :
    fieldRs2 w = rs2 ∧ uimmCSS8 w = v := by
  refine ⟨fieldRs2_append hw, ?_⟩
  subst hw
  rw [uimmCSS8, zeros_of_scaledBy hv]
  simp (disch := decide) only [BitVec.extractLsb, slice_low, slice_high, slice_self, join_slices]

/-- The eleven bits of quadrant 0 with funct3 100. -/
theorem rest_Q0 {x : BitVec 11} (hw : f ++ x ++ q = w) : w.extractLsb 12 2 = x := by
  subst hw
  simp (disch := decide) only [BitVec.extractLsb, slice_low, slice_high, slice_self]

/-- The fourteen bits of quadrant 3. -/
theorem rest_Q3 {x : BitVec 14} (hw : x ++ q = w) : w.extractLsb 15 2 = x := by
  subst hw
  exact (slice_high x q (by decide)).trans (slice_self x rfl)

end

/-! ## Fields made of fields -/

theorem bits11_split (w : Parcel) : w.extractLsb 11 10 = w.extractLsb 11 11 ++ w.extractLsb 10 10 :=
  (join_slices w rfl).symm

theorem bits6_split (w : Parcel) : w.extractLsb 6 5 = w.extractLsb 6 6 ++ w.extractLsb 5 5 :=
  (join_slices w rfl).symm

/-- The immediate of R89 is 0 exactly when its bits of the parcel are. -/
theorem imm6_eq_zero_iff (w : Parcel) : imm6 w = 0#6 ↔ w &&& 0x107c#16 = 0#16 := by
  rw [imm6_iff, parcel_eq_iff]
  simp

theorem immLui_eq_zero_of_imm6 {w : Parcel} (h : imm6 w = 0#6) : immLui w = 0#18 := by
  rw [immLui, h]
  rfl

theorem immAddi16sp_eq_zero_of_imm6 {w : Parcel} (h : imm6 w = 0#6) : immAddi16sp w = 0#10 := by
  simp [immAddi16sp, field_of_match ((imm6_eq_zero_iff w).1 h)]

/-- The fixed bits of the first row make the immediate of R86 zero. -/
theorem nzuimmCIW_of_match {w : Parcel} (h : w &&& 0xffe3#16 = 0#16) : nzuimmCIW w = 0#10 := by
  simp [nzuimmCIW, field_of_match h]

/-- Fixed bits that cover the immediate of R89 give it. -/
theorem imm6_of_match {w m p : Parcel} (h : w &&& m = p) (hhi : m.extractLsb 12 12 = BitVec.allOnes _)
    (hlo : m.extractLsb 6 2 = BitVec.allOnes _) : imm6 w = p.extractLsb 12 12 ++ p.extractLsb 6 2 := by
  rw [imm6, field_of_match h hhi, field_of_match h hlo]

end Sys2Proof.Machine
end

section
/-! SUPPORT. The decoder inverts the encoder, and answers the first row of the opcode table that matches. -/

namespace Sys2Proof.Machine

open Sys2Proof.Laws

/-! ## The fixed bits of the rows (R85) -/

open CarriesTableBits in
/-- Every encoding carries the fixed bits of its row. -/
theorem encode_carriesTableBits : ∀ i : Instr, CarriesTableBits.Statement i
  | .illegalCAddi4spnNzuimm0 _ => illegalCAddi4spnNzuimm0 _
  | .cAddi4spn _ _ => cAddi4spn _ _
  | .cFld _ _ _ => cFld _ _ _
  | .cLw _ _ _ => cLw _ _ _
  | .cFlw _ _ _ => cFlw _ _ _
  | .illegalQ0Funct3x100 _ => illegalQ0Funct3x100 _
  | .cFsd _ _ _ => cFsd _ _ _
  | .cSw _ _ _ => cSw _ _ _
  | .cFsw _ _ _ => cFsw _ _ _
  | .cNop => cNop
  | .hintCNopImmNonzero _ => hintCNopImmNonzero _
  | .hintCAddiImm0 _ => hintCAddiImm0 _
  | .cAddi _ _ => cAddi _ _
  | .cJal _ => cJal _
  | .hintCLiRd0 _ => hintCLiRd0 _
  | .cLi _ _ => cLi _ _
  | .illegalCAddi16spImm0 => illegalCAddi16spImm0
  | .cAddi16sp _ => cAddi16sp _
  | .illegalCLuiImm0 _ => illegalCLuiImm0 _
  | .hintCLuiRd0 _ => hintCLuiRd0 _
  | .cLui _ _ => cLui _ _
  | .illegalCSrliCSraiShamt5 _ _ _ => illegalCSrliCSraiShamt5 _ _ _
  | .cSrli _ _ => cSrli _ _
  | .cSrai _ _ => cSrai _ _
  | .cAndi _ _ => cAndi _ _
  | .cSub _ _ => cSub _ _
  | .cXor _ _ => cXor _ _
  | .cOr _ _ => cOr _ _
  | .cAnd _ _ => cAnd _ _
  | .illegalCSubw _ _ => illegalCSubw _ _
  | .illegalCAddw _ _ => illegalCAddw _ _
  | .illegalQ1Reserved _ _ _ => illegalQ1Reserved _ _ _
  | .cJ _ => cJ _
  | .cBeqz _ _ => cBeqz _ _
  | .cBnez _ _ => cBnez _ _
  | .illegalCSlliShamt5 _ _ => illegalCSlliShamt5 _ _
  | .hintCSlliRd0 _ => hintCSlliRd0 _
  | .cSlli _ _ => cSlli _ _
  | .cFldsp _ _ => cFldsp _ _
  | .illegalCLwspRd0 _ => illegalCLwspRd0 _
  | .cLwsp _ _ => cLwsp _ _
  | .cFlwsp _ _ => cFlwsp _ _
  | .illegalCJrRs1x0 => illegalCJrRs1x0
  | .cJr _ => cJr _
  | .hintCMvRd0 _ => hintCMvRd0 _
  | .cMv _ _ => cMv _ _
  | .cEbreak => cEbreak
  | .cJalr _ => cJalr _
  | .hintCAddRd0 _ => hintCAddRd0 _
  | .cAdd _ _ => cAdd _ _
  | .cFsdsp _ _ => cFsdsp _ _
  | .cSwsp _ _ => cSwsp _ _
  | .cFswsp _ _ => cFswsp _ _
  | .refusedQ3 _ => refusedQ3 _
  | .cLd _ _ _ => cLd _ _ _
  | .cSd _ _ _ => cSd _ _ _
  | .cAddiw _ _ => cAddiw _ _
  | .cSubw _ _ => cSubw _ _
  | .cAddw _ _ => cAddw _ _
  | .cLdsp _ _ => cLdsp _ _
  | .cSdsp _ _ => cSdsp _ _

/-- A parcel that encodes a well-formed instruction decodes to it: the decoder's tests see the fixed bits of the row and
the conditions on its operands, its fields see the operands (R82, R85). -/
theorem decodeParcel_of_encode {i : Instr} {w : Parcel} (hw : WellFormed i) (e : encode i = w) :
    decodeParcel w = i := by
  have m {r : TableRow} (hr : opcodeTable[tableRow i]? = some r) : w &&& r.mask = r.pattern :=
    e ▸ encode_carriesTableBits i r hr
  cases i <;>
    simp only [WellFormed, wellFormed, Bool.and_eq_true, bne_iff_ne, ne_eq, BitVec.ofNat_eq_ofNat,
      Bool.false_eq_true] at hw
  -- quadrant 0
  case illegalCAddi4spnNzuimm0 =>
    simp [decodeParcel, decodeQuadrant0, nzuimmCIW, field_of_match (m rfl), fieldP42_append e]
  case cAddi4spn =>
    simp [decodeParcel, decodeQuadrant0, field_of_match (m rfl), fields_CIW hw.1 e, hw]
  case illegalQ0Funct3x100 => simp [decodeParcel, decodeQuadrant0, field_of_match (m rfl), rest_Q0 e]
  case cLw | cFlw | cSw | cFsw => simp [decodeParcel, decodeQuadrant0, field_of_match (m rfl), fields_CL4 hw e]
  case cFld | cFsd => simp [decodeParcel, decodeQuadrant0, field_of_match (m rfl), fields_CL8 hw e]
  -- quadrant 1
  case cNop | hintCAddiImm0 | illegalCLuiImm0 =>
    simp [decodeParcel, decodeQuadrant1, field_of_match (m rfl), fields_CI e, *]
  case hintCNopImmNonzero | cAddi | hintCLiRd0 | cLi =>
    obtain ⟨hrd, -⟩ := fields_CI e
    simp [decodeParcel, decodeQuadrant1, field_of_match (m rfl), hrd, imm6_CI e, hw]
  case hintCLuiRd0 | cLui =>
    obtain ⟨hrd, -⟩ := fields_CI e
    have hv := immLui_CI (by simp [hw]) e
    have h6 : imm6 w ≠ 0#6 := fun h => hw.2 (hv.symm.trans (immLui_eq_zero_of_imm6 h))
    simp [decodeParcel, decodeQuadrant1, field_of_match (m rfl), hrd, hv, h6, hw]
  case illegalCAddi16spImm0 => simp [decodeParcel, decodeQuadrant1, fieldRd, imm6, field_of_match (m rfl)]
  case cAddi16sp =>
    have hv := immAddi16sp_CI hw.1 e
    have h6 : imm6 w ≠ 0#6 := fun h => hw.2 (hv.symm.trans (immAddi16sp_eq_zero_of_imm6 h))
    simp [decodeParcel, decodeQuadrant1, fieldRd, field_of_match (m rfl), hv, h6]
  case cJal | cJ => simp [decodeParcel, decodeQuadrant1, field_of_match (m rfl), offsetCJ_encodeCJ hw e]
  case cBeqz | cBnez => simp [decodeParcel, decodeQuadrant1, field_of_match (m rfl), fields_CB hw e]
  case cSrli | cSrai =>
    simp [decodeParcel, decodeQuadrant1, decodeQuadrant1Arith, field_of_match (m rfl), fields_CB_shift e]
  case illegalCSrliCSraiShamt5 arith _ _ =>
    obtain rfl | rfl := one_bit_cases arith <;>
      simp [decodeParcel, decodeQuadrant1, decodeQuadrant1Arith, bits11_split, field_of_match (m rfl), bit10_append e,
        fields_CB_shift e]
  case cAndi =>
    obtain ⟨hrd, -⟩ := fields_CB_shift e
    simp [decodeParcel, decodeQuadrant1, decodeQuadrant1Arith, field_of_match (m rfl), hrd, imm6_CB e]
  case cSub | cXor | cOr | cAnd | illegalCSubw | illegalCAddw =>
    simp [decodeParcel, decodeQuadrant1, decodeQuadrant1Arith, field_of_match (m rfl), fields_CA e]
  case illegalQ1Reserved _ bit5 _ =>
    obtain rfl | rfl := one_bit_cases bit5 <;>
      simp [decodeParcel, decodeQuadrant1, decodeQuadrant1Arith, bits6_split, field_of_match (m rfl),
        fields_CA_reserved e]
  -- quadrant 2
  case illegalCSlliShamt5 | hintCSlliRd0 | cSlli =>
    obtain ⟨hrd, hlo, -⟩ := fields_CI e
    rw [fieldRs2] at hlo
    simp [decodeParcel, decodeQuadrant2, field_of_match (m rfl), *]
  case cFldsp => simp [decodeParcel, decodeQuadrant2, field_of_match (m rfl), fields_CI8 hw e]
  case cFlwsp | illegalCLwspRd0 => simp [decodeParcel, decodeQuadrant2, field_of_match (m rfl), fields_CI4 hw e]
  case cLwsp => simp [decodeParcel, decodeQuadrant2, field_of_match (m rfl), fields_CI4 hw.2 e, hw]
  case illegalCJrRs1x0 | cJr | hintCMvRd0 | cMv | cEbreak | cJalr | hintCAddRd0 | cAdd =>
    simp [decodeParcel, decodeQuadrant2, decodeQuadrant2Jump, field_of_match (m rfl), fields_CI e, *]
  case cFsdsp => simp [decodeParcel, decodeQuadrant2, field_of_match (m rfl), fields_CSS8 hw e]
  case cSwsp | cFswsp => simp [decodeParcel, decodeQuadrant2, field_of_match (m rfl), fields_CSS4 hw e]
  -- quadrant 3
  case refusedQ3 => simp [decodeParcel, field_of_match (m rfl), rest_Q3 e]

/-! ## The first row that matches (R85) -/

/-- The decoder answers no row after one that matches: the fixed bits of a row settle each test of the decoder down to
that row or to one of the rows before it. -/
theorem tableRow_le_of_match {w : Parcel} {k : Nat} {r : TableRow} (hk : k < decodingRows)
    (hr : opcodeTable[k]? = some r) (h : w &&& r.mask = r.pattern) : tableRow (decodeParcel w) ≤ k := by
  have f {hi lo : Nat} := field_of_match (hi := hi) (lo := lo) h
  -- `f` once more for the two fields the decoder names
  have hrd : _ → fieldRd w = _ := f
  have hrs2 : _ → fieldRs2 w = _ := f
  rw [decodingRows] at hk
  match k, hk with
  -- quadrant 0; the first row fixes the immediate of R86
  | 0, _ =>
    obtain rfl := Option.some.inj hr
    simp [decodeParcel, decodeQuadrant0, f, nzuimmCIW_of_match h, tableRow]
  | 1, _ | 2, _ | 3, _ | 4, _ | 5, _ | 6, _ | 7, _ | 8, _ =>
    obtain rfl := Option.some.inj hr
    simp [decodeParcel, decodeQuadrant0, f]
    repeat' split
    all_goals simp [tableRow]
  -- quadrant 1; row 21, the right shifts with `shamt[5] = 1`, leaves `inst[10]` free
  | 21, _ =>
    obtain rfl := Option.some.inj hr
    obtain h10 | h10 := one_bit_cases (w.extractLsb 10 10) <;>
      simp [decodeParcel, decodeQuadrant1, decodeQuadrant1Arith, bits11_split, f, h10, tableRow]
  | 9, _ | 10, _ | 11, _ | 12, _ | 13, _ | 14, _ | 15, _ | 16, _ | 17, _ | 18, _ | 19, _ | 20, _ | 22, _
  | 23, _ | 24, _ | 25, _ | 26, _ | 27, _ | 28, _ | 29, _ | 30, _ | 31, _ | 32, _ | 33, _ | 34, _ =>
    obtain rfl := Option.some.inj hr
    simp [decodeParcel, decodeQuadrant1, decodeQuadrant1Arith, f, hrd, imm6_of_match h]
    repeat' split
    all_goals simp [tableRow]
  -- quadrant 2
  | 35, _ | 36, _ | 37, _ | 38, _ | 39, _ | 40, _ | 41, _ | 42, _ | 43, _ | 44, _ | 45, _ | 46, _ | 47, _
  | 48, _ | 49, _ | 50, _ | 51, _ | 52, _ =>
    obtain rfl := Option.some.inj hr
    simp [decodeParcel, decodeQuadrant2, decodeQuadrant2Jump, f, hrd, hrs2]
    repeat' split
    all_goals simp [tableRow]
  -- quadrant 3
  | 53, _ =>
    obtain rfl := Option.some.inj hr
    simp [decodeParcel, f, tableRow]
  | k + 54, hk => exact absurd hk (by omega)

/-- The parcel matches the row of what it decodes to. -/
theorem match_tableRow {w : Parcel} {r : TableRow} (hr : opcodeTable[tableRow (decodeParcel w)]? = some r) :
    w &&& r.mask = r.pattern := by
  have h := encode_carriesTableBits (decodeParcel w) r hr
  rwa [encode_decodeParcel] at h

/-- A well-formed instruction stands for one of the rows that decode (R94). -/
theorem tableRow_lt_of_wellFormed {i : Instr} (hw : WellFormed i) : tableRow i < decodingRows := by
  cases i
  case cLd | cSd | cAddiw | cSubw | cAddw | cLdsp | cSdsp => cases hw
  all_goals simp [tableRow, decodingRows]

end Sys2Proof.Machine
end

section
/-! SUPPORT. Which parcels are illegal, refused or without effect, and what an RV64C-only term stands for. -/

namespace Sys2Proof.Laws

open Sys2Proof.Machine

/-! ## Illegal and refused (R96, R98, R100, R81) -/

/-- What is illegal here raises with its parcel as `tval` (R222). -/
theorem raises_of_illegalHere {i : Instr} {s : State} (h : IllegalHere i s) :
    Raises (exec i s) s .illegalInstruction (BitVec.ofNat 32 (encode i).toNat) := by
  rw [exec_of_illegalHere h, BitVec.ofNat_toNat]
  rfl

section
variable {w : Parcel}

theorem needs_single_of_match (h : w &&& 0xE003#16 = 0x6000#16 ∨ w &&& 0xE003#16 = 0xE000#16 ∨
    w &&& 0xE003#16 = 0x6002#16 ∨ w &&& 0xE003#16 = 0xE002#16) : (profile (decodeParcel w)).needs = .single := by
  obtain h | h | h | h := h <;>
    simp [decodeParcel, decodeQuadrant0, decodeQuadrant2, field_of_match h, profile]

theorem needs_double_of_match (h : w &&& 0xE003#16 = 0x2000#16 ∨ w &&& 0xE003#16 = 0xA000#16 ∨
    w &&& 0xE003#16 = 0x2002#16 ∨ w &&& 0xE003#16 = 0xA002#16) : (profile (decodeParcel w)).needs = .double := by
  obtain h | h | h | h := h <;>
    simp [decodeParcel, decodeQuadrant0, decodeQuadrant2, field_of_match h, profile]

end

theorem Checked.ne_refused {o : Result} {s : State} {a : Word} {check : Option Cause} (h : Checked o s a check)
    (q : Refusal) : o ≠ .refused q := by
  cases hc : check with
  | none =>
    obtain ⟨t, rfl⟩ := h.completes hc
    nofun
  | some c => rw [h.stops c hc]; exact raise_ne_refused _ _ _ _

/-- Only quadrant 3 is refused (R81). -/
theorem exec_ne_refused {i : Instr} (hw : WellFormed i) (hr : (profile i).role ≠ .refused) (s : State) (q : Refusal) :
    exec i s ≠ .refused q := by
  by_cases hi : IllegalHere i s
  · rw [exec_of_illegalHere hi]
    exact raise_ne_refused _ _ _ _
  · cases hk : (profile i).access with
    | some k =>
      cases hs : k.store with
      | false => exact (exec_checked_load hi hk hs).ne_refused q
      | true => exact (exec_checked_store hi hk hs).ne_refused q
    | none =>
      cases ho : (profile i).role with
      | runs =>
        obtain ⟨t, ht⟩ := exec_completes (s := s) ho hk
        rw [ht]
        nofun
      | breakpoint =>
        cases i
        case cEbreak => exact raise_ne_refused _ _ _ _
        all_goals cases ho
      | illegal => exact absurd (.inl ho) hi
      | refused => exact absurd ho hr
      | rv64Only =>
        cases i
        case cLd | cSd | cAddiw | cSubw | cAddw | cLdsp | cSdsp => cases hw
        all_goals cases ho

/-- A parcel of another quadrant does not decode to the refused row (R81). -/
theorem role_ne_refused {w : Parcel} (h : w.toNat % 4 ≠ 3) : (profile (decodeParcel w)).role ≠ .refused := by
  intro hr
  have he := encode_decodeParcel w
  cases hi : decodeParcel w <;> rw [hi] at hr he
  case refusedQ3 rest =>
    subst he
    have hq : (encode (.refusedQ3 rest)).extractLsb' 0 2 = 0b11#2 := BitVec.extractLsb'_append_eq_right
    exact h (by simpa [BitVec.extractLsb'_toNat] using congrArg BitVec.toNat hq)
  all_goals cases hr

/-! ## No effect but on `pc` (R97) -/

/-- Writing back what a register holds changes nothing but `pc`. -/
theorem finishX_self (rd : Reg) (s : State) :
    ∃ t, finishX rd (s.readX rd) s = .next t ∧ OnlyPc s t (plus s.pc 2) := by
  refine ⟨_, finishX_eq _ _ _, by simp, fun r => ?_, by simp, fun a => by simp, by simp⟩
  rw [State.advance_readX, State.readX_writeX]
  split
  · simp_all
  · rfl

/-- A parcel whose instruction writes back what it reads has no effect but on `pc`. -/
theorem noOpParcel_of_finishX {i : Instr} {rd : Reg} (hw : WellFormed i)
    (h : ∀ s, exec i s = finishX rd (s.readX rd) s) : NoOpParcel (encode i) := by
  intro s
  rw [decodeParcel_of_encode hw rfl, h]
  exact finishX_self rd s

/-! ## The RV64C-only entries (R94, log 10)

Each immediate of an RV64C-only entry is read again by the RV32C rule for the same bits: the two entries have one
encoding, and so one effect. -/

/-- The bits of an 8-byte CL or CS immediate (R88), read by R87. -/
def rereadCL (v : BitVec 8) : BitVec 7 := v.extractLsb 6 6 ++ v.extractLsb 5 3 ++ v.extractLsb 7 7 ++ 0b00#2

/-- The bits of `c.addiw`, read as a jump offset by R91. -/
def rereadCJ (rd : Reg) (v : BitVec 6) : BitVec 12 :=
  v.extractLsb 5 5 ++ rd.extractLsb 1 1 ++ rd.extractLsb 3 2 ++ v.extractLsb 4 4 ++ rd.extractLsb 0 0 ++
    v.extractLsb 0 0 ++ rd.extractLsb 4 4 ++ v.extractLsb 3 1 ++ 0b0#1

/-- The bits of an 8-byte CI immediate, read as one of a 4-byte load (R93). -/
def rereadCI (v : BitVec 9) : BitVec 8 :=
  v.extractLsb 7 6 ++ v.extractLsb 5 5 ++ v.extractLsb 4 3 ++ v.extractLsb 8 8 ++ 0b00#2

/-- The bits of an 8-byte CSS immediate, read as one of a 4-byte store (R93). -/
def rereadCSS (v : BitVec 9) : BitVec 8 := v.extractLsb 7 6 ++ v.extractLsb 5 3 ++ v.extractLsb 8 8 ++ 0b00#2

theorem scaledBy_rereadCL (v : BitVec 8) : scaledBy 2 (rereadCL v) = true := scaledBy_append_zero _
theorem scaledBy_rereadCJ (rd : Reg) (v : BitVec 6) : scaledBy 1 (rereadCJ rd v) = true := scaledBy_append_zero _
theorem scaledBy_rereadCI (v : BitVec 9) : scaledBy 2 (rereadCI v) = true := scaledBy_append_zero _
theorem scaledBy_rereadCSS (v : BitVec 9) : scaledBy 2 (rereadCSS v) = true := scaledBy_append_zero _

theorem encode_cLd (rd rs1 : RegP) (v : BitVec 8) : encode (.cLd rd rs1 v) = encode (.cFlw rd rs1 (rereadCL v)) := by
  rw [parcel_eq_iff]
  simp only [encode, rereadCL, BitVec.getLsbD_append, BitVec.getLsbD_extractLsb]
  and_intros <;> rfl

theorem encode_cSd (rs2 rs1 : RegP) (v : BitVec 8) : encode (.cSd rs2 rs1 v) = encode (.cFsw rs2 rs1 (rereadCL v)) := by
  rw [parcel_eq_iff]
  simp only [encode, rereadCL, BitVec.getLsbD_append, BitVec.getLsbD_extractLsb]
  and_intros <;> rfl

theorem encode_cAddiw (rd : Reg) (v : BitVec 6) : encode (.cAddiw rd v) = encode (.cJal (rereadCJ rd v)) := by
  rw [parcel_eq_iff]
  simp only [encode, encodeCJ, rereadCJ, BitVec.getLsbD_append, BitVec.getLsbD_extractLsb]
  and_intros <;> rfl

theorem encode_cLdsp (rd : Reg) (v : BitVec 9) : encode (.cLdsp rd v) = encode (.cFlwsp rd (rereadCI v)) := by
  rw [parcel_eq_iff]
  simp only [encode, rereadCI, BitVec.getLsbD_append, BitVec.getLsbD_extractLsb]
  and_intros <;> rfl

theorem encode_cSdsp (rs2 : Reg) (v : BitVec 9) : encode (.cSdsp rs2 v) = encode (.cFswsp rs2 (rereadCSS v)) := by
  rw [parcel_eq_iff]
  simp only [encode, rereadCSS, BitVec.getLsbD_append, BitVec.getLsbD_extractLsb]
  and_intros <;> rfl

theorem exec_cLd (rd rs1 : RegP) (v : BitVec 8) (s : State) :
    exec (.cLd rd rs1 v) s = exec (.cFlw rd rs1 (rereadCL v)) s := by
  obtain ⟨-, -, hv⟩ := fields_CL4 (scaledBy_rereadCL v) (encode_cLd rd rs1 v).symm
  show loadF4 _ _ (regAddr rs1 (uimmCL4 _) s) s = loadF4 _ _ _ s
  rw [hv, encode_cLd]

theorem exec_cSd (rs2 rs1 : RegP) (v : BitVec 8) (s : State) :
    exec (.cSd rs2 rs1 v) s = exec (.cFsw rs2 rs1 (rereadCL v)) s := by
  obtain ⟨-, -, hv⟩ := fields_CL4 (scaledBy_rereadCL v) (encode_cSd rs2 rs1 v).symm
  show storeF4 _ _ (regAddr rs1 (uimmCL4 _) s) s = storeF4 _ _ _ s
  rw [hv, encode_cSd]

theorem exec_cAddiw (rd : Reg) (v : BitVec 6) (s : State) :
    exec (.cAddiw rd v) s = exec (.cJal (rereadCJ rd v)) s := by
  show jumpAndLink (relTarget (offsetCJ _) s) s = jumpAndLink _ s
  rw [offsetCJ_encodeCJ (scaledBy_rereadCJ rd v) (encode_cAddiw rd v).symm]

theorem exec_cLdsp (rd : Reg) (v : BitVec 9) (s : State) :
    exec (.cLdsp rd v) s = exec (.cFlwsp rd (rereadCI v)) s := by
  obtain ⟨-, hv⟩ := fields_CI4 (scaledBy_rereadCI v) (encode_cLdsp rd v).symm
  show loadF4 _ _ (spAddr (uimmCI4 _) s) s = loadF4 _ _ _ s
  rw [hv, encode_cLdsp]

theorem exec_cSdsp (rs2 : Reg) (v : BitVec 9) (s : State) :
    exec (.cSdsp rs2 v) s = exec (.cFswsp rs2 (rereadCSS v)) s := by
  obtain ⟨-, hv⟩ := fields_CSS4 (scaledBy_rereadCSS v) (encode_cSdsp rs2 v).symm
  show storeF4 _ _ (spAddr (uimmCSS4 _) s) s = storeF4 _ _ _ s
  rw [hv, encode_cSdsp]

/-! ## Accesses that complete -/

section
variable {w : Parcel} {r : Reg} {s : State} {a : Word}

/-- A permitted 4-byte floating-point load writes the word at its address (R133, R193). -/
theorem loadF4_completes (hf : s.hasF = true) (hal : a.toNat % 4 = 0) (hr : Readable s a 4) :
    ∃ t, loadF4 w r a s = .next t ∧ OnlyF s t r (plus s.pc 2) ∧
      t.readF32 r = some (BitVec.ofNat 32 (bytesValue s a 4)) := by
  refine ⟨(s.writeF32 r (s.wordAt a)).advance, ?_, writeF32_advance_onlyF s r _, ?_⟩
  · rw [loadF4_eq, if_neg (by simp [hf]), loadCheck_ok hal hr]
  · rw [State.advance_readF32, State.readF32_writeF32 _ _ _ _ hf, if_pos rfl, wordAt_eq]

/-- A permitted 4-byte floating-point store writes what its register reads as (R137, R202). -/
theorem storeF4_completes (hf : s.hasF = true) (hal : a.toNat % 4 = 0) (hw : Writable s a 4) :
    ∃ (t : State) (v : Word), s.readF32 r = some v ∧ storeF4 w r a s = .next t ∧
      OnlyStored s t a 4 v.toNat (plus s.pc 2) := by
  cases hv : s.readF32 r with
  | none => rw [(State.readF32_eq_none s r).1 hv] at hf; cases hf
  | some v =>
    refine ⟨_, v, rfl, ?_, storeBytes4_onlyStored s a v⟩
    rw [storeF4_of_read hv, store4_eq, storeCheck_ok hal hw]

end

/-- A permitted `c.flw` completes (R133). -/
theorem exec_cFlw_completes {rd rs1 : RegP} {off : BitVec 7} {s : State} {a : Word}
    (ha : a = plus (s.readX (primed rs1)) off.toNat) (hf : s.hasF = true) (hal : a.toNat % 4 = 0)
    (hr : Readable s a 4) :
    ∃ t, exec (.cFlw rd rs1 off) s = .next t ∧ OnlyF s t (primed rd) (plus s.pc 2) ∧
      t.readF32 (primed rd) = some (BitVec.ofNat 32 (bytesValue s a 4)) := by
  rw [regAddr_eq] at ha
  subst ha
  rw [primed_eq]
  exact loadF4_completes hf hal hr

/-- A permitted `c.fsw` completes (R137). -/
theorem exec_cFsw_completes {rs2 rs1 : RegP} {off : BitVec 7} {s : State} {a : Word}
    (ha : a = plus (s.readX (primed rs1)) off.toNat) (hf : s.hasF = true) (hal : a.toNat % 4 = 0)
    (hw : Writable s a 4) :
    ∃ (t : State) (v : Word), s.readF32 (primed rs2) = some v ∧ exec (.cFsw rs2 rs1 off) s = .next t ∧
      OnlyStored s t a 4 v.toNat (plus s.pc 2) := by
  rw [regAddr_eq] at ha
  subst ha
  rw [primed_eq]
  exact storeF4_completes hf hal hw

/-- A permitted `c.flwsp` completes (R193). -/
theorem exec_cFlwsp_completes {rd : Reg} {off : BitVec 8} {s : State} {a : Word}
    (ha : a = plus (s.readX 2#5) off.toNat) (hf : s.hasF = true) (hal : a.toNat % 4 = 0)
    (hr : Readable s a 4) :
    ∃ t, exec (.cFlwsp rd off) s = .next t ∧ OnlyF s t rd (plus s.pc 2) ∧
      t.readF32 rd = some (BitVec.ofNat 32 (bytesValue s a 4)) := by
  rw [spAddr_eq] at ha
  subst ha
  exact loadF4_completes hf hal hr

/-- A permitted `c.fswsp` completes (R202). -/
theorem exec_cFswsp_completes {rs2 : Reg} {off : BitVec 8} {s : State} {a : Word}
    (ha : a = plus (s.readX 2#5) off.toNat) (hf : s.hasF = true) (hal : a.toNat % 4 = 0)
    (hw : Writable s a 4) :
    ∃ (t : State) (v : Word), s.readF32 rs2 = some v ∧ exec (.cFswsp rs2 off) s = .next t ∧
      OnlyStored s t a 4 v.toNat (plus s.pc 2) := by
  rw [spAddr_eq] at ha
  subst ha
  exact storeF4_completes hf hal hw

/-- `c.jal` links and jumps (R152). -/
theorem exec_cJal_onlyX (offset : BitVec 12) (s : State) :
    ∃ t, exec (.cJal offset) s = .next t ∧ OnlyX s t 1#5 (plus s.pc 2) (pcPlus s offset.toInt) := by
  refine ⟨_, jumpAndLink_eq _ s, ?_⟩
  rw [plus_two, pcPlus_eq]
  exact writeX_setPc_onlyX _ _ _ _

end Sys2Proof.Laws
end

section
/-! The statements about encoding, settled. -/

namespace Sys2Proof.Proofs

open Sys2Proof.Machine Sys2Proof.Laws

/-- Settles O1, for the word and for its two bytes. -/
theorem decodeEncode : Obligations.DecodeEncode := by
  intro i hw
  have h := decodeParcel_of_encode hw rfl
  have hb : parcelOfBytes ((encode i).extractLsb 7 0) ((encode i).extractLsb 15 8) = encode i :=
    (join_slices (encode i) rfl).trans BitVec.extractLsb'_eq_self
  refine ⟨h, ?_⟩
  rw [encodeBytes, decode, hb, h]

/-- Settles O2, along the decoder's own conditions. -/
theorem encodeDecode : Obligations.EncodeDecode := encode_decodeParcel

/-- Settles O3: an RV64C-only entry is not well-formed. -/
theorem everyParcelDecodesWellFormed : Obligations.EveryParcelDecodesWellFormed :=
  fun w => ⟨wellFormed_decodeParcel w, tableRow_lt_of_wellFormed (wellFormed_decodeParcel w)⟩

/-- Settles O4: the parcel matches the row of what it decodes to, and the decoder answers no row after one that
matches. -/
theorem firstMatchingRow : Obligations.FirstMatchingRow := by
  intro w
  have hlt := tableRow_lt_of_wellFormed (wellFormed_decodeParcel w)
  have hlen : (opcodeTable.take decodingRows).length = decodingRows := rfl
  rw [List.findIdx?_eq_some_iff_getElem]
  refine ⟨Nat.lt_of_lt_of_eq hlt hlen.symm, ?_, fun j hj hm => ?_⟩
  · rw [beq_iff_eq, List.getElem_take]
    exact match_tableRow (List.getElem?_eq_getElem _)
  · rw [beq_iff_eq, List.getElem_take] at hm
    exact absurd (tableRow_le_of_match (Nat.lt_trans hj hlt) (List.getElem?_eq_getElem _) hm) (Nat.not_le_of_lt hj)

/-- Settles O57: the eight patterns need the file that is absent. -/
theorem floatEntriesWithoutRegisters : Obligations.FloatEntriesWithoutRegisters := by
  intro s w
  have raises (hn : (profile (decodeParcel w)).needs.met s = false) :
      Raises (exec (decodeParcel w) s) s .illegalInstruction (BitVec.ofNat 32 w.toNat) := by
    have h := raises_of_illegalHere (.inr hn)
    rwa [encode_decodeParcel] at h
  refine ⟨fun hf h => raises ?_, fun hd h => raises ?_⟩
  · rwa [needs_single_of_match h]
  · rwa [needs_double_of_match h]

/-- Settles O58: the reserved rows are well-formed, and illegal by their role. -/
theorem reservedParcelsAreIllegal : Obligations.ReservedParcelsAreIllegal := by
  have decodes {i : Instr} (hw : WellFormed i) : decodeParcel (encode i) = i := decodeParcel_of_encode hw rfl
  have raises {i : Instr} (hi : (profile i).role = .illegal) (s : State) := raises_of_illegalHere (s := s) (.inl hi)
  refine ⟨rfl, decodes (i := .illegalCAddi4spnNzuimm0 0) rfl, ?_⟩
  exact ⟨fun rd => decodes (i := .illegalCAddi4spnNzuimm0 rd) rfl, fun _ => raises rfl,
    fun rest => decodes (i := .illegalQ0Funct3x100 rest) rfl, fun _ => raises rfl,
    decodes (i := .illegalCAddi16spImm0) rfl, raises rfl,
    fun rd h => decodes (i := .illegalCLuiImm0 rd) (bne_iff_ne.2 h), fun _ => raises rfl,
    fun rd rs2 => decodes (i := .illegalCSubw rd rs2) rfl, fun _ _ => raises rfl,
    fun rd rs2 => decodes (i := .illegalCAddw rd rs2) rfl, fun _ _ => raises rfl,
    fun hi b lo => decodes (i := .illegalQ1Reserved hi b lo) rfl, fun _ _ _ => raises rfl,
    fun uimm h => decodes (i := .illegalCLwspRd0 uimm) (beq_iff_eq.2 h), fun _ => raises rfl,
    decodes (i := .illegalCJrRs1x0) rfl, raises rfl,
    fun rd low => decodes (i := .illegalCSlliShamt5 rd low) rfl, fun _ _ => raises rfl,
    fun arith rd low => decodes (i := .illegalCSrliCSraiShamt5 arith rd low) rfl, fun _ _ _ => raises rfl⟩

/-- Settles O32: the HINT rows advance by definition; a shift by 0 writes back what it read. -/
theorem nopAndHintsOnlyAdvance : Obligations.NopAndHintsOnlyAdvance := by
  have decodes {i : Instr} (hw : WellFormed i) : decodeParcel (encode i) = i := decodeParcel_of_encode hw rfl
  have advances (s : State) : ∃ t, (.next s.advance : Result) = .next t ∧ OnlyPc s t (plus s.pc 2) :=
    ⟨_, rfl, advance_onlyPc s⟩
  exact ⟨decodes (i := .cNop) rfl, advances,
    fun imm h => decodes (i := .hintCNopImmNonzero imm) (bne_iff_ne.2 h), fun _ => advances,
    fun rd h => decodes (i := .hintCAddiImm0 rd) (bne_iff_ne.2 h), fun _ => advances,
    fun imm => decodes (i := .hintCLiRd0 imm) rfl, fun _ => advances,
    fun imm hs h => decodes (i := .hintCLuiRd0 imm) (Bool.and_eq_true_iff.2 ⟨beq_iff_eq.2 hs, bne_iff_ne.2 h⟩),
    fun _ => advances,
    fun shamt => decodes (i := .hintCSlliRd0 shamt) rfl, fun _ => advances,
    fun rs2 h => decodes (i := .hintCMvRd0 rs2) (bne_iff_ne.2 h), fun _ => advances,
    fun rs2 h => decodes (i := .hintCAddRd0 rs2) (bne_iff_ne.2 h), fun _ => advances,
    fun rd h => noOpParcel_of_finishX (i := .cSlli rd 0) (bne_iff_ne.2 h) fun s =>
      congrArg (finishX rd · s) (BitVec.shiftLeft_zero _),
    fun rd => noOpParcel_of_finishX (i := .cSrli rd 0) rfl fun s =>
      congrArg (finishX (regP rd) · s) (BitVec.ushiftRight_zero _),
    fun rd => noOpParcel_of_finishX (i := .cSrai rd 0) rfl fun s =>
      congrArg (finishX (regP rd) · s) (BitVec.sshiftRight_zero)⟩

/-- Settles O59: only the refused row is refused, and only quadrant 3 decodes to it. -/
theorem quadrantThreeIsRefused : Obligations.QuadrantThreeIsRefused :=
  ⟨fun rest => decodeParcel_of_encode (i := .refusedQ3 rest) rfl rfl, fun _ _ => rfl,
    fun w s q h => exec_ne_refused (wellFormed_decodeParcel w) (role_ne_refused h) s q⟩

/-- Settles O60: the bits of an RV64C-only entry are those of the RV32C entry with the immediate read again. -/
theorem rvSixtyFourEntriesMeanTheirBits : Obligations.RvSixtyFourEntriesMeanTheirBits := by
  refine ⟨fun rd rs1 v s => ⟨exec_cLd rd rs1 v s, exec_cSd rd rs1 v s⟩, exec_cAddiw,
    fun rd v s => ⟨exec_cLdsp rd v s, exec_cSdsp rd v s⟩, fun rd rs1 v => ⟨?_, ?_⟩, fun rd v => ?_,
    fun rd v => ⟨?_, ?_⟩, fun rd rs2 => ⟨?_, ?_⟩, ?_, ?_, ?_, ?_, ?_, ?_⟩
  -- the bits decode to the RV32C entry
  · exact decodeParcel_of_encode (scaledBy_rereadCL v) (encode_cLd rd rs1 v).symm
  · exact decodeParcel_of_encode (scaledBy_rereadCL v) (encode_cSd rd rs1 v).symm
  · exact decodeParcel_of_encode (scaledBy_rereadCJ rd v) (encode_cAddiw rd v).symm
  · exact decodeParcel_of_encode (scaledBy_rereadCI v) (encode_cLdsp rd v).symm
  · exact decodeParcel_of_encode (scaledBy_rereadCSS v) (encode_cSdsp rd v).symm
  · exact decodeParcel_of_encode (i := .illegalCSubw rd rs2) rfl rfl
  · exact decodeParcel_of_encode (i := .illegalCAddw rd rs2) rfl rfl
  -- the effects written out
  · rintro rd rs1 v off s a rfl ha hf hal hr
    rw [exec_cLd]
    exact exec_cFlw_completes ha hf hal hr
  · rintro rd v off s a rfl ha hf hal hr
    rw [exec_cLdsp]
    exact exec_cFlwsp_completes ha hf hal hr
  · rintro rs2 rs1 v off s a rfl ha hf hal hw
    rw [exec_cSd]
    exact exec_cFsw_completes ha hf hal hw
  · rintro rs2 v off s a rfl ha hf hal hw
    rw [exec_cSdsp]
    exact exec_cFswsp_completes ha hf hal hw
  · rintro rd v off s rfl
    rw [exec_cAddiw]
    exact exec_cJal_onlyX _ s
  · exact fun rd rs2 s => ⟨raises_of_illegalHere (i := .illegalCSubw rd rs2) (.inl rfl),
      raises_of_illegalHere (i := .illegalCAddw rd rs2) (.inl rfl)⟩

end Sys2Proof.Proofs
end

section
/-! SUPPORT. What the loads and stores of quadrant 0 and their stack-pointer forms do when they complete, and when they
stop; and the parcels of a reserved row. -/

namespace Sys2Proof.Laws

open Sys2Proof.Machine

/-! ## Stops -/

section
variable {i : Instr} {s : State} {k : Access} {a : Word}

/-- A load with the registers it needs stops in the order of R52, and completes otherwise. -/
theorem exec_loadStops (hk : (profile i).access = some k) (hs : k.store = false)
    (hn : (profile i).needs.met s = true) (ha : a = k.address s) :
    LoadStops (exec i s) s a k.size ∧ (a.toNat % k.size = 0 → Readable s a k.size → ∃ t, exec i s = .next t) := by
  subst ha
  exact (exec_checked_load (not_illegalHere_of_access hk hn) hk hs).loadStops

/-- A store with the registers it needs stops in the order of R53, and completes otherwise. -/
theorem exec_storeStops (hk : (profile i).access = some k) (hs : k.store = true)
    (hn : (profile i).needs.met s = true) (ha : a = k.address s) :
    StoreStops (exec i s) s a k.size ∧ (a.toNat % k.size = 0 → Writable s a k.size → ∃ t, exec i s = .next t) := by
  subst ha
  exact (exec_checked_store (not_illegalHere_of_access hk hn) hk hs).storeStops

end

/-- A parcel that encodes a reserved row is illegal in every state (R96). -/
theorem illegalParcel_of_role {i : Instr} (hw : WellFormed i) (hi : (profile i).role = .illegal) :
    IllegalParcel (encode i) := by
  intro s
  rw [decodeParcel_of_encode hw rfl]
  exact raises_of_illegalHere (.inl hi)

/-! ## The shared operations, when they complete -/

section
variable {w : Parcel} {r : Reg} {s t : State} {a : Word}

/-- A permitted load into an integer register writes the word at its address (R132, R192). -/
theorem loadX_completes (hal : a.toNat % 4 = 0) (hr : Readable s a 4) :
    ∃ t, loadX r a s = .next t ∧ OnlyX s t r (BitVec.ofNat 32 (bytesValue s a 4)) (plus s.pc 2) := by
  refine ⟨_, ?_, writeX_advance_onlyX s r _⟩
  rw [loadX_eq, loadCheck_ok hal hr, wordAt_eq]

/-- Into a 64-bit register the word of a 4-byte load goes NaN-boxed (R32, R133). -/
theorem readF64_of_loadF4 (h : loadF4 w r a s = .next t) (hd : s.hasD = true) :
    t.readF64 r = some (nanBox (BitVec.ofNat 32 (bytesValue s a 4))) := by
  obtain ⟨-, -, rfl⟩ := loadF4_next h
  rw [State.advance_readF64, State.readF64_writeF32 _ _ _ _ hd, if_pos rfl, wordAt_eq]

/-- A permitted 8-byte floating-point load writes the 8 bytes at its address unchanged (R131, R191). -/
theorem loadF8_completes (hd : s.hasD = true) (hal : a.toNat % 8 = 0) (hr : Readable s a 8) :
    ∃ t, loadF8 w r a s = .next t ∧ OnlyF s t r (plus s.pc 2) ∧
      t.readF64 r = some (BitVec.ofNat 64 (bytesValue s a 8)) := by
  refine ⟨(s.writeF64 r (s.dwordAt a)).advance, ?_, writeF64_advance_onlyF s r _, ?_⟩
  · rw [loadF8_eq, if_neg (by simp [hd]), loadCheck_ok hal hr]
  · rw [State.advance_readF64, State.readF64_writeF64 _ _ _ _ hd, if_pos rfl, dwordAt_eq]

/-- A permitted 8-byte floating-point store writes all 64 bits of its register (R135, R200). -/
theorem storeF8_completes (hd : s.hasD = true) (hal : a.toNat % 8 = 0) (hw : Writable s a 8) :
    ∃ (t : State) (v : DWord), s.readF64 r = some v ∧ storeF8 w r a s = .next t ∧
      OnlyStored s t a 8 v.toNat (plus s.pc 2) := by
  cases hv : s.readF64 r with
  | none => rw [(State.readF64_eq_none s r).1 hv] at hd; cases hd
  | some v =>
    refine ⟨_, v, rfl, ?_, storeBytes8_onlyStored s a v⟩
    rw [storeF8_of_read hv, store8_eq, storeCheck_ok hal hw]

end

/-! ## Each load is the shared operation on the register and the address of its profile -/

section
variable {i : Instr} {rd : Reg} {k : Access}

theorem exec_eq_loadX (hd : (profile i).destX = some rd) (hk : (profile i).access = some k) (s : State) :
    exec i s = loadX rd (k.address s) s := by
  cases i
  case cLw rd' rs1 uimm =>
    cases hd; cases hk
    rw [Access.address, regAddr_eq, primed_eq]; rfl
  case cLwsp rd' uimm =>
    cases hd; cases hk
    rw [Access.address, spAddr_eq]; rfl
  case cFld | cFldsp | cFlw | cFlwsp | cFsd | cFsdsp | cFsw | cFswsp | cSw | cSwsp => cases hd
  all_goals cases hk

theorem exec_eq_loadF4 (hn : (profile i).needs = .single) (hd : (profile i).destF = some rd)
    (hk : (profile i).access = some k) (s : State) : exec i s = loadF4 (encode i) rd (k.address s) s := by
  cases i
  case cFlw rd' rs1 uimm =>
    cases hd; cases hk
    rw [Access.address, regAddr_eq, primed_eq]; rfl
  case cFlwsp rd' uimm =>
    cases hd; cases hk
    rw [Access.address, spAddr_eq]; rfl
  case cFsw | cFswsp => cases hd
  all_goals cases hn

theorem exec_eq_loadF8 (hn : (profile i).needs = .double) (hd : (profile i).destF = some rd)
    (hk : (profile i).access = some k) (s : State) : exec i s = loadF8 (encode i) rd (k.address s) s := by
  cases i
  case cFld rd' rs1 uimm =>
    cases hd; cases hk
    rw [Access.address, regAddr_eq, primed_eq]; rfl
  case cFldsp rd' uimm =>
    cases hd; cases hk
    rw [Access.address, spAddr_eq]; rfl
  case cFsd | cFsdsp => cases hd
  all_goals cases hn

end

/-! ## Permitted accesses complete -/

section
variable {i : Instr} {rd base : Reg} {off : Nat} {s : State} {a : Word}

/-- A permitted load into an integer register completes (R132, R192). -/
theorem exec_loadX_completes (hd : (profile i).destX = some rd) (hk : (profile i).access = some ⟨false, 4, base, off⟩)
    (ha : a = plus (s.readX base) off) (hal : a.toNat % 4 = 0) (hr : Readable s a 4) :
    ∃ t, exec i s = .next t ∧ OnlyX s t rd (BitVec.ofNat 32 (bytesValue s a 4)) (plus s.pc 2) := by
  subst ha
  rw [exec_eq_loadX hd hk]
  exact loadX_completes hal hr

/-- A permitted 4-byte floating-point load completes, and boxes the word when `FLEN` = 64 (R133, R193). -/
theorem exec_loadF4_completes (hn : (profile i).needs = .single) (hd : (profile i).destF = some rd)
    (hk : (profile i).access = some ⟨false, 4, base, off⟩) (ha : a = plus (s.readX base) off) (hf : s.hasF = true)
    (hal : a.toNat % 4 = 0) (hr : Readable s a 4) :
    ∃ t, exec i s = .next t ∧ OnlyF s t rd (plus s.pc 2) ∧ t.readF32 rd = some (BitVec.ofNat 32 (bytesValue s a 4)) ∧
      (s.hasD = true → t.readF64 rd = some (nanBox (BitVec.ofNat 32 (bytesValue s a 4)))) := by
  subst ha
  rw [exec_eq_loadF4 hn hd hk]
  obtain ⟨t, h, hframe, hv⟩ := loadF4_completes hf hal hr
  exact ⟨t, h, hframe, hv, readF64_of_loadF4 h⟩

/-- A permitted 8-byte floating-point load completes (R131, R191). -/
theorem exec_loadF8_completes (hn : (profile i).needs = .double) (hd : (profile i).destF = some rd)
    (hk : (profile i).access = some ⟨false, 8, base, off⟩) (ha : a = plus (s.readX base) off) (hD : s.hasD = true)
    (hal : a.toNat % 8 = 0) (hr : Readable s a 8) :
    ∃ t, exec i s = .next t ∧ OnlyF s t rd (plus s.pc 2) ∧ t.readF64 rd = some (BitVec.ofNat 64 (bytesValue s a 8)) := by
  subst ha
  rw [exec_eq_loadF8 hn hd hk]
  exact loadF8_completes hD hal hr

/-- A permitted `c.fsd` completes (R135). -/
theorem exec_cFsd_completes {rs2 rs1 : RegP} {uimm : BitVec 8} (ha : a = plus (s.readX (primed rs1)) uimm.toNat)
    (hd : s.hasD = true) (hal : a.toNat % 8 = 0) (hw : Writable s a 8) :
    ∃ (t : State) (v : DWord), s.readF64 (primed rs2) = some v ∧ exec (.cFsd rs2 rs1 uimm) s = .next t ∧
      OnlyStored s t a 8 v.toNat (plus s.pc 2) := by
  rw [regAddr_eq] at ha
  subst ha
  rw [primed_eq]
  exact storeF8_completes hd hal hw

/-- A permitted `c.fsdsp` completes (R200). -/
theorem exec_cFsdsp_completes {rs2 : Reg} {uimm : BitVec 9} (ha : a = plus (s.readX 2#5) uimm.toNat)
    (hd : s.hasD = true) (hal : a.toNat % 8 = 0) (hw : Writable s a 8) :
    ∃ (t : State) (v : DWord), s.readF64 rs2 = some v ∧ exec (.cFsdsp rs2 uimm) s = .next t ∧
      OnlyStored s t a 8 v.toNat (plus s.pc 2) := by
  rw [spAddr_eq] at ha
  subst ha
  exact storeF8_completes hd hal hw

/-- A permitted `c.sw` completes (R136). -/
theorem exec_cSw_completes {rs2 rs1 : RegP} {uimm : BitVec 7} (ha : a = plus (s.readX (primed rs1)) uimm.toNat)
    (hal : a.toNat % 4 = 0) (hw : Writable s a 4) :
    ∃ t, exec (.cSw rs2 rs1 uimm) s = .next t ∧ OnlyStored s t a 4 (s.readX (primed rs2)).toNat (plus s.pc 2) := by
  have hk : (profile (.cSw rs2 rs1 uimm)).access = some ⟨true, 4, primed rs1, uimm.toNat⟩ := rfl
  obtain ⟨t, ht⟩ := (exec_storeStops hk rfl rfl ha).2 hal hw
  subst ha
  exact ⟨t, ht, (exec_cSw_next ht).2⟩

end

/-- `c.addi4spn` writes the sum, and `pc` (R130). -/
theorem exec_cAddi4spn_onlyX (rd : RegP) (nzuimm : BitVec 10) (s : State) :
    ∃ t, exec (.cAddi4spn rd nzuimm) s = .next t ∧
      OnlyX s t (primed rd) (plus (s.readX 2#5) nzuimm.toNat) (plus s.pc 2) := by
  refine ⟨_, finishX_eq _ _ _, ?_⟩
  rw [plus_eq_add_zext, primed_eq]
  exact writeX_advance_onlyX s _ _

end Sys2Proof.Laws
end

section
/-! The statements about quadrant 0 and its stack-pointer forms, settled. -/

namespace Sys2Proof.Proofs

open Sys2Proof.Machine Sys2Proof.Laws

/-- Settles O5, word by word. -/
theorem sampleWordsDecode : Obligations.SampleWordsDecode := by
  unfold Obligations.SampleWordsDecode
  and_intros <;> rfl

/-- Settles O33: without an immediate the bits are those of the reserved row. -/
theorem cAddi4spnResult : Obligations.CAddi4spnResult :=
  ⟨fun rd nzuimm hs h => decodeParcel_of_encode (i := .cAddi4spn rd nzuimm)
      (Bool.and_eq_true_iff.2 ⟨beq_iff_eq.2 hs, bne_iff_ne.2 h⟩) rfl,
    fun rd => illegalParcel_of_role (i := .illegalCAddi4spnNzuimm0 rd) rfl rfl,
    exec_cAddi4spn_onlyX⟩

/-- Settles O49, by the outcome of the checks of its load. -/
theorem cLwResult : Obligations.CLwResult :=
  ⟨fun rd rs1 uimm h => decodeParcel_of_encode (i := .cLw rd rs1 uimm) (beq_iff_eq.2 h) rfl,
    fun rd rs1 uimm _ _ ha => ⟨exec_loadX_completes (i := .cLw rd rs1 uimm) rfl rfl ha,
      (exec_loadStops (i := .cLw rd rs1 uimm) rfl rfl rfl ha).1⟩⟩

/-- Settles O51, by the outcome of the checks of its store. -/
theorem cSwResult : Obligations.CSwResult :=
  ⟨fun rs2 rs1 uimm h => decodeParcel_of_encode (i := .cSw rs2 rs1 uimm) (beq_iff_eq.2 h) rfl,
    fun rs2 rs1 uimm _ _ ha => ⟨exec_cSw_completes ha,
      (exec_storeStops (i := .cSw rs2 rs1 uimm) rfl rfl rfl ha).1⟩⟩

/-- Settles O53: illegal without the registers, else by the outcome of the checks of the load. -/
theorem floatDoubleLoadResults : Obligations.FloatDoubleLoadResults := by
  refine ⟨fun rd rs1 uimm h => ?_, fun rd rs1 uimm s a ha => ?_, fun rd uimm h => ?_, fun rd uimm s a ha => ?_⟩
  · exact decodeParcel_of_encode (i := .cFld rd rs1 uimm) (beq_iff_eq.2 h) rfl
  · exact ⟨fun hd => raises_of_illegalHere (.inr hd), exec_loadF8_completes rfl rfl rfl ha,
      fun hd => (exec_loadStops (i := .cFld rd rs1 uimm) rfl rfl hd ha).1⟩
  · exact decodeParcel_of_encode (i := .cFldsp rd uimm) (beq_iff_eq.2 h) rfl
  · exact ⟨fun hd => raises_of_illegalHere (.inr hd), exec_loadF8_completes rfl rfl rfl ha,
      fun hd => (exec_loadStops (i := .cFldsp rd uimm) rfl rfl hd ha).1⟩

/-- Settles O54: illegal without the registers, else by the outcome of the checks of the load. -/
theorem floatSingleLoadResults : Obligations.FloatSingleLoadResults := by
  refine ⟨fun rd rs1 uimm h => ?_, fun rd rs1 uimm s a ha => ?_, fun rd uimm h => ?_, fun rd uimm s a ha => ?_⟩
  · exact decodeParcel_of_encode (i := .cFlw rd rs1 uimm) (beq_iff_eq.2 h) rfl
  · exact ⟨fun hf => raises_of_illegalHere (.inr hf), exec_loadF4_completes rfl rfl rfl ha,
      fun hf => (exec_loadStops (i := .cFlw rd rs1 uimm) rfl rfl hf ha).1⟩
  · exact decodeParcel_of_encode (i := .cFlwsp rd uimm) (beq_iff_eq.2 h) rfl
  · exact ⟨fun hf => raises_of_illegalHere (.inr hf), exec_loadF4_completes rfl rfl rfl ha,
      fun hf => (exec_loadStops (i := .cFlwsp rd uimm) rfl rfl hf ha).1⟩

/-- Settles O55: illegal without the registers, else by the outcome of the checks of the store. -/
theorem floatDoubleStoreResults : Obligations.FloatDoubleStoreResults := by
  refine ⟨fun rs2 rs1 uimm h => ?_, fun rs2 rs1 uimm s a ha => ?_, fun rs2 uimm h => ?_, fun rs2 uimm s a ha => ?_⟩
  · exact decodeParcel_of_encode (i := .cFsd rs2 rs1 uimm) (beq_iff_eq.2 h) rfl
  · exact ⟨fun hd => raises_of_illegalHere (.inr hd), exec_cFsd_completes ha,
      fun hd => (exec_storeStops (i := .cFsd rs2 rs1 uimm) rfl rfl hd ha).1⟩
  · exact decodeParcel_of_encode (i := .cFsdsp rs2 uimm) (beq_iff_eq.2 h) rfl
  · exact ⟨fun hd => raises_of_illegalHere (.inr hd), exec_cFsdsp_completes ha,
      fun hd => (exec_storeStops (i := .cFsdsp rs2 uimm) rfl rfl hd ha).1⟩

/-- Settles O56: illegal without the registers, else by the outcome of the checks of the store. -/
theorem floatSingleStoreResults : Obligations.FloatSingleStoreResults := by
  refine ⟨fun rs2 rs1 uimm h => ?_, fun rs2 rs1 uimm s a ha => ?_, fun rs2 uimm h => ?_, fun rs2 uimm s a ha => ?_⟩
  · exact decodeParcel_of_encode (i := .cFsw rs2 rs1 uimm) (beq_iff_eq.2 h) rfl
  · exact ⟨fun hf => raises_of_illegalHere (.inr hf), exec_cFsw_completes ha,
      fun hf => (exec_storeStops (i := .cFsw rs2 rs1 uimm) rfl rfl hf ha).1⟩
  · exact decodeParcel_of_encode (i := .cFswsp rs2 uimm) (beq_iff_eq.2 h) rfl
  · exact ⟨fun hf => raises_of_illegalHere (.inr hf), exec_cFswsp_completes ha,
      fun hf => (exec_storeStops (i := .cFswsp rs2 uimm) rfl rfl hf ha).1⟩

end Sys2Proof.Proofs
end

section
/-! SUPPORT. What the register instructions, jumps and branches of quadrant 1 do: each ends in a shared operation, on the
value or target that the spec's arithmetic names. -/

namespace Sys2Proof.Machine

/-! ## The spec's arithmetic on numbers is the model's on words (R10, R11) -/

theorem ofInt_add_eq_add_sext {n : Nat} (x : Word) (b : BitVec n) :
    BitVec.ofInt 32 (x.toNat + b.toInt) = x + sext b := by
  rw [BitVec.ofInt_add, BitVec.ofInt_natCast, BitVec.ofNat_toNat, BitVec.setWidth_eq, ofInt_toInt_eq_sext]

theorem ofInt_sub_eq_sub (x y : Word) : BitVec.ofInt 32 (x.toNat - y.toNat : Int) = x - y := by
  rw [Int.sub_eq_add_neg, BitVec.ofInt_add, BitVec.ofInt_neg, BitVec.ofInt_natCast, BitVec.ofInt_natCast,
    BitVec.ofNat_toNat, BitVec.ofNat_toNat, BitVec.setWidth_eq, BitVec.setWidth_eq, BitVec.sub_eq_add_neg]

theorem ofNat_div_eq_ushiftRight (x : Word) (n : Nat) : BitVec.ofNat 32 (x.toNat / 2 ^ n) = x >>> n := by
  rw [← Nat.shiftRight_eq_div_pow, ← BitVec.toNat_ushiftRight, BitVec.ofNat_toNat, BitVec.setWidth_eq]

theorem ofInt_div_eq_sshiftRight (x : Word) (n : Nat) : BitVec.ofInt 32 (x.toInt / 2 ^ n) = x.sshiftRight n := by
  rw [← BitVec.ofInt_toInt (x := x.sshiftRight n), BitVec.toInt_sshiftRight, Int.shiftRight_eq_div_pow]
  norm_cast

theorem isZero_iff (x : Word) : isZero x = true ↔ x.toNat = 0 := by
  rw [isZero, beq_iff_eq, ← BitVec.toNat_inj]
  rfl

/-! ## Parcels of quadrant 1 -/

/-- The label of R91, written field by field. -/
theorem append_encodeCJ (f : BitVec 3) (v : BitVec 12) (q : BitVec 2) :
    f ++ v.extractLsb 11 11 ++ v.extractLsb 4 4 ++ v.extractLsb 9 8 ++ v.extractLsb 10 10 ++ v.extractLsb 6 6 ++
      v.extractLsb 7 7 ++ v.extractLsb 3 1 ++ v.extractLsb 5 5 ++ q = f ++ encodeCJ v ++ q := by
  rw [parcel_eq_iff]
  simp only [encodeCJ, BitVec.getLsbD_append]
  and_intros <;> rfl

/-- The bits of a `c.lui` of `x[2]` are a `c.addi16sp`: its row comes first, and its immediate is made of the same bits
of the parcel (R85, R156). -/
theorem decodeParcel_cLui_sp {v : BitVec 18} (hs : scaledBy 12 v = true) (h : v ≠ 0#18) :
    decodeParcel (encode (.cLui 2#5 v)) = .cAddi16sp (immAddi16sp (encode (.cLui 2#5 v))) := by
  have hm := encode_carriesTableBits (.cLui 2#5 v) _ rfl
  obtain ⟨hrd, -⟩ := fields_CI (w := encode (.cLui 2#5 v)) rfl
  have h6 : imm6 (encode (.cLui 2#5 v)) ≠ 0#6 := fun h6 =>
    h ((immLui_CI hs rfl).symm.trans (immLui_eq_zero_of_imm6 h6))
  simp [decodeParcel, decodeQuadrant1, field_of_match hm, hrd, h6]

end Sys2Proof.Machine

namespace Sys2Proof.Laws

open Sys2Proof.Machine

/-- A parcel whose instruction advances has no effect but on `pc` (R97, R150). -/
theorem noOpParcel_of_advance {i : Instr} (hw : WellFormed i) (h : ∀ s, exec i s = .next s.advance) :
    NoOpParcel (encode i) := by
  intro s
  rw [decodeParcel_of_encode hw rfl, h]
  exact ⟨_, rfl, advance_onlyPc s⟩

/-! ## How an instruction ends -/

/-- The common end of the register instructions: the result goes to `x[rd]`, and `pc` to the next parcel. -/
theorem finishX_onlyX {rd : Reg} {v v' : Word} (hv : v' = v) (s : State) :
    ∃ t, finishX rd v s = .next t ∧ OnlyX s t rd v' (plus s.pc 2) :=
  ⟨_, finishX_eq rd v s, hv ▸ writeX_advance_onlyX s rd v⟩

/-- The common end of the branches: only `pc` changes, to the target when the branch is taken (R26). -/
theorem branch_onlyPc (taken : Bool) {n : Nat} (offset : BitVec n) (s : State) :
    ∃ t, branch taken (sext offset) s = .next t ∧
      OnlyPc s t (if taken then pcPlus s offset.toInt else plus s.pc 2) := by
  refine ⟨_, branch_eq _ _ s, ?_⟩
  cases taken with
  | true =>
    rw [pcPlus_eq]
    exact setPc_onlyPc s _
  | false => exact advance_onlyPc s

/-! ## Jumps and branches -/

/-- `c.j` only jumps (R166). -/
theorem exec_cJ_onlyPc (offset : BitVec 12) (s : State) :
    ∃ t, exec (.cJ offset) s = .next t ∧ OnlyPc s t (pcPlus s offset.toInt) := by
  rw [pcPlus_eq]
  exact ⟨_, rfl, setPc_onlyPc s _⟩

/-- `c.beqz` branches on 0 (R167). -/
theorem exec_cBeqz_onlyPc (rs1 : RegP) (offset : BitVec 9) (s : State) :
    ∃ t, exec (.cBeqz rs1 offset) s = .next t ∧
      OnlyPc s t (if (s.readX (primed rs1)).toNat = 0 then pcPlus s offset.toInt else plus s.pc 2) := by
  have h := branch_onlyPc (isZero (s.readX (regP rs1))) offset s
  simp only [isZero_iff] at h
  rw [primed_eq]
  exact h

/-- `c.bnez` branches on any other value (R168). -/
theorem exec_cBnez_onlyPc (rs1 : RegP) (offset : BitVec 9) (s : State) :
    ∃ t, exec (.cBnez rs1 offset) s = .next t ∧
      OnlyPc s t (if (s.readX (primed rs1)).toNat = 0 then plus s.pc 2 else pcPlus s offset.toInt) := by
  have h := branch_onlyPc (!isZero (s.readX (regP rs1))) offset s
  simp only [Bool.not_eq_true', ← Bool.not_eq_true, isZero_iff, ite_not] at h
  rw [primed_eq]
  exact h

end Sys2Proof.Laws
end

section
/-! The statements about quadrant 1, settled. -/

namespace Sys2Proof.Proofs

open Sys2Proof.Machine Sys2Proof.Laws

/-- Settles O34: without a register or an immediate the bits are those of `c.nop` or of a HINT. -/
theorem cAddiResult : Obligations.CAddiResult := by
  refine ⟨fun rd nzimm hrd h => ?_, fun rd nzimm h => ?_, fun rd nzimm s => ?_⟩
  · exact decodeParcel_of_encode (i := .cAddi rd nzimm) (Bool.and_eq_true_iff.2 ⟨bne_iff_ne.2 hrd, bne_iff_ne.2 h⟩) rfl
  · by_cases hrd : rd = 0
    · subst hrd
      by_cases hz : nzimm = 0
      · subst hz
        exact noOpParcel_of_advance (i := .cNop) rfl fun _ => rfl
      · exact noOpParcel_of_advance (i := .hintCNopImmNonzero nzimm) (bne_iff_ne.2 hz) fun _ => rfl
    · obtain rfl := h.resolve_left hrd
      exact noOpParcel_of_advance (i := .hintCAddiImm0 rd) (bne_iff_ne.2 hrd) fun _ => rfl
  · exact finishX_onlyX (ofInt_add_eq_add_sext _ _) s

/-- Settles O35: into `x[0]` the bits are those of a HINT. -/
theorem cLiResult : Obligations.CLiResult :=
  ⟨fun rd imm h => decodeParcel_of_encode (i := .cLi rd imm) (bne_iff_ne.2 h) rfl,
    fun imm => noOpParcel_of_advance (i := .hintCLiRd0 imm) rfl fun _ => rfl,
    fun _ imm => finishX_onlyX (ofInt_toInt_eq_sext imm)⟩

/-- Settles O36: without an immediate the bits are those of the reserved row. -/
theorem cAddi16spResult : Obligations.CAddi16spResult :=
  ⟨fun imm hs h => decodeParcel_of_encode (i := .cAddi16sp imm)
      (Bool.and_eq_true_iff.2 ⟨beq_iff_eq.2 hs, bne_iff_ne.2 h⟩) rfl,
    illegalParcel_of_role (i := .illegalCAddi16spImm0) rfl rfl,
    fun _ s => finishX_onlyX (ofInt_add_eq_add_sext _ _) s⟩

/-- Settles O37, one row for each kind of `rd` and immediate. -/
theorem cLuiResult : Obligations.CLuiResult := by
  refine ⟨fun rd imm h0 h2 hs h => ?_, fun rd imm hrd hs h => ?_, fun rd imm hrd hs h => ?_, fun rd h => ?_,
    fun rd imm => finishX_onlyX (ofInt_toInt_eq_sext imm)⟩
  · exact decodeParcel_of_encode (i := .cLui rd imm) (by simp_all [WellFormed, wellFormed, scaledBy]) rfl
  · subst hrd
    exact noOpParcel_of_advance (i := .hintCLuiRd0 imm)
      (Bool.and_eq_true_iff.2 ⟨beq_iff_eq.2 hs, bne_iff_ne.2 h⟩) fun _ => rfl
  · subst hrd
    exact ⟨_, decodeParcel_cLui_sp (beq_iff_eq.2 hs) h⟩
  · exact illegalParcel_of_role (i := .illegalCLuiImm0 rd) (bne_iff_ne.2 h) rfl

/-- Settles O38: a shift right is a division by a power of two, rounding down, of the value read as its kind says. -/
theorem rightShiftResults : Obligations.RightShiftResults := by
  refine ⟨fun rd shamt => ⟨?_, ?_, ?_, ?_⟩, fun rd shamt s => ?_, fun rd shamt s => ?_⟩
  · exact decodeParcel_of_encode (i := .cSrli rd shamt) rfl rfl
  · exact decodeParcel_of_encode (i := .cSrai rd shamt) rfl rfl
  · exact illegalParcel_of_role (i := .illegalCSrliCSraiShamt5 0b0#1 rd shamt) rfl rfl
  · exact illegalParcel_of_role (i := .illegalCSrliCSraiShamt5 0b1#1 rd shamt) rfl rfl
  · rw [primed_eq]
    exact finishX_onlyX (ofNat_div_eq_ushiftRight _ _) s
  · rw [primed_eq]
    exact finishX_onlyX (ofInt_div_eq_sshiftRight _ _) s

/-- Settles O39: the row has no condition on its operands. -/
theorem cAndiResult : Obligations.CAndiResult := by
  refine ⟨fun rd imm => decodeParcel_of_encode (i := .cAndi rd imm) rfl rfl, fun rd imm s => ?_⟩
  rw [primed_eq, ofInt_toInt_eq_sext]
  exact finishX_onlyX rfl s

/-- Settles O40: both registers are read before `x[8+rd']` is written. -/
theorem cSubResult : Obligations.CSubResult := by
  refine ⟨fun rd rs2 => decodeParcel_of_encode (i := .cSub rd rs2) rfl rfl, fun rd rs2 s => ?_⟩
  rw [primed_eq, primed_eq]
  exact finishX_onlyX (ofInt_sub_eq_sub _ _) s

/-- Settles O41: the three operations end alike. -/
theorem bitwiseResults : Obligations.BitwiseResults := by
  simp only [Obligations.BitwiseResults, primed_eq]
  exact ⟨fun rd rs2 => decodeParcel_of_encode (i := .cXor rd rs2) rfl rfl, fun _ _ s => finishX_onlyX rfl s,
    fun rd rs2 => decodeParcel_of_encode (i := .cOr rd rs2) rfl rfl, fun _ _ s => finishX_onlyX rfl s,
    fun rd rs2 => decodeParcel_of_encode (i := .cAnd rd rs2) rfl rfl, fun _ _ s => finishX_onlyX rfl s⟩

/-- Settles O45: the bits of the label are those of the encoding; the target is relative to the old `pc`. -/
theorem pcRelativeJumpResults : Obligations.PcRelativeJumpResults := by
  refine ⟨fun offset h => ?_, exec_cJ_onlyPc, exec_cJal_onlyX⟩
  rw [append_encodeCJ, append_encodeCJ]
  exact ⟨decodeParcel_of_encode (i := .cJ offset) (beq_iff_eq.2 h) rfl,
    decodeParcel_of_encode (i := .cJal offset) (beq_iff_eq.2 h) rfl⟩

/-- Settles O46, by the outcome of the test for 0. -/
theorem branchResults : Obligations.BranchResults :=
  ⟨fun rs1 offset h => ⟨decodeParcel_of_encode (i := .cBeqz rs1 offset) (beq_iff_eq.2 h) rfl,
      decodeParcel_of_encode (i := .cBnez rs1 offset) (beq_iff_eq.2 h) rfl⟩,
    exec_cBeqz_onlyPc, exec_cBnez_onlyPc⟩

end Sys2Proof.Proofs
end

section
/-! SUPPORT. What the instructions of quadrant 2 do: the register instructions end in a shared operation, the
stack-pointer store and the register jumps have their own rules. -/

namespace Sys2Proof.Machine

/-! ## The spec's arithmetic on numbers is the model's on words (R10, R11) -/

theorem ofNat_mul_eq_shiftLeft (x : Word) (n : Nat) : BitVec.ofNat 32 (x.toNat * 2 ^ n) = x <<< n := by
  apply BitVec.eq_of_toNat_eq
  rw [BitVec.toNat_ofNat, BitVec.toNat_shiftLeft, Nat.shiftLeft_eq]

theorem plus_toNat_eq_add (x y : Word) : plus x y.toNat = x + y := by
  rw [plus_eq, BitVec.ofNat_toNat, BitVec.setWidth_eq]

/-! ## Parcels of quadrant 2 -/

/-- The bits of a `c.lwsp` into `x[0]` are the reserved row, whatever the immediate: the label of R93 leaves out its low
two bits (R192). -/
theorem decodeParcel_cLwsp_zero (uimm : BitVec 8) :
    decodeParcel (encode (.illegalCLwspRd0 uimm)) =
      .illegalCLwspRd0 (uimmCI4 (encode (.illegalCLwspRd0 uimm))) := by
  have hm := encode_carriesTableBits (.illegalCLwspRd0 uimm) _ rfl
  simp [decodeParcel, decodeQuadrant2, fieldRd, field_of_match hm]

end Sys2Proof.Machine

namespace Sys2Proof.Laws

open Sys2Proof.Machine

/-- A parcel that decodes to a reserved row is illegal in every state (R96). -/
theorem illegalParcel_of_decodeParcel {w : Parcel} (h : (profile (decodeParcel w)).role = .illegal) :
    IllegalParcel w := by
  intro s
  have hr := raises_of_illegalHere (i := decodeParcel w) (s := s) (.inl h)
  rwa [encode_decodeParcel] at hr

/-- A permitted `c.swsp` completes (R201). -/
theorem exec_cSwsp_completes {rs2 : Reg} {uimm : BitVec 8} {s : State} {a : Word}
    (ha : a = plus (s.readX 2#5) uimm.toNat) (hal : a.toNat % 4 = 0) (hw : Writable s a 4) :
    ∃ t, exec (.cSwsp rs2 uimm) s = .next t ∧ OnlyStored s t a 4 (s.readX rs2).toNat (plus s.pc 2) := by
  rw [spAddr_eq] at ha
  subst ha
  refine ⟨_, (store4_eq _ _ s).trans ?_, storeBytes4_onlyStored s _ _⟩
  rw [storeCheck_ok hal hw]

/-- `c.jr` only jumps (R195). -/
theorem exec_cJr_onlyPc (rs1 : Reg) (s : State) :
    ∃ t, exec (.cJr rs1) s = .next t ∧ OnlyPc s t (clearBit0 (s.readX rs1)) := by
  rw [clearBit0_eq]
  exact ⟨_, rfl, setPc_onlyPc s _⟩

/-- `c.jalr` links, and jumps to what its register held before (R198). -/
theorem exec_cJalr_onlyX (rs1 : Reg) (s : State) :
    ∃ t, exec (.cJalr rs1) s = .next t ∧ OnlyX s t 1#5 (plus s.pc 2) (clearBit0 (s.readX rs1)) := by
  refine ⟨_, jumpAndLink_eq _ s, ?_⟩
  rw [plus_two, clearBit0_eq]
  exact writeX_setPc_onlyX s _ _ _

end Sys2Proof.Laws
end

section
/-! The statements about quadrant 2, settled. -/

namespace Sys2Proof.Proofs

open Sys2Proof.Machine Sys2Proof.Laws

/-- Settles O50, by the outcome of the checks of its load; into `x[0]` the bits are those of the reserved row. -/
theorem cLwspResult : Obligations.CLwspResult := by
  refine ⟨fun uimm => illegalParcel_of_decodeParcel ?_, fun rd uimm hrd h => ?_, fun rd uimm s a ha => ⟨?_, ?_⟩⟩
  · exact congrArg (fun i => (profile i).role) (decodeParcel_cLwsp_zero uimm)
  · exact decodeParcel_of_encode (i := .cLwsp rd uimm)
      (Bool.and_eq_true_iff.2 ⟨bne_iff_ne.2 hrd, beq_iff_eq.2 h⟩) rfl
  · exact exec_loadX_completes (i := .cLwsp rd uimm) rfl rfl ha
  · exact (exec_loadStops (i := .cLwsp rd uimm) rfl rfl rfl ha).1

/-- Settles O52, by the outcome of the checks of its store. -/
theorem cSwspResult : Obligations.CSwspResult :=
  ⟨fun rs2 uimm h => decodeParcel_of_encode (i := .cSwsp rs2 uimm) (beq_iff_eq.2 h) rfl,
    fun rs2 uimm _ _ ha => ⟨exec_cSwsp_completes ha,
      (exec_storeStops (i := .cSwsp rs2 uimm) rfl rfl rfl ha).1⟩⟩

/-- Settles O42: a shift left is a multiplication by a power of two. -/
theorem cSlliResult : Obligations.CSlliResult :=
  ⟨fun rd shamt h => decodeParcel_of_encode (i := .cSlli rd shamt) (bne_iff_ne.2 h) rfl,
    fun rd low => illegalParcel_of_role (i := .illegalCSlliShamt5 rd low) rfl rfl,
    fun shamt => noOpParcel_of_advance (i := .hintCSlliRd0 shamt) rfl fun _ => rfl,
    fun _ _ s => finishX_onlyX (ofNat_mul_eq_shiftLeft _ _) s⟩

/-- Settles O43, one row for each kind of `rd` and `rs2`. -/
theorem cMvResult : Obligations.CMvResult :=
  ⟨fun rd rs2 hrd h => decodeParcel_of_encode (i := .cMv rd rs2)
      (Bool.and_eq_true_iff.2 ⟨bne_iff_ne.2 hrd, bne_iff_ne.2 h⟩) rfl,
    fun rd h => decodeParcel_of_encode (i := .cJr rd) (bne_iff_ne.2 h) rfl,
    fun rs2 h => noOpParcel_of_advance (i := .hintCMvRd0 rs2) (bne_iff_ne.2 h) fun _ => rfl,
    fun _ _ s => finishX_onlyX rfl s⟩

/-- Settles O44, one row for each kind of `rd` and `rs2`. -/
theorem cAddResult : Obligations.CAddResult := by
  refine ⟨fun rd rs2 hrd h => ?_, fun rd => ?_, fun rs2 h => ?_, fun rd rs2 s => ?_⟩
  · exact decodeParcel_of_encode (i := .cAdd rd rs2) (Bool.and_eq_true_iff.2 ⟨bne_iff_ne.2 hrd, bne_iff_ne.2 h⟩) rfl
  · split
    case isTrue hrd =>
      subst hrd
      exact decodeParcel_of_encode (i := .cEbreak) rfl rfl
    case isFalse hrd => exact decodeParcel_of_encode (i := .cJalr rd) (bne_iff_ne.2 hrd) rfl
  · exact noOpParcel_of_advance (i := .hintCAddRd0 rs2) (bne_iff_ne.2 h) fun _ => rfl
  · exact finishX_onlyX (plus_toNat_eq_add _ _) s

/-- Settles O47: the target of both jumps is made of the register's old value. -/
theorem registerJumpResults : Obligations.RegisterJumpResults :=
  ⟨fun rs1 h => ⟨decodeParcel_of_encode (i := .cJr rs1) (bne_iff_ne.2 h) rfl,
      decodeParcel_of_encode (i := .cJalr rs1) (bne_iff_ne.2 h) rfl⟩,
    illegalParcel_of_role (i := .illegalCJrRs1x0) rfl rfl,
    decodeParcel_of_encode (i := .cEbreak) rfl rfl,
    exec_cJr_onlyPc, exec_cJalr_onlyX⟩

/-- Settles O48: the word, the code and the stop are the model's by definition. -/
theorem cEbreakStops : Obligations.CEbreakStops :=
  ⟨decodeParcel_of_encode (i := .cEbreak) rfl rfl, rfl, fun _ => rfl⟩

end Sys2Proof.Proofs
end

section
/-! SUPPORT. What a trap says by its cause, and that a run ends at one. -/

namespace Sys2Proof.Machine

theorem cause_of_loadCheck {n : Nat} {a : Word} {s : State} {c : Cause} (h : loadCheck n a s = some c) :
    c = .loadAddressMisaligned ∨ c = .loadAccessFault :=
  (loadCheck_eq_some.1 h).imp And.right fun ⟨_, _, hc⟩ => hc

theorem cause_of_storeCheck {n : Nat} {a : Word} {s : State} {c : Cause} (h : storeCheck n a s = some c) :
    c = .storeAddressMisaligned ∨ c = .storeAccessFault :=
  (storeCheck_eq_some.1 h).imp And.right fun ⟨_, _, hc⟩ => hc

/-- A fault of the first step is the fault of every longer run (R224). -/
theorem run_of_step_fault {M : Host.Core} {s : M.State} {r : M.Fault} (h : M.step s = .fault r) (n : Nat) :
    M.run (n + 1) s = .fault r := by
  rw [Host.Core.run, h]

end Sys2Proof.Machine

namespace Sys2Proof.Laws

open Sys2Proof.Machine

/-- The rows of the tables of R221 and R222 for an instruction that stops: from the cause, which instruction it was and
what `tval` is. -/
structure StopTable (i : Instr) (s : State) (r : Trap) : Prop where
  illegal : r.cause = .illegalInstruction → IllegalHere i s ∧ r.tval = (encode i).setWidth 32
  breakpoint : r.cause = .breakpoint → i = .cEbreak ∧ r.tval = s.pc
  load : r.cause = .loadAddressMisaligned ∨ r.cause = .loadAccessFault →
    ∃ k, (profile i).access = some k ∧ k.store = false ∧ r.tval = k.address s
  store : r.cause = .storeAddressMisaligned ∨ r.cause = .storeAccessFault →
    ∃ k, (profile i).access = some k ∧ k.store = true ∧ r.tval = k.address s
  notFetch : r.cause ≠ .instructionAccessFault

namespace Stop

variable {i : Instr} {s : State} {r : Trap}

/-- Each way to stop has causes of its own, so the cause tells which it was. -/
theorem table (h : Stop i s r) : StopTable i s r := by
  cases h with
  | illegal hi => constructor <;> simp [hi]
  | breakpoint hi => constructor <;> simp [hi]
  | load k c hk hs hc => obtain rfl | rfl := cause_of_loadCheck hc <;> constructor <;> simp [hk, hs]
  | store k c hk hs hc => obtain rfl | rfl := cause_of_storeCheck hc <;> constructor <;> simp [hk, hs]

theorem epc_eq (h : Stop i s r) : r.epc = s.pc := by cases h <;> rfl

end Stop

end Sys2Proof.Laws
end

section
/-! The statements about exceptions, settled. -/

namespace Sys2Proof.Proofs

open Sys2Proof.Machine Sys2Proof.Laws

/-- Settles O18: the fetch and the instruction both raise from the state they found. -/
theorem trapHandsOutUnchangedState : Obligations.TrapHandsOutUnchangedState := by
  intro s t r h
  obtain ⟨rfl, hr⟩ := step_fault h
  refine ⟨rfl, ?_, run_of_step_fault (M := Sys2Proof.core) h⟩
  obtain ⟨-, rfl⟩ | hstop := hr
  · rfl
  · exact hstop.epc_eq

/-- Settles O19: a failed fetch has a cause of its own, and a stop has the `tval` of its cause. -/
theorem trapValue : Obligations.TrapValue := by
  rintro s t r w rfl h
  obtain ⟨-, ⟨-, rfl⟩ | hstop⟩ := step_fault h
  · simp
  · have ht := hstop.table
    refine ⟨fun hc => absurd hc ht.notFetch, fun hc => ?_, fun hc => (ht.breakpoint hc).2, fun hc => ?_⟩
    · rw [(ht.illegal hc).2, encode_decodeParcel, BitVec.ofNat_toNat, State.parcelAt]
    · obtain hload | hstore := or_assoc.2 hc
      · obtain ⟨k, hk, -, htval⟩ := ht.load hload
        exact ⟨k, hk, htval⟩
      · obtain ⟨k, hk, -, htval⟩ := ht.store hstore
        exact ⟨k, hk, htval⟩

/-- Settles O20: the stops of `exec` by their cause, the rows that never stop, and the fetch of the next step. -/
theorem whoRaisesWhat : Obligations.WhoRaisesWhat := by
  refine ⟨fun i s t r hw h => ?_, fun i s => exec_completes, fun s => step_of_not_fetchable⟩
  have hstop := (exec_fault hw h).2
  have ht := hstop.table
  refine ⟨fun hc => ?_, fun hc => ?_, ⟨fun hc => (ht.breakpoint hc).1, ?_⟩, fun hc => (ht.illegal hc).1,
    hstop.cause_ne_misaligned, ht.notFetch⟩
  · obtain ⟨k, hk, hs, -⟩ := ht.load hc
    exact ⟨k, hk, hs⟩
  · obtain ⟨k, hk, hs, -⟩ := ht.store hc
    exact ⟨k, hk, hs⟩
  · rintro rfl
    obtain ⟨rfl, -⟩ := raise_fault h
    rfl

end Sys2Proof.Proofs
end

section
/-! SUPPORT. What a launch gives, what its image leaves in memory, and how a run goes on after its first steps. -/

namespace Sys2Proof.Machine

/-! ## The image (R42) -/

theorem imageMemory_concat (image : List (Word × Byte)) (a : Word) (b : Byte) :
    imageMemory (image ++ [(a, b)]) = Memory.write (imageMemory image) a.toNat b := by
  simp [imageMemory]

/-- Loading more pairs keeps the canonical form. -/
theorem wf_imageMemory_append (before after : List (Word × Byte)) (h : Memory.wf (imageMemory before) = true) :
    Memory.wf (imageMemory (before ++ after)) = true := by
  induction after generalizing before with
  | nil => rwa [List.append_nil]
  | cons p after ih =>
    obtain ⟨k, c⟩ := p
    rw [List.append_cons]
    refine ih _ ?_
    rw [imageMemory_concat]
    exact Memory.wf_write c k.isLt h

theorem wf_imageMemory (image : List (Word × Byte)) : Memory.wf (imageMemory image) = true :=
  wf_imageMemory_append [] image rfl

/-- Pairs for other addresses, loaded last, leave a byte as it was. -/
theorem read_imageMemory_append (before after : List (Word × Byte)) {a : Word} (h : ∀ c : Byte, (a, c) ∉ after) :
    Memory.read (imageMemory (before ++ after)) a.toNat = Memory.read (imageMemory before) a.toNat := by
  induction after generalizing before with
  | nil => rw [List.append_nil]
  | cons p after ih =>
    obtain ⟨k, c⟩ := p
    have hne : a ≠ k := fun hk => h c (hk ▸ List.mem_cons_self)
    have htail : ∀ b : Byte, (a, b) ∉ after := fun b hb => h b (List.mem_cons_of_mem _ hb)
    rw [List.append_cons, ih _ htail, imageMemory_concat, Memory.read_write, if_neg (mt BitVec.eq_of_toNat_eq hne)]

theorem read_imageMemory_last (before after : List (Word × Byte)) {a : Word} (b : Byte)
    (h : ∀ c : Byte, (a, c) ∉ after) : Memory.read (imageMemory (before ++ (a, b) :: after)) a.toNat = b := by
  rw [List.append_cons, read_imageMemory_append _ after h, imageMemory_concat, Memory.read_write, if_pos rfl]

theorem read_imageMemory_unlisted {image : List (Word × Byte)} {a : Word} (h : ∀ c : Byte, (a, c) ∉ image) :
    Memory.read (imageMemory image) a.toNat = Config.unlistedByte :=
  read_imageMemory_append [] image h

/-! ## The launch (R260, R261) -/

/-- The state of an accepted launch. -/
def LaunchArgs.state (args : LaunchArgs) : State where
  x := #v[(0 : Word)] ++ args.initX
  pc := args.resetPc
  f := args.f
  mem := imageMemory args.image
  map := args.map

theorem launch_of_odd {args : LaunchArgs} (h : args.resetPc.toNat % 2 = 1) : launch args = .error .oddResetPc := by
  simp [launch, aligned, h]

theorem launch_eq_ok_iff {args : LaunchArgs} {t : State} : launch args = .ok t ↔
    args.resetPc.toNat % 2 = 0 ∧ MemMap.exclusive args.map = true ∧ t = args.state := by
  rw [← aligned_iff, launch]
  split
  · simp [*]
  · split
    · simp [*]
    · simp [*, LaunchArgs.state, eq_comm]

theorem LaunchArgs.state_x_zero (args : LaunchArgs) : args.state.x[0] = 0#32 :=
  Vector.getElem_append_left (xs := #v[(0 : Word)]) (by omega)

/-- `INIT_X` is the values of `x[1]` to `x[31]` (R40). -/
theorem LaunchArgs.state_x_succ (args : LaunchArgs) (k : Fin 31) : args.state.x[k.val + 1] = args.initX[k] :=
  Vector.getElem_append_right (xs := #v[(0 : Word)]) (by omega) (by omega)

theorem LaunchArgs.state_readX_succ (args : LaunchArgs) (k : Fin 31) :
    args.state.readX (BitVec.ofNat 5 (k.val + 1)) = args.initX[k] := by
  have hk : (BitVec.ofNat 5 (k.val + 1)).toNat = k.val + 1 := by
    rw [BitVec.toNat_ofNat, Nat.mod_eq_of_lt (by omega)]
  have hne : BitVec.ofNat 5 (k.val + 1) ≠ 0#5 := fun h => by simp [h] at hk
  simp only [State.readX, if_neg hne, hk, args.state_x_succ]

/-! ## A run goes on (R265) -/

section
variable {M : Host.Core} {s : M.State}

theorem run_of_step_next {u : M.State} (h : M.step s = .next u) (n : Nat) : M.run (n + 1) s = M.run n u := by
  rw [Host.Core.run, h]

/-- A refusal of the first step is the refusal of every longer run. -/
theorem run_of_step_refused {q : M.Refusal} (h : M.step s = .refused q) (n : Nat) : M.run (n + 1) s = .refused q := by
  rw [Host.Core.run, h]

/-- Steps that lead from `s` to `t` can be taken first. -/
theorem run_add {n : Nat} {t : M.State} (h : M.run n s = .next t) (m : Nat) : M.run (n + m) s = M.run m t := by
  induction n generalizing s with
  | zero =>
    obtain rfl := Host.Outcome.next.inj h
    rw [Nat.zero_add]
  | succ n ih =>
    rw [Nat.succ_add]
    cases hs : M.step s with
    | next u =>
      rw [run_of_step_next hs] at h ⊢
      exact ih h
    | fault r => cases (run_of_step_fault hs n).symm.trans h
    | refused q => cases (run_of_step_refused hs n).symm.trans h

end

end Sys2Proof.Machine
end

section
/-! The statements about reset, launch and the end of a run, settled. -/

namespace Sys2Proof.Proofs

open Sys2Proof.Machine Sys2Proof.Laws

/-- Settles O12: the launch checks `pc` and the map, and the image is loaded by writes. -/
theorem launchGivesInvariant : Obligations.LaunchGivesInvariant := by
  intro args t h
  obtain ⟨hpc, hmap, rfl⟩ := launch_eq_ok_iff.1 h
  exact ⟨(aligned_iff 2 _).2 hpc, args.state_x_zero, wf_imageMemory args.image, hmap⟩

/-- Settles O14: the last pair of an address is the one whose byte stays. -/
theorem launchStateHoldsTheArguments : Obligations.LaunchStateHoldsTheArguments := by
  intro args hpc hmap
  refine ⟨args.state, launch_eq_ok_iff.2 ⟨hpc, hmap, rfl⟩, State.readX_zero _, args.state_readX_succ, rfl, rfl,
    fun before after a b himage hlast => ?_, fun a => read_imageMemory_unlisted⟩
  rw [State.byteAt, LaunchArgs.state, himage]
  exact read_imageMemory_last before after b hlast

/-- Settles O22: a run goes on from where its first steps lead, and the next step ends it. -/
theorem runStopsAtTheFirstTrap : Obligations.RunStopsAtTheFirstTrap := by
  intro ends n s t h
  refine ⟨runOutcome_of_next ends h, fun m r u hstep => ?_, fun m q hstep => ?_⟩
  · obtain ⟨rfl, -⟩ := step_fault hstep
    have hrun : Host.Core.run Sys2Proof.core (n + m + 1) s = .fault (.trap r u) :=
      (run_add h (m + 1)).trans (run_of_step_fault (M := Sys2Proof.core) hstep m)
    split
    · next hend => exact runOutcome_of_end hend hrun
    · next hend => exact runOutcome_of_other_trap hend hrun
  · exact runOutcome_of_refused ends
      ((run_add h (m + 1)).trans (run_of_step_refused (M := Sys2Proof.core) hstep m))

/-- Settles O15: the values of `resetArgs` pass both checks of the launch. -/
theorem resetIsALaunch : Obligations.ResetIsALaunch :=
  launch_eq_ok_iff.2 ⟨rfl, rfl, rfl⟩

/-- Settles O11, as the invariant of a launch. -/
theorem resetHasInvariant : Obligations.ResetHasInvariant :=
  launchGivesInvariant resetArgs State.reset resetIsALaunch

/-- Settles O13, from what an accepted launch gives. -/
theorem launchRejectsOddPc : Obligations.LaunchRejectsOddPc := by
  refine ⟨fun _ => launch_of_odd, fun args t h => ?_⟩
  obtain ⟨-, -, rfl⟩ := launch_eq_ok_iff.1 h
  rfl

end Sys2Proof.Proofs
end
